-- ==== Sys2Proof/Word.lean ====
section
/-! DEFINITION. The bit vectors of the block: a byte, a 32-bit operand or counter, a 64-bit command word. -/

namespace Sys2Proof

/-- One byte of a byte sequence; also a symbol (00_scope.md R6: `SYM_W = 8`). -/
abbrev Byte := BitVec 8

/-- A 32-bit quantity: the `imm` operand, the response's data, a frequency counter (`CNT_W = 32`),
a bit position (`POS_W = 32`), the bits of a code (00_scope.md R6, R8; 30_encoding.md R100, R104). -/
abbrev Word := BitVec 32

/-- One command (30_encoding.md R100): fixed length, 64 bits. -/
abbrev CommandWord := BitVec 64

/-- The number of one of the four code registers (10_state.md R24). -/
abbrev CodeReg := Fin 4

end Sys2Proof
end

