-- ==== Sys2Proof/Syntax.lean ====
section
/-! DEFINITION. The 33 commands of the block, one constructor per row of spec/opcode_table.json
(30_encoding.md R103), with the operands of the row's format (R102). -/

namespace Sys2Proof

/-- A command. An operand is the unsigned number its field holds (30_encoding.md R101): `sym` a byte,
`imm` a 32-bit number, `val` one bit, `rd` and `rs` a code register's number. -/
inductive Instr where
  /-- `RESET` (45_system.md R261) -/
  | reset
  /-- `CSRR num` (45_system.md R262) -/
  | csrr (num : Byte)
  /-- `IB.CLR` (45_system.md R263) -/
  | ibClr
  /-- `IB.PUT sym` (45_system.md R264) -/
  | ibPut (sym : Byte)
  /-- `IB.SEEK pos` (45_system.md R265) -/
  | ibSeek (pos : Word)
  /-- `OB.CLR` (45_system.md R266) -/
  | obClr
  /-- `OB.GET idx` (45_system.md R267) -/
  | obGet (idx : Word)
  /-- `FQ.SET sym, value` (45_system.md R268) -/
  | fqSet (sym : Byte) (value : Word)
  /-- `FQ.GET sym` (45_system.md R269) -/
  | fqGet (sym : Byte)
  /-- `BB.NEW` (40_bitbuffer.md R131) -/
  | bbNew
  /-- `BB.WR val, pos` (40_bitbuffer.md R133) -/
  | bbWr (val : Bool) (pos : Word)
  /-- `BB.WRN val` (40_bitbuffer.md R134) -/
  | bbWrn (val : Bool)
  /-- `BB.RD pos` (40_bitbuffer.md R135) -/
  | bbRd (pos : Word)
  /-- `BB.RDN` (40_bitbuffer.md R136) -/
  | bbRdn
  /-- `BB.MORE` (40_bitbuffer.md R137) -/
  | bbMore
  /-- `BB.FIN` (40_bitbuffer.md R139) -/
  | bbFin
  /-- `BB.LOAD` (40_bitbuffer.md R140) -/
  | bbLoad
  /-- `BB.OUT` (40_bitbuffer.md R141) -/
  | bbOut
  /-- `VC.NEW cD` (41_vlc.md R161) -/
  | vcNew (rd : CodeReg)
  /-- `VC.APP cD, val` (41_vlc.md R162) -/
  | vcApp (rd : CodeReg) (val : Bool)
  /-- `VC.BIT cS, idx` (41_vlc.md R163) -/
  | vcBit (rs : CodeReg) (idx : Word)
  /-- `VC.EXT cD, cS, val` (41_vlc.md R164) -/
  | vcExt (rd rs : CodeReg) (val : Bool)
  /-- `VC.WR cS` (41_vlc.md R165) -/
  | vcWr (rs : CodeReg)
  /-- `TR.COUNT` (42_tree.md R181) -/
  | trCount
  /-- `TR.BUILD` (42_tree.md R184) -/
  | trBuild
  /-- `TR.FIND cD, sym` (42_tree.md R191) -/
  | trFind (rd : CodeReg) (sym : Byte)
  /-- `TR.ENC sym` (42_tree.md R195) -/
  | trEnc (sym : Byte)
  /-- `TR.SER` (43_serdes.md R211) -/
  | trSer
  /-- `TR.DES` (43_serdes.md R213) -/
  | trDes
  /-- `ENCODE` (44_codec.md R231) -/
  | codecEncode
  /-- `DECODE` (44_codec.md R240) -/
  | codecDecode
  /-- `DEC.START` (44_codec.md R242) -/
  | decStart
  /-- `DEC.STEP` (44_codec.md R243) -/
  | decStep
  deriving DecidableEq, Repr

end Sys2Proof
end

