-- ==== Sys2Proof/Decode.lean ====
section
/-! DEFINITION. The command word: its fields (30_encoding.md R100), the formats (R102), the opcode map (R103),
the decoder, which refuses by name (R106), and after it the encoder. -/

namespace Sys2Proof

/-- The fields of a command word, most significant first (30_encoding.md R100). -/
structure Fields where
  imm : BitVec 32
  z3  : BitVec 8
  sym : BitVec 8
  z2  : BitVec 2
  rs  : BitVec 2
  z1  : BitVec 2
  rd  : BitVec 2
  val : BitVec 1
  op  : BitVec 7
  deriving DecidableEq, Repr

/-- Takes a word apart at the bit positions of 30_encoding.md R100. -/
def splitWord (w : CommandWord) : Fields where
  imm := w.extractLsb' 32 32
  z3  := w.extractLsb' 24 8
  sym := w.extractLsb' 16 8
  z2  := w.extractLsb' 14 2
  rs  := w.extractLsb' 12 2
  z1  := w.extractLsb' 10 2
  rd  := w.extractLsb' 8 2
  val := w.extractLsb' 7 1
  op  := w.extractLsb' 0 7

/-- Joins the fields, bit 63 first (30_encoding.md R100). -/
def joinWord (f : Fields) : CommandWord :=
  f.imm ++ f.z3 ++ f.sym ++ f.z2 ++ f.rs ++ f.z1 ++ f.rd ++ f.val ++ f.op

/-- The formats of 30_encoding.md R102. -/
inductive Format where
  | Z | V | P | VP | S | SP | D | DV | R | RP | DRV | DS
  deriving DecidableEq, Repr

/-- Whether the format uses `imm` (30_encoding.md R102). -/
def Format.usesImm : Format → Bool
  | .P | .VP | .SP | .RP => true
  | .Z | .V | .S | .D | .DV | .R | .DRV | .DS => false

/-- Whether the format uses `sym` (30_encoding.md R102). -/
def Format.usesSym : Format → Bool
  | .S | .SP | .DS => true
  | .Z | .V | .P | .VP | .D | .DV | .R | .RP | .DRV => false

/-- Whether the format uses `rs` (30_encoding.md R102). -/
def Format.usesRs : Format → Bool
  | .R | .RP | .DRV => true
  | .Z | .V | .P | .VP | .S | .SP | .D | .DV | .DS => false

/-- Whether the format uses `rd` (30_encoding.md R102). -/
def Format.usesRd : Format → Bool
  | .D | .DV | .DRV | .DS => true
  | .Z | .V | .P | .VP | .S | .SP | .R | .RP => false

/-- Whether the format uses `val` (30_encoding.md R102). -/
def Format.usesVal : Format → Bool
  | .V | .VP | .DV | .DRV => true
  | .Z | .P | .S | .SP | .D | .R | .RP | .DS => false

/-- The format column of 30_encoding.md R103. -/
def formatOf : Instr → Format
  | .reset | .ibClr | .obClr | .bbNew | .bbRdn | .bbMore | .bbFin | .bbLoad | .bbOut => .Z
  | .trCount | .trBuild | .trSer | .trDes | .codecEncode | .codecDecode | .decStart | .decStep => .Z
  | .csrr _ | .ibPut _ | .fqGet _ | .trEnc _ => .S
  | .ibSeek _ | .obGet _ | .bbRd _ => .P
  | .fqSet _ _ => .SP
  | .bbWr _ _ => .VP
  | .bbWrn _ => .V
  | .vcNew _ => .D
  | .vcApp _ _ => .DV
  | .vcBit _ _ => .RP
  | .vcExt _ _ _ => .DRV
  | .vcWr _ => .R
  | .trFind _ _ => .DS

/-- The command an opcode stands for, with the operands its format names; none for an opcode that is not
in the map (30_encoding.md R103). -/
def commandOf (f : Fields) : Option Instr :=
  match f.op.toNat with
  | 0x01 => some .reset
  | 0x02 => some (.csrr f.sym)
  | 0x03 => some .ibClr
  | 0x04 => some (.ibPut f.sym)
  | 0x05 => some (.ibSeek f.imm)
  | 0x06 => some .obClr
  | 0x07 => some (.obGet f.imm)
  | 0x08 => some (.fqSet f.sym f.imm)
  | 0x09 => some (.fqGet f.sym)
  | 0x10 => some .bbNew
  | 0x11 => some (.bbWr (f.val == 1#1) f.imm)
  | 0x12 => some (.bbWrn (f.val == 1#1))
  | 0x13 => some (.bbRd f.imm)
  | 0x14 => some .bbRdn
  | 0x15 => some .bbMore
  | 0x16 => some .bbFin
  | 0x17 => some .bbLoad
  | 0x18 => some .bbOut
  | 0x20 => some (.vcNew f.rd.toFin)
  | 0x21 => some (.vcApp f.rd.toFin (f.val == 1#1))
  | 0x22 => some (.vcBit f.rs.toFin f.imm)
  | 0x23 => some (.vcExt f.rd.toFin f.rs.toFin (f.val == 1#1))
  | 0x24 => some (.vcWr f.rs.toFin)
  | 0x30 => some .trCount
  | 0x31 => some .trBuild
  | 0x32 => some (.trFind f.rd.toFin f.sym)
  | 0x33 => some (.trEnc f.sym)
  | 0x34 => some .trSer
  | 0x35 => some .trDes
  | 0x40 => some .codecEncode
  | 0x41 => some .codecDecode
  | 0x42 => some .decStart
  | 0x43 => some .decStep
  | _ => none

/-- Why a word is illegal: the three cases of 30_encoding.md R106. -/
inductive IllegalWord where
  /-- (a) "its `op` field is not one of the 33 opcodes" -/
  | unknownOpcode
  /-- (b) "any bit of `z1`, `z2`, `z3` is 1" -/
  | reservedBits
  /-- (c) "any bit of an operand field the command's format does not use is 1" -/
  | unusedOperand
  deriving DecidableEq, Repr

/-- What the decoder makes of a word: "every 64-bit word is either one of the 33 commands or illegal"
(30_encoding.md R106). -/
inductive Decoded where
  | command (i : Instr)
  | illegal (why : IllegalWord)
  deriving DecidableEq, Repr

/-- The three `z` fields are zero (30_encoding.md R102). -/
def reservedZero (f : Fields) : Bool :=
  f.z1 == 0#2 && f.z2 == 0#2 && f.z3 == 0#8

/-- Every operand field the format does not use is zero (30_encoding.md R102). -/
def unusedZero (k : Format) (f : Fields) : Bool :=
  (k.usesImm || f.imm == 0#32) && (k.usesSym || f.sym == 0#8) && (k.usesRs || f.rs == 0#2) &&
  (k.usesRd || f.rd == 0#2) && (k.usesVal || f.val == 0#1)

/-- The decoder, total on the 64-bit words (30_encoding.md R102, R103, R105, R106). -/
def decode (w : CommandWord) : Decoded :=
  let f := splitWord w
  match commandOf f with
  | none => .illegal .unknownOpcode
  | some i =>
    if !reservedZero f then .illegal .reservedBits
    else if !unusedZero (formatOf i) f then .illegal .unusedOperand
    else .command i

/-- The opcode column of 30_encoding.md R103. -/
def opcodeOf : Instr → BitVec 7
  | .reset => 0x01 | .csrr _ => 0x02 | .ibClr => 0x03 | .ibPut _ => 0x04 | .ibSeek _ => 0x05
  | .obClr => 0x06 | .obGet _ => 0x07 | .fqSet _ _ => 0x08 | .fqGet _ => 0x09
  | .bbNew => 0x10 | .bbWr _ _ => 0x11 | .bbWrn _ => 0x12 | .bbRd _ => 0x13 | .bbRdn => 0x14
  | .bbMore => 0x15 | .bbFin => 0x16 | .bbLoad => 0x17 | .bbOut => 0x18
  | .vcNew _ => 0x20 | .vcApp _ _ => 0x21 | .vcBit _ _ => 0x22 | .vcExt _ _ _ => 0x23 | .vcWr _ => 0x24
  | .trCount => 0x30 | .trBuild => 0x31 | .trFind _ _ => 0x32 | .trEnc _ => 0x33
  | .trSer => 0x34 | .trDes => 0x35
  | .codecEncode => 0x40 | .codecDecode => 0x41 | .decStart => 0x42 | .decStep => 0x43

/-- A word with an opcode and nothing else. -/
def blankFields (op : BitVec 7) : Fields where
  imm := 0
  z3  := 0
  sym := 0
  z2  := 0
  rs  := 0
  z1  := 0
  rd  := 0
  val := 0
  op  := op

/-- The fields of a command: its opcode, its operands in the fields its format uses, zero elsewhere
(30_encoding.md R102). -/
def fieldsOf (i : Instr) : Fields :=
  let blank := blankFields (opcodeOf i)
  match i with
  | .reset | .ibClr | .obClr | .bbNew | .bbRdn | .bbMore | .bbFin | .bbLoad | .bbOut => blank
  | .trCount | .trBuild | .trSer | .trDes | .codecEncode | .codecDecode | .decStart | .decStep => blank
  | .csrr s | .ibPut s | .fqGet s | .trEnc s => { blank with sym := s }
  | .ibSeek p | .obGet p | .bbRd p => { blank with imm := p }
  | .fqSet s v => { blank with sym := s, imm := v }
  | .bbWr v p => { blank with val := BitVec.ofBool v, imm := p }
  | .bbWrn v => { blank with val := BitVec.ofBool v }
  | .vcNew d => { blank with rd := BitVec.ofFin d }
  | .vcApp d v => { blank with rd := BitVec.ofFin d, val := BitVec.ofBool v }
  | .vcBit s x => { blank with rs := BitVec.ofFin s, imm := x }
  | .vcExt d s v => { blank with rd := BitVec.ofFin d, rs := BitVec.ofFin s, val := BitVec.ofBool v }
  | .vcWr s => { blank with rs := BitVec.ofFin s }
  | .trFind d s => { blank with rd := BitVec.ofFin d, sym := s }

/-- The encoder: the word of a command. -/
def encode (i : Instr) : CommandWord :=
  joinWord (fieldsOf i)

/-- One row of spec/opcode_table.json: "a word `w` selects the row when `w & mask = match`"
(30_encoding.md R102). -/
structure OpcodeRow where
  mnemonic : String
  fixedMask : CommandWord
  fixedBits : CommandWord
  deriving DecidableEq, Repr

/-- Whether a word selects a row (30_encoding.md R102). -/
def OpcodeRow.selects (r : OpcodeRow) (w : CommandWord) : Bool :=
  w &&& r.fixedMask == r.fixedBits

/-- The mnemonic column of 30_encoding.md R103. -/
def mnemonicOf : Instr → String
  | .reset => "RESET" | .csrr _ => "CSRR" | .ibClr => "IB.CLR" | .ibPut _ => "IB.PUT"
  | .ibSeek _ => "IB.SEEK" | .obClr => "OB.CLR" | .obGet _ => "OB.GET" | .fqSet _ _ => "FQ.SET"
  | .fqGet _ => "FQ.GET" | .bbNew => "BB.NEW" | .bbWr _ _ => "BB.WR" | .bbWrn _ => "BB.WRN"
  | .bbRd _ => "BB.RD" | .bbRdn => "BB.RDN" | .bbMore => "BB.MORE" | .bbFin => "BB.FIN"
  | .bbLoad => "BB.LOAD" | .bbOut => "BB.OUT" | .vcNew _ => "VC.NEW" | .vcApp _ _ => "VC.APP"
  | .vcBit _ _ => "VC.BIT" | .vcExt _ _ _ => "VC.EXT" | .vcWr _ => "VC.WR" | .trCount => "TR.COUNT"
  | .trBuild => "TR.BUILD" | .trFind _ _ => "TR.FIND" | .trEnc _ => "TR.ENC" | .trSer => "TR.SER"
  | .trDes => "TR.DES" | .codecEncode => "ENCODE" | .codecDecode => "DECODE"
  | .decStart => "DEC.START" | .decStep => "DEC.STEP"

/-- The rows of spec/opcode_table.json, System family, mask and match as the table has them. -/
def systemRows : List OpcodeRow :=
  [⟨"RESET", 0xFFFFFFFFFFFFFFFF, 0x0000000000000001⟩,
   ⟨"CSRR", 0xFFFFFFFFFF00FFFF, 0x0000000000000002⟩,
   ⟨"IB.CLR", 0xFFFFFFFFFFFFFFFF, 0x0000000000000003⟩,
   ⟨"IB.PUT", 0xFFFFFFFFFF00FFFF, 0x0000000000000004⟩,
   ⟨"IB.SEEK", 0x00000000FFFFFFFF, 0x0000000000000005⟩,
   ⟨"OB.CLR", 0xFFFFFFFFFFFFFFFF, 0x0000000000000006⟩,
   ⟨"OB.GET", 0x00000000FFFFFFFF, 0x0000000000000007⟩,
   ⟨"FQ.SET", 0x00000000FF00FFFF, 0x0000000000000008⟩,
   ⟨"FQ.GET", 0xFFFFFFFFFF00FFFF, 0x0000000000000009⟩]

/-- The rows of spec/opcode_table.json, BB family, mask and match as the table has them. -/
def bbRows : List OpcodeRow :=
  [⟨"BB.NEW", 0xFFFFFFFFFFFFFFFF, 0x0000000000000010⟩,
   ⟨"BB.WR", 0x00000000FFFFFF7F, 0x0000000000000011⟩,
   ⟨"BB.WRN", 0xFFFFFFFFFFFFFF7F, 0x0000000000000012⟩,
   ⟨"BB.RD", 0x00000000FFFFFFFF, 0x0000000000000013⟩,
   ⟨"BB.RDN", 0xFFFFFFFFFFFFFFFF, 0x0000000000000014⟩,
   ⟨"BB.MORE", 0xFFFFFFFFFFFFFFFF, 0x0000000000000015⟩,
   ⟨"BB.FIN", 0xFFFFFFFFFFFFFFFF, 0x0000000000000016⟩,
   ⟨"BB.LOAD", 0xFFFFFFFFFFFFFFFF, 0x0000000000000017⟩,
   ⟨"BB.OUT", 0xFFFFFFFFFFFFFFFF, 0x0000000000000018⟩]

/-- The rows of spec/opcode_table.json, VC family, mask and match as the table has them. -/
def vcRows : List OpcodeRow :=
  [⟨"VC.NEW", 0xFFFFFFFFFFFFFCFF, 0x0000000000000020⟩,
   ⟨"VC.APP", 0xFFFFFFFFFFFFFC7F, 0x0000000000000021⟩,
   ⟨"VC.BIT", 0x00000000FFFFCFFF, 0x0000000000000022⟩,
   ⟨"VC.EXT", 0xFFFFFFFFFFFFCC7F, 0x0000000000000023⟩,
   ⟨"VC.WR", 0xFFFFFFFFFFFFCFFF, 0x0000000000000024⟩]

/-- The rows of spec/opcode_table.json, TR family, mask and match as the table has them. -/
def trRows : List OpcodeRow :=
  [⟨"TR.COUNT", 0xFFFFFFFFFFFFFFFF, 0x0000000000000030⟩,
   ⟨"TR.BUILD", 0xFFFFFFFFFFFFFFFF, 0x0000000000000031⟩,
   ⟨"TR.FIND", 0xFFFFFFFFFF00FCFF, 0x0000000000000032⟩,
   ⟨"TR.ENC", 0xFFFFFFFFFF00FFFF, 0x0000000000000033⟩,
   ⟨"TR.SER", 0xFFFFFFFFFFFFFFFF, 0x0000000000000034⟩,
   ⟨"TR.DES", 0xFFFFFFFFFFFFFFFF, 0x0000000000000035⟩]

/-- The rows of spec/opcode_table.json, CODEC family, mask and match as the table has them. -/
def codecRows : List OpcodeRow :=
  [⟨"ENCODE", 0xFFFFFFFFFFFFFFFF, 0x0000000000000040⟩,
   ⟨"DECODE", 0xFFFFFFFFFFFFFFFF, 0x0000000000000041⟩,
   ⟨"DEC.START", 0xFFFFFFFFFFFFFFFF, 0x0000000000000042⟩,
   ⟨"DEC.STEP", 0xFFFFFFFFFFFFFFFF, 0x0000000000000043⟩]

/-- The opcode table, 33 rows (30_encoding.md R103). -/
def opcodeTable : List OpcodeRow :=
  systemRows ++ bbRows ++ vcRows ++ trRows ++ codecRows

/-- The command the decoder reads from a word given as a number whose bit 0 is the word's bit 0
(30_encoding.md R100: "A command word is written as 16 hexadecimal digits, bit 63 first"). -/
def decodeTableWord (nbits w : Nat) : Option Instr :=
  match decode (BitVec.ofNat 64 (w % 2 ^ nbits)) with
  | .command i => some i
  | .illegal _ => none

end Sys2Proof
end

