-- ==== Sys2Proof/Config.lean ====
section
/-! DEFINITION. What the spec fixes for this hardware (the constants of 00_scope.md R6, R7, R8) and the
shape of what it leaves to an implementation (the five capacities of R8). -/

namespace Sys2Proof.Config

/-- The reserved byte values, as configuration fields (00_scope.md R7: "a model should take the three as
configuration fields whose values for this hardware are 0, 1 and 4"). -/
structure ReservedBytes where
  /-- `NULL_BYTE`: the absent-node marker of the serialized tree. -/
  nullByte : Byte
  /-- `INTERNAL_BYTE`: the symbol field of every internal node the builder makes. -/
  internalByte : Byte
  /-- `EOS_BYTE`: the end-of-stream sentinel symbol. -/
  eosByte : Byte
  deriving DecidableEq, Repr

/-- The values of the three fields for this hardware, in the one place that holds them (00_scope.md R7;
10_state.md R38 hardwires them). -/
abbrev reserved : ReservedBytes where
  nullByte := 0#8
  internalByte := 1#8
  eosByte := 4#8

/-- `NULL_BYTE` of this hardware (00_scope.md R7). -/
abbrev nullByte : Byte := reserved.nullByte

/-- `INTERNAL_BYTE` of this hardware (00_scope.md R7). -/
abbrev internalByte : Byte := reserved.internalByte

/-- `EOS_BYTE` of this hardware (00_scope.md R7). -/
abbrev eosByte : Byte := reserved.eosByte

/-- `CODE_MAX` (00_scope.md R6): the longest code, in bits. -/
abbrev codeMax : Nat := 32

/-- `BB_INIT_SIZE` (00_scope.md R8): the allocated size of a new buffer. -/
abbrev bbInitSize : Nat := 0

/-- `2^POS_W - 1` (00_scope.md R8, R14 (a)): the last bit position, from which the cursor may not advance. -/
abbrev lastPosition : Nat := 4294967295

/-- The five capacities 00_scope.md R8 leaves OPEN: "named parameters the model takes as arguments".
They belong to one implementation of the block and no command changes them (log entry 1). -/
structure Capacities where
  /-- `BB_MAX`: bytes of bit-buffer storage. -/
  bbMax : Nat
  /-- `IBUF_MAX`: bytes of input buffer. -/
  ibufMax : Nat
  /-- `OBUF_MAX`: bytes of output buffer. -/
  obufMax : Nat
  /-- `NODE_MAX`: present nodes of a stored tree. -/
  nodeMax : Nat
  /-- `DEPTH_MAX`: edges from the root to the deepest present node of a stored tree. -/
  depthMax : Nat
  deriving DecidableEq, Repr

/-- The ranges 00_scope.md R8 gives the capacities. -/
structure Capacities.Allowed (c : Capacities) : Prop where
  bbMax : c.bbMax ≤ 2 ^ 29
  ibufMax : c.ibufMax ≤ 2 ^ 32 - 3
  obufMax : c.obufMax ≤ 2 ^ 32 - 1
  nodeMax : 511 ≤ c.nodeMax
  depthMax : 255 ≤ c.depthMax

/-- DESIGN CHOICE (log entries 1 and 5): the widest capacities, which State.reset carries. The first three are
the upper ends of R8's ranges. R8 gives the last two no upper end; an input of at most `2^32 - 3` bytes, cut off inside
its tree or not, has fewer than `2^32 - 1` bytes that could each be a node, so here these two never refuse anything
(`doTrDes_widest` of Laws/Commands.lean) and a truncated tree is always `UnexpectedEndOfStream`
(43_serdes.md R213): this is R8's unbounded model. -/
def Capacities.widest : Capacities where
  bbMax := 536870912
  ibufMax := 4294967293
  obufMax := 4294967295
  nodeMax := 4294967295
  depthMax := 4294967295

end Sys2Proof.Config
end

