-- ==== Sys2Proof/Machine/State.lean ====
section
/-! DEFINITION. The state of the block as plain data (10_state.md), the reasons a step can stop, and the
state after reset (70_reset_and_hazards.md R330). -/

namespace Sys2Proof.Machine

/-- The status codes (60_exceptions.md R290). "Codes 8 to 255 are never produced", so the 8-bit `STATUS`
register (10_state.md R37) is one of these eight; `statusCode` of Flags.lean gives its number. -/
inductive Status where
  | ok
  | encodingOverflow
  | symbolNotFound
  | unexpectedEndOfStream
  | unexpectedNullChild
  | indexOutOfRange
  | illegalCommand
  | capacityExceeded
  deriving DecidableEq, Repr

/-- The states of the tree-walk state machine (10_state.md R35). -/
inductive DState where
  | idle
  | run
  | done
  | fail
  deriving DecidableEq, Repr

/-- A value of a code register (10_state.md R24): `bits` holds the code's bit at index `i` in `bits[i]`;
`len` is the code's length, 0 to `CODE_MAX`. -/
structure Code where
  bits : Word
  len  : Nat
  deriving DecidableEq, Repr

/-- A tree (00_scope.md R11): absent, or a node with its symbol, its count and its two children. -/
inductive HuffTree where
  | absent
  | node (sym : Byte) (count : Word) (left right : HuffTree)
  deriving DecidableEq, Repr

/-- The bytes of `BB.mem`, as pairs of an address and a byte in one canonical form: addresses strictly
rising and no byte equal to what an unlisted address reads as (`Memory.wf` of Ops.lean). -/
abbrev Memory := List Host.Cell

/-- The bit buffer (10_state.md R26, R27). -/
structure BitBuffer where
  /-- `BB.mem`: the bytes that are not zero. -/
  mem    : Memory
  /-- `BB.size`: the allocated size in bytes; a byte exists exactly when its index is below it. -/
  size   : Nat
  /-- `BB.cursor`: the auto-advancing bit index, `POS_W` = 32 bits. -/
  cursor : BitVec 32
  /-- `BB.hwmv`: whether any write has happened. -/
  hwmv   : Bool
  /-- `BB.hwm`: the furthest byte written, 0 when none was. -/
  hwm    : Nat
  deriving DecidableEq, Repr

/-- What the block gives back for one command (30_encoding.md R104). -/
structure Response where
  status : Status
  data   : Word
  deriving DecidableEq, Repr

/-- The state of the block, and after it the three fields the model adds: the capacities of the
implementation (log entry 1) and the two sides of the host's port (log entry 2). -/
structure State where
  /-- The bit buffer BB (10_state.md R26 to R28). -/
  bb        : BitBuffer
  /-- The code registers `c[0..3]` (10_state.md R24, R25). -/
  codes     : Vector Code 4
  /-- The frequency table `FREQ[0..255]` (10_state.md R29). -/
  freq      : Vector Word 256
  /-- The current tree `TREE` (10_state.md R30). -/
  tree      : HuffTree
  /-- `IBUF[0..ILEN)`; `ILEN` is its length (10_state.md R32). -/
  ibuf      : List Byte
  /-- `IPOS`, the input byte cursor (10_state.md R33). -/
  ipos      : Nat
  /-- `OBUF[0..OLEN)`; `OLEN` is its length (10_state.md R32). -/
  obuf      : List Byte
  /-- `DSTATE` (10_state.md R35). -/
  dstate    : DState
  /-- `WPATH`, the walk position: the path from the root, first edge first; `true` is the bit 1
  (10_state.md R36). -/
  wpath     : List Bool
  /-- `STATUS` (10_state.md R37). -/
  status    : Status
  /-- The model's own field: the capacities of 00_scope.md R8; no step changes them. -/
  caps      : Config.Capacities
  /-- The model's own field: the commands the host has issued and the block has not run, oldest first. -/
  commands  : List CommandWord
  /-- The model's own field: the responses the block has given, oldest first (30_encoding.md R104). -/
  responses : List Response
  deriving DecidableEq, Repr

/-- No command of the block stops it: an illegal word is answered like any other (30_encoding.md R106)
and "every step is total" (70_reset_and_hazards.md R360). So there is no fault. -/
inductive Fault where
  deriving DecidableEq, Repr

/-- Why the model itself refuses a step. -/
inductive Refusal where
  /-- Raised by an arm of Dispatch.lean for a command that has no meaning yet; safe. No arm is left. -/
  | notModelled (mnemonic : String)
  deriving DecidableEq, Repr

/-- A fresh, empty buffer (40_bitbuffer.md R131; 10_state.md R26, R27). -/
def BitBuffer.fresh : BitBuffer where
  mem    := []
  size   := Config.bbInitSize
  cursor := 0
  hwmv   := false
  hwm    := 0

/-- The empty code (10_state.md R25: "Created empty"). -/
def Code.empty : Code where
  bits := 0
  len  := 0

/-- The block right after reset, with every value of 70_reset_and_hazards.md R330. The model's own fields:
the widest capacities (DESIGN CHOICE, log entry 1), no command issued and no response given (log entry 2). -/
def State.reset : State where
  bb        := BitBuffer.fresh
  codes     := Vector.replicate 4 Code.empty
  freq      := Vector.replicate 256 0
  tree      := .absent
  ibuf      := []
  ipos      := 0
  obuf      := []
  dstate    := .idle
  wpath     := []
  status    := .ok
  caps      := Config.Capacities.widest
  commands  := []
  responses := []

/-! The updates of the state. -/

/-- Replaces the bit buffer. -/
def State.setBb (s : State) (b : BitBuffer) : State := { s with bb := b }

/-- Writes one code register; "writing one register never changes another" (10_state.md R25). -/
def State.setCode (s : State) (r : CodeReg) (c : Code) : State := { s with codes := s.codes.set r.val c r.isLt }

/-- Replaces the frequency table. -/
def State.setFreq (s : State) (f : Vector Word 256) : State := { s with freq := f }

/-- Puts the walk into a state and at a position. -/
def State.setWalk (s : State) (d : DState) (p : List Bool) : State := { s with dstate := d, wpath := p }

/-- Replaces the tree and nothing else; `installTree` of Ops.lean also stops the walk. -/
def State.setTree (s : State) (t : HuffTree) : State := { s with tree := t }

/-- Replaces the input bytes. -/
def State.setIbuf (s : State) (b : List Byte) : State := { s with ibuf := b }

/-- Moves the input byte cursor. -/
def State.setIpos (s : State) (p : Nat) : State := { s with ipos := p }

/-- Replaces the output bytes. -/
def State.setObuf (s : State) (b : List Byte) : State := { s with obuf := b }

/-- Completes a command: `STATUS` takes the status, and the host gets the response (10_state.md R37;
30_encoding.md R104). -/
def State.answer (s : State) (r : Response) : State :=
  { s with status := r.status, responses := s.responses ++ [r] }

/-- Replaces the commands not yet run. -/
def State.setCommands (s : State) (c : List CommandWord) : State := { s with commands := c }

end Sys2Proof.Machine
end

