-- ==== Sys2Proof/Machine/Flags.lean ====
section
/-! DEFINITION. The block "has no condition codes and no flag a later command reads" (10_state.md R37): the one
status-like register is `STATUS`. Its codes, and those of `DSTATE`. -/

namespace Sys2Proof.Machine

/-- The number of a status (60_exceptions.md R290). -/
def statusCode : Status → Byte
  | .ok => 0
  | .encodingOverflow => 1
  | .symbolNotFound => 2
  | .unexpectedEndOfStream => 3
  | .unexpectedNullChild => 4
  | .indexOutOfRange => 5
  | .illegalCommand => 6
  | .capacityExceeded => 7

/-- The number of a state of the walk (10_state.md R35). -/
def dstateCode : DState → BitVec 2
  | .idle => 0
  | .run => 1
  | .done => 2
  | .fail => 3

/-- The response data that reports a state of the walk (44_codec.md R242, R243). -/
def dstateWord (d : DState) : Word := (dstateCode d).setWidth 32

/-- A bit as response data. -/
def bitWord (v : Bool) : Word := if v then 1 else 0

/-- A length or an index as response data (30_encoding.md R104: 32 bits). -/
def lengthWord (n : Nat) : Word := BitVec.ofNat 32 n

end Sys2Proof.Machine
end

