-- ==== Sys2Proof/Machine/Ops.lean ====
section
/-! DEFINITION. The named operations every command is made of: the bytes and bits of the buffer (20_memory.md R60
to R63, 40_bitbuffer.md R132), codes (41_vlc.md R160), trees (00_scope.md R11), and how a command ends
(00_scope.md R10, 60_exceptions.md R300). -/

namespace Sys2Proof.Machine

/-! ### The bytes of the buffer -/

/-- What a byte of the buffer that is not listed reads as: "new bytes exist and are zero" (40_bitbuffer.md R132). -/
def unlistedByte : Byte := 0#8

/-- The byte at an address. -/
def readByte : Memory → Nat → Byte
  | [], _ => unlistedByte
  | (b, x) :: rest, a => if a = b then x else readByte rest a

/-- Writes one byte and keeps the canonical form: a byte equal to what an unlisted address reads as is
not listed. -/
def writeByte : Memory → Nat → Byte → Memory
  | [], a, x => if x = unlistedByte then [] else [(a, x)]
  | (b, y) :: rest, a, x =>
    if a < b then
      if x = unlistedByte then (b, y) :: rest else (a, x) :: (b, y) :: rest
    else if a = b then
      if x = unlistedByte then rest else (a, x) :: rest
    else (b, y) :: writeByte rest a x

/-- Drops every byte at an index `n` or above (40_bitbuffer.md R139: they "cease to exist"). -/
def truncateBytes (m : Memory) (n : Nat) : Memory := m.filter fun c => c.1 < n

/-- The memory that holds the bytes at the indices from `i` on. -/
def bytesToMemory (i : Nat) : List Byte → Memory
  | [] => []
  | x :: rest => if x = unlistedByte then bytesToMemory (i + 1) rest else (i, x) :: bytesToMemory (i + 1) rest

/-- Whether a memory is in canonical form from the address `lo` on. -/
def Memory.wfFrom (lo : Nat) : Memory → Bool
  | [] => true
  | (a, x) :: rest => decide (lo ≤ a) && x != unlistedByte && Memory.wfFrom (a + 1) rest

/-- The canonical form of a memory: addresses strictly rising, no byte equal to what an unlisted address
reads as. -/
def Memory.wf (m : Memory) : Bool := Memory.wfFrom 0 m

/-- The existing bytes of a buffer, in ascending index (20_memory.md R64). -/
def bufferBytes (b : BitBuffer) : List Byte := (List.range b.size).map (readByte b.mem)

/-! ### The bits of the buffer -/

/-- A byte with one of its bits set or cleared (20_memory.md R61, R63). -/
def setBit (x : Byte) (i : Nat) (v : Bool) : Byte :=
  if v then x ||| (1#8 <<< i) else x &&& ~~~(1#8 <<< i)

/-- `BitRead(p)` (20_memory.md R62); `none` is the third value `OOR`. -/
def bitRead (b : BitBuffer) (p : Nat) : Option Bool :=
  if p / 8 ≥ b.size then none else some ((readByte b.mem (p / 8)).getLsbD (p % 8))

/-- The growth step `GROW` (00_scope.md R8). -/
def growStep (n : Nat) : Nat := 6 * n / 5 + 1

/-- The loop of `Grow(b)` (40_bitbuffer.md R132): from the size `n`, the step repeated until byte `b` fits.
Each round adds at least one byte while the size is below `bbMax`, so `b + 1` rounds suffice. -/
def growSize (bbMax b : Nat) : Nat → Nat → Nat
  | 0, n => n
  | fuel + 1, n => if b ≥ n then growSize bbMax b fuel (min (growStep n) bbMax) else n

/-- `Grow(b)` (40_bitbuffer.md R132): the new bytes are zero, the old ones keep their values. -/
def grow (bbMax b : Nat) (bb : BitBuffer) : BitBuffer :=
  if b ≥ bb.size then
    { bb with mem := truncateBytes bb.mem bb.size, size := growSize bbMax b (b + 1) bb.size }
  else bb

/-- The high-water mark after a write to byte `b` (20_memory.md R63). -/
def touch (b : Nat) (bb : BitBuffer) : BitBuffer :=
  if !bb.hwmv || b > bb.hwm then { bb with hwmv := true, hwm := b } else bb

/-- `BitWrite(p, v)` (20_memory.md R63): grow, set or clear the bit, update the high-water mark. -/
def bitWrite (bbMax : Nat) (bb : BitBuffer) (p : Nat) (v : Bool) : BitBuffer :=
  let g := grow bbMax (p / 8) bb
  touch (p / 8) { g with mem := writeByte g.mem (p / 8) (setBit (readByte g.mem (p / 8)) (p % 8) v) }

/-- A write at the cursor, which then moves on by one (40_bitbuffer.md R134). -/
def bitWriteNext (bbMax : Nat) (bb : BitBuffer) (v : Bool) : BitBuffer :=
  let w := bitWrite bbMax bb bb.cursor.toNat v
  { w with cursor := bb.cursor + 1 }

/-- The bits of a code written one after the other at the cursor (41_vlc.md R165). -/
def bitWriteAll (bbMax : Nat) (bb : BitBuffer) (bits : List Bool) : BitBuffer :=
  bits.foldl (bitWriteNext bbMax) bb

/-! ### Codes -/

/-- `Append(c, v)` (41_vlc.md R160): the new bit takes the next free index. -/
def appendBit (c : Code) (v : Bool) : Code where
  bits := c.bits ||| (BitVec.setWidth 32 (BitVec.ofBool v) <<< c.len)
  len  := c.len + 1

/-- The bits of a code, index 0 first (10_state.md R24). -/
def codeBits (c : Code) : List Bool := (List.range c.len).map c.bits.getLsbD

/-- The canonical form of a code (10_state.md R25): at most `CODE_MAX` bits, and zero at and above the length. -/
def codeWf (c : Code) : Bool :=
  decide (c.len ≤ Config.codeMax) && decide (c.bits >>> c.len = 0)

/-! ### Trees -/

/-- Whether there is no node here (00_scope.md R11). -/
def isAbsent : HuffTree → Bool
  | .absent => true
  | .node _ _ _ _ => false

/-- A leaf: a present node both of whose children are absent (00_scope.md R11, R12). -/
def isLeaf : HuffTree → Bool
  | .absent => false
  | .node _ _ l r => isAbsent l && isAbsent r

/-- The child on one side: left on 0, right on 1 (00_scope.md R11). -/
def childOf : HuffTree → Bool → HuffTree
  | .absent, _ => .absent
  | .node _ _ l r, v => if v then r else l

/-- The node at a path from the root (00_scope.md R11). -/
def nodeAt (t : HuffTree) : List Bool → HuffTree
  | [] => t
  | v :: rest => nodeAt (childOf t v) rest

/-- The number of present nodes (10_state.md R38, `TNODES`). -/
def nodeCount : HuffTree → Nat
  | .absent => 0
  | .node _ _ l r => 1 + nodeCount l + nodeCount r

/-- The number of levels of present nodes: 0 for an absent tree, else one more than the edges from the
root to the deepest present node. -/
def levelCount : HuffTree → Nat
  | .absent => 0
  | .node _ _ l r => 1 + max (levelCount l) (levelCount r)

/-- Whether a tree can be stored (10_state.md R31): at most `NODE_MAX` present nodes, none of them more
than `DEPTH_MAX` edges below the root. -/
def fitsStore (c : Config.Capacities) (t : HuffTree) : Bool :=
  decide (nodeCount t ≤ c.nodeMax) && decide (levelCount t ≤ c.depthMax + 1)

/-- Writes `TREE`, which also stops the walk (10_state.md R36). -/
def installTree (s : State) (t : HuffTree) : State := (s.setTree t).setWalk .idle []

/-! ### How a command ends -/

/-- The end of a command's pseudocode: the state it leaves and what the response will carry. -/
structure Finished where
  state  : State
  status : Status
  data   : Word

/-- `respond(d)` (00_scope.md R10). -/
def respond (d : Word) (s : State) : Finished := ⟨s, .ok, d⟩

/-- `raise E(d)` (60_exceptions.md R300): every state change made before it stays. This is all there is to
taking an exception on this block: "Nothing is saved and nothing is entered" (60_exceptions.md R301). -/
def raiseWith (e : Status) (d : Word) (s : State) : Finished := ⟨s, e, d⟩

/-- `raise E` (60_exceptions.md R300): data 0. -/
def raise (e : Status) (s : State) : Finished := raiseWith e 0 s

/-- "do" one command and go on with the next unless it ended in an error (30_encoding.md R109;
44_codec.md R231, R240). -/
def andThen (f : Finished) (next : State → Finished) : Finished :=
  match f.status with
  | .ok => next f.state
  | .encodingOverflow | .symbolNotFound | .unexpectedEndOfStream | .unexpectedNullChild
  | .indexOutOfRange | .illegalCommand | .capacityExceeded => f

/-- A command is complete: `STATUS` takes its status and the host gets its response (10_state.md R37,
30_encoding.md R104). There is no return from an error: "the block accepts the next command exactly as
after a successful one" (60_exceptions.md R302). -/
def complete (f : Finished) : Host.Outcome State Fault Refusal :=
  .next (f.state.answer ⟨f.status, f.data⟩)

/-- The answer to an illegal word (30_encoding.md R106). -/
def answerIllegal (s : State) : Host.Outcome State Fault Refusal := complete (raise .illegalCommand s)

/-- The next command the host has issued, and the state without it; none when no command is waiting
(10_state.md R20, R23). -/
def takeCommand (s : State) : Option (CommandWord × State) :=
  match s.commands with
  | [] => none
  | w :: rest => some (w, s.setCommands rest)

end Sys2Proof.Machine
end

