-- ==== Sys2Proof/Machine/Operands.lean ====
section
/-! DEFINITION. The operand forms: a code register, a frequency counter, a register of the `CSRR` map
(30_encoding.md R101; 10_state.md R24, R29, R38). -/

namespace Sys2Proof.Machine

/-- Reads code register `c[r]` (10_state.md R24). -/
def readCode (s : State) (r : CodeReg) : Code := s.codes[r]

/-- Reads the counter `FREQ[x]` (10_state.md R29). -/
def readFreq (f : Vector Word 256) (x : Byte) : Word := f[x.toNat]'x.isLt

/-- Writes the counter `FREQ[x]` (10_state.md R29). -/
def writeFreq (f : Vector Word 256) (x : Byte) (v : Word) : Vector Word 256 := f.set x.toNat v x.isLt

/-- The registers of the block (10_state.md R38), zero-extended to 32 bits; none for a reserved number. -/
def readCsr (s : State) (num : Byte) : Option Word :=
  match num.toNat with
  | 0x00 => some ((statusCode s.status).setWidth 32)
  | 0x01 => some (lengthWord s.bb.size)
  | 0x02 => some s.bb.cursor
  | 0x03 => some (if s.bb.hwmv then lengthWord s.bb.hwm else 0)
  | 0x04 => some (bitWord s.bb.hwmv)
  | 0x05 => some (lengthWord s.ibuf.length)
  | 0x06 => some (lengthWord s.ipos)
  | 0x07 => some (lengthWord s.obuf.length)
  | 0x08 => some (bitWord (!isAbsent s.tree))
  | 0x09 => some (lengthWord (nodeCount s.tree))
  | 0x0A => some (dstateWord s.dstate)
  | 0x0B => some (if s.dstate = .run then lengthWord s.wpath.length else 0)
  | 0x10 => some (lengthWord (readCode s 0).len)
  | 0x11 => some (readCode s 0).bits
  | 0x12 => some (lengthWord (readCode s 1).len)
  | 0x13 => some (readCode s 1).bits
  | 0x14 => some (lengthWord (readCode s 2).len)
  | 0x15 => some (readCode s 2).bits
  | 0x16 => some (lengthWord (readCode s 3).len)
  | 0x17 => some (readCode s 3).bits
  | 0x20 => some (Config.nullByte.setWidth 32)
  | 0x21 => some (Config.internalByte.setWidth 32)
  | 0x22 => some (Config.eosByte.setWidth 32)
  | 0x23 => some (lengthWord Config.codeMax)
  | _ => none

end Sys2Proof.Machine
end

