-- ==== Sys2Proof/Machine/BitBuffer.lean ====
section
/-! DEFINITION. The bit buffer commands (40_bitbuffer.md). A `do…` is the pseudocode of a command's rule up to its
end, so that the pipelines of 44_codec.md can run it as a step of theirs; the `exec…` completes it. -/

namespace Sys2Proof.Machine

/-- The pseudocode of `BB.NEW` (40_bitbuffer.md R131). -/
def doBbNew (s : State) : Finished := respond 0 (s.setBb BitBuffer.fresh)

/-- The pseudocode of `BB.WR val, pos` (40_bitbuffer.md R133). -/
def doBbWr (val : Bool) (pos : Word) (s : State) : Finished :=
  if pos.toNat / 8 ≥ s.caps.bbMax then raise .capacityExceeded s
  else respond 0 (s.setBb (bitWrite s.caps.bbMax s.bb pos.toNat val))

/-- The pseudocode of `BB.WRN val` (40_bitbuffer.md R134). -/
def doBbWrn (val : Bool) (s : State) : Finished :=
  if s.bb.cursor.toNat = Config.lastPosition then raise .capacityExceeded s
  else if s.bb.cursor.toNat / 8 ≥ s.caps.bbMax then raise .capacityExceeded s
  else respond 0 (s.setBb (bitWriteNext s.caps.bbMax s.bb val))

/-- The pseudocode of `BB.RD pos` (40_bitbuffer.md R135). -/
def doBbRd (pos : Word) (s : State) : Finished :=
  match bitRead s.bb pos.toNat with
  | none => raiseWith .indexOutOfRange 2 s
  | some v => respond (bitWord v) s

/-- The buffer with its cursor one further (40_bitbuffer.md R136). -/
def advanceCursor (b : BitBuffer) : BitBuffer := { b with cursor := b.cursor + 1 }

/-- The pseudocode of `BB.RDN` (40_bitbuffer.md R136): the cursor advances "also when r = OOR". -/
def doBbRdn (s : State) : Finished :=
  if s.bb.cursor.toNat = Config.lastPosition then raise .capacityExceeded s
  else
    match bitRead s.bb s.bb.cursor.toNat with
    | none => raiseWith .indexOutOfRange 2 (s.setBb (advanceCursor s.bb))
    | some v => respond (bitWord v) (s.setBb (advanceCursor s.bb))

/-- The pseudocode of `BB.MORE` (40_bitbuffer.md R137). -/
def doBbMore (s : State) : Finished :=
  respond (bitWord (decide (s.bb.cursor.toNat / 8 < s.bb.size))) s

/-- The size `BB.FIN` leaves (40_bitbuffer.md R139). -/
def finalSize (b : BitBuffer) : Nat := if b.hwmv then b.hwm + 1 else 0

/-- The pseudocode of `BB.FIN` (40_bitbuffer.md R139): bytes at and above the new size cease to exist. -/
def doBbFin (s : State) : Finished :=
  respond (lengthWord (finalSize s.bb))
    (s.setBb { s.bb with mem := truncateBytes s.bb.mem (finalSize s.bb), size := finalSize s.bb })

/-- The buffer `BB.LOAD` makes of a byte sequence (40_bitbuffer.md R140): "every loaded byte counts as
written". -/
def loadedBuffer (bytes : List Byte) : BitBuffer where
  mem    := bytesToMemory 0 bytes
  size   := bytes.length
  cursor := 0
  hwmv   := decide (bytes.length > 0)
  hwm    := bytes.length - 1

/-- The pseudocode of `BB.LOAD` (40_bitbuffer.md R140). -/
def doBbLoad (s : State) : Finished :=
  let rest := s.ibuf.drop s.ipos
  if rest.length > s.caps.bbMax then raise .capacityExceeded s
  else respond (lengthWord rest.length) (s.setBb (loadedBuffer rest))

/-- The pseudocode of `BB.OUT` (40_bitbuffer.md R141): it copies the allocated size, not the high-water mark. -/
def doBbOut (s : State) : Finished :=
  if s.obuf.length + s.bb.size > s.caps.obufMax then raise .capacityExceeded s
  else respond (lengthWord s.bb.size) (s.setObuf (s.obuf ++ bufferBytes s.bb))

/-- `BB.NEW` (40_bitbuffer.md R131). -/
def execBbNew (s : State) : Host.Outcome State Fault Refusal := complete (doBbNew s)

/-- `BB.WR val, pos` (40_bitbuffer.md R133). -/
def execBbWr (val : Bool) (pos : Word) (s : State) : Host.Outcome State Fault Refusal :=
  complete (doBbWr val pos s)

/-- `BB.WRN val` (40_bitbuffer.md R134). -/
def execBbWrn (val : Bool) (s : State) : Host.Outcome State Fault Refusal := complete (doBbWrn val s)

/-- `BB.RD pos` (40_bitbuffer.md R135). -/
def execBbRd (pos : Word) (s : State) : Host.Outcome State Fault Refusal := complete (doBbRd pos s)

/-- `BB.RDN` (40_bitbuffer.md R136). -/
def execBbRdn (s : State) : Host.Outcome State Fault Refusal := complete (doBbRdn s)

/-- `BB.MORE` (40_bitbuffer.md R137). -/
def execBbMore (s : State) : Host.Outcome State Fault Refusal := complete (doBbMore s)

/-- `BB.FIN` (40_bitbuffer.md R139). -/
def execBbFin (s : State) : Host.Outcome State Fault Refusal := complete (doBbFin s)

/-- `BB.LOAD` (40_bitbuffer.md R140). -/
def execBbLoad (s : State) : Host.Outcome State Fault Refusal := complete (doBbLoad s)

/-- `BB.OUT` (40_bitbuffer.md R141). -/
def execBbOut (s : State) : Host.Outcome State Fault Refusal := complete (doBbOut s)

end Sys2Proof.Machine
end

