-- ==== Sys2Proof/Machine/Serdes.lean ====
section
/-! DEFINITION. The tree serializer and deserializer (43_serdes.md; wire grammar 30_encoding.md R91). -/

namespace Sys2Proof.Machine

/-- `ser(t)` (43_serdes.md R210): preorder, `NULL_BYTE` for an absent subtree. -/
def serialize : HuffTree → List Byte
  | .absent => [Config.nullByte]
  | .node sym _ l r => sym :: (serialize l ++ serialize r)

/-- The pseudocode of `TR.SER` (43_serdes.md R211): it appends. -/
def doTrSer (s : State) : Finished :=
  let bytes := serialize s.tree
  if s.obuf.length + bytes.length > s.caps.obufMax then raise .capacityExceeded s
  else respond (lengthWord bytes.length) (s.setObuf (s.obuf ++ bytes))

/-- `des` (43_serdes.md R212): the tree at the front of a byte sequence and the bytes after it; none when
the bytes run out inside the tree. Every call reads a byte, so as many calls as there are bytes suffice. -/
def deserializeFrom : Nat → List Byte → Option (HuffTree × List Byte)
  | _, [] => none
  | 0, _ :: _ => none
  | fuel + 1, x :: rest =>
    if x = Config.nullByte then some (.absent, rest)
    else
      match deserializeFrom fuel rest with
      | none => none
      | some (l, rest1) =>
        match deserializeFrom fuel rest1 with
        | none => none
        | some (r, rest2) => some (.node x 0 l r, rest2)

/-- `des(b, 0)` (43_serdes.md R212). -/
def deserialize (b : List Byte) : Option (HuffTree × List Byte) := deserializeFrom b.length b

/-- Whether, reading a tree in preorder, a node beyond a capacity is met before the bytes run out
(43_serdes.md R213: "an implementation with finite capacities reports whichever it meets first in
preorder"). When a node is met is the model's reading, DEDUCED (log entry 5): when its symbol byte is read. `todo`
holds the depths of the subtrees still to be read, `n` the nodes read so far. -/
def meetsCapacity (c : Config.Capacities) : List Nat → Nat → List Byte → Bool
  | _, _, [] => false
  | [], _, _ :: _ => false
  | d :: todo, n, x :: rest =>
    if x = Config.nullByte then meetsCapacity c todo n rest
    else if n + 1 > c.nodeMax ∨ d > c.depthMax then true
    else meetsCapacity c ((d + 1) :: (d + 1) :: todo) (n + 1) rest

/-- The pseudocode of `TR.DES` (43_serdes.md R213). Which status a truncated tree beyond a finite capacity gets is the
model's reading, log entry 5. -/
def doTrDes (s : State) : Finished :=
  let bytes := s.ibuf.drop s.ipos
  match deserialize bytes with
  | none =>
    if meetsCapacity s.caps [0] 0 bytes then raise .capacityExceeded s
    else raise .unexpectedEndOfStream s
  | some (t, rest) =>
    if !fitsStore s.caps t then raise .capacityExceeded s
    else
      let k := bytes.length - rest.length
      respond (lengthWord k) ((installTree s t).setIpos (s.ipos + k))

/-- `TR.SER` (43_serdes.md R211). -/
def execTrSer (s : State) : Host.Outcome State Fault Refusal := complete (doTrSer s)

/-- `TR.DES` (43_serdes.md R213). -/
def execTrDes (s : State) : Host.Outcome State Fault Refusal := complete (doTrDes s)

end Sys2Proof.Machine
end

