-- ==== Sys2Proof/Machine/CodeRegister.lean ====
section
/-! DEFINITION. The code register commands (41_vlc.md). -/

namespace Sys2Proof.Machine

/-- `VC.NEW cD` (41_vlc.md R161). -/
def execVcNew (rd : CodeReg) (s : State) : Host.Outcome State Fault Refusal :=
  complete (respond 0 (s.setCode rd Code.empty))

/-- `VC.APP cD, val` (41_vlc.md R162). -/
def execVcApp (rd : CodeReg) (val : Bool) (s : State) : Host.Outcome State Fault Refusal :=
  let c := readCode s rd
  if c.len = Config.codeMax then complete (raise .encodingOverflow s)
  else complete (respond (lengthWord (c.len + 1)) (s.setCode rd (appendBit c val)))

/-- `VC.BIT cS, idx` (41_vlc.md R163). -/
def execVcBit (rs : CodeReg) (idx : Word) (s : State) : Host.Outcome State Fault Refusal :=
  let c := readCode s rs
  if idx.toNat ≥ c.len then complete (raise .indexOutOfRange s)
  else complete (respond (bitWord (c.bits.getLsbD idx.toNat)) s)

/-- `VC.EXT cD, cS, val` (41_vlc.md R164): the source is read whole before the destination is written. -/
def execVcExt (rd rs : CodeReg) (val : Bool) (s : State) : Host.Outcome State Fault Refusal :=
  let t := readCode s rs
  if t.len = Config.codeMax then complete (raise .encodingOverflow s)
  else complete (respond (lengthWord (t.len + 1)) (s.setCode rd (appendBit t val)))

/-- The pseudocode of `VC.WR` (41_vlc.md R165) for a code, also run by `TR.ENC` (42_tree.md R195): both
capacity tests come before the first bit, on true sums. -/
def doWriteCode (c : Code) (s : State) : Finished :=
  let n := c.len
  if n > 0 ∧ s.bb.cursor.toNat + n > Config.lastPosition then raise .capacityExceeded s
  else if n > 0 ∧ (s.bb.cursor.toNat + n - 1) / 8 ≥ s.caps.bbMax then raise .capacityExceeded s
  else respond (lengthWord n) (s.setBb (bitWriteAll s.caps.bbMax s.bb (codeBits c)))

/-- `VC.WR cS` (41_vlc.md R165). -/
def execVcWr (rs : CodeReg) (s : State) : Host.Outcome State Fault Refusal :=
  complete (doWriteCode (readCode s rs) s)

end Sys2Proof.Machine
end

