-- ==== Sys2Proof/Machine/Sorter.lean ====
section
/-! DEFINITION. Counting, the greedy merge sorter, symbol lookup and the encoding of one symbol (42_tree.md). -/

namespace Sys2Proof.Machine

/-! ### Counting -/

/-- One counter incremented (42_tree.md R180). -/
def countOne (f : Vector Word 256) (x : Byte) : Vector Word 256 := writeFreq f x (readFreq f x + 1)

/-- `count(t)` (42_tree.md R180): every byte once, and the sentinel once more in any case. -/
def countBytes (t : List Byte) : Vector Word 256 :=
  countOne (t.foldl countOne (Vector.replicate 256 0)) Config.eosByte

/-- `TR.COUNT` (42_tree.md R181). -/
def execTrCount (s : State) : Host.Outcome State Fault Refusal :=
  complete (respond (lengthWord s.ibuf.length) (s.setFreq (countBytes s.ibuf)))

/-! ### The greedy merge sorter -/

/-- An entry of the sorter's working list (42_tree.md R182). -/
structure SortEntry where
  count : Word
  seq   : Nat
  tree  : HuffTree
  deriving DecidableEq, Repr

/-- The order of the working list (42_tree.md R182): ascending by count, then by sequence number. -/
def entryBefore (a b : SortEntry) : Bool :=
  decide (a.count.toNat < b.count.toNat) || (a.count == b.count && decide (a.seq < b.seq))

/-- "inserts the new entry behind every entry whose key is smaller" (42_tree.md R185). -/
def insertEntry (e : SortEntry) : List SortEntry → List SortEntry
  | [] => [e]
  | x :: rest => if entryBefore x e then x :: insertEntry e rest else e :: x :: rest

/-- The working list sorted (42_tree.md R183). -/
def sortEntries (l : List SortEntry) : List SortEntry := l.foldr insertEntry []

/-- A leaf entry for each symbol with a nonzero counter (42_tree.md R182, R183). -/
def leafEntries (f : Vector Word 256) : List SortEntry :=
  f.toList.zipIdx.filterMap fun (n, i) =>
    if n = 0 then none else some ⟨n, i, .node (BitVec.ofNat 8 i) n .absent .absent⟩

/-- The merge of the two lowest entries into the `k`-th internal node: the lower one is the left child
(42_tree.md R182, R183). -/
def mergeEntries (k : Nat) (a b : SortEntry) : SortEntry where
  count := a.count + b.count
  seq   := 256 + k
  tree  := .node Config.internalByte (a.count + b.count) a.tree b.tree

/-- The merge loop (42_tree.md R183), from the `k`-th internal node on; each merge shortens the list by one. -/
def mergeLoop : Nat → Nat → List SortEntry → HuffTree
  | _, _, [] => .absent
  | _, _, [e] => e.tree
  | 0, _, e :: _ :: _ => e.tree
  | fuel + 1, k, a :: b :: rest => mergeLoop fuel (k + 1) (insertEntry (mergeEntries k a b) rest)

/-- `treeify(f)` (42_tree.md R183); absent when no counter is nonzero (R188). -/
def treeify (f : Vector Word 256) : HuffTree :=
  let l := sortEntries (leafEntries f)
  mergeLoop l.length 0 l

/-- The exact sum of the counters (42_tree.md R184). -/
def counterSum (f : Vector Word 256) : Nat := (f.toList.map BitVec.toNat).sum

/-- `TR.BUILD` (42_tree.md R184). -/
def execTrBuild (s : State) : Host.Outcome State Fault Refusal :=
  if counterSum s.freq ≥ 2 ^ 32 then complete (raise .capacityExceeded s)
  else complete (respond (lengthWord (nodeCount (treeify s.freq))) (installTree s (treeify s.freq)))

/-! ### Symbol lookup -/

/-- What the search gives: a code, `NotFound`, or the raise of `EncodingOverflow` (42_tree.md R189). -/
inductive Lookup where
  | found (c : Code)
  | notFound
  | overflow
  deriving DecidableEq, Repr

/-- The depth-first search `dfs(n, code)` (42_tree.md R189): left before right; a code is extended when, and
only when, the search is about to descend into a present child. -/
def searchFrom (x : Byte) : HuffTree → Code → Lookup
  | .absent, _ => .notFound
  | .node sym _ l r, code =>
    if isAbsent l ∧ isAbsent r then
      if sym = x then .found code else .notFound
    else
      let inLeft :=
        if isAbsent l then .notFound
        else if code.len = Config.codeMax then .overflow
        else searchFrom x l (appendBit code false)
      match inLeft with
      | .found c => .found c
      | .overflow => .overflow
      | .notFound =>
        if isAbsent r then .notFound
        else if code.len = Config.codeMax then .overflow
        else searchFrom x r (appendBit code true)

/-- `find(t, x)` (42_tree.md R189). -/
def findSymbol (t : HuffTree) (x : Byte) : Lookup := searchFrom x t Code.empty

/-- `TR.FIND cD, sym` (42_tree.md R191). -/
def execTrFind (rd : CodeReg) (sym : Byte) (s : State) : Host.Outcome State Fault Refusal :=
  match findSymbol s.tree sym with
  | .overflow => complete (raise .encodingOverflow s)
  | .notFound => complete (raise .symbolNotFound s)
  | .found c => complete (respond (lengthWord c.len) (s.setCode rd c))

/-- The pseudocode of `TR.ENC sym` (42_tree.md R195, R196): lookup first, then the write of `VC.WR`; the code
registers are neither read nor written. -/
def doTrEnc (sym : Byte) (s : State) : Finished :=
  match findSymbol s.tree sym with
  | .overflow => raise .encodingOverflow s
  | .notFound => raise .symbolNotFound s
  | .found c => doWriteCode c s

/-- `TR.ENC sym` (42_tree.md R195). -/
def execTrEnc (sym : Byte) (s : State) : Host.Outcome State Fault Refusal := complete (doTrEnc sym s)

end Sys2Proof.Machine
end

