-- ==== Sys2Proof/Machine/Codec.lean ====
section
/-! DEFINITION. The encode and decode pipelines and the tree-walk state machine (44_codec.md). -/

namespace Sys2Proof.Machine

/-! ### The tree-walk state machine -/

/-- The pseudocode of `DEC.START` (44_codec.md R242). -/
def doDecStart (s : State) : Finished :=
  let s0 := s.setObuf []
  match s.tree with
  | .absent => raise .unexpectedNullChild (s0.setWalk .fail [])
  | .node sym _ l r =>
    if isAbsent l ∧ isAbsent r then
      if sym = Config.eosByte then respond (dstateWord .done) (s0.setWalk .done [])
      else raise .unexpectedEndOfStream (s0.setWalk .fail [])
    else respond (dstateWord .run) (s0.setWalk .run [])

/-- `fail(E)` of `DEC.STEP` (44_codec.md R243). -/
def decFail (e : Status) (s : State) : Finished := raise e ((s.setObuf []).setWalk .fail [])

/-- The end of `DEC.STEP` once its bit is read: the walk moves to the child on that side
(44_codec.md R243). -/
def walkTo (v : Bool) (s : State) : Finished :=
  match childOf (nodeAt s.tree s.wpath) v with
  | .absent => decFail .unexpectedNullChild s
  | .node sym _ l r =>
    if isAbsent l ∧ isAbsent r then
      if sym = Config.eosByte then respond (dstateWord .done) (s.setWalk .done [])
      else if s.obuf.length = s.caps.obufMax then decFail .capacityExceeded s
      else respond (dstateWord .run) ((s.setObuf (s.obuf ++ [sym])).setWalk .run [])
    else respond (dstateWord .run) (s.setWalk .run (s.wpath ++ [v]))

/-- The pseudocode of `DEC.STEP` (44_codec.md R243): one bit, one edge. -/
def doDecStep (s : State) : Finished :=
  if s.dstate ≠ .run then raise .illegalCommand s
  else if s.bb.cursor.toNat = Config.lastPosition then decFail .capacityExceeded s
  else
    let s1 := s.setBb (advanceCursor s.bb)
    match bitRead s.bb s.bb.cursor.toNat with
    | none => decFail .unexpectedEndOfStream s1
    | some v => walkTo v s1

/-- `DEC.START` (44_codec.md R242). -/
def execDecStart (s : State) : Host.Outcome State Fault Refusal := complete (doDecStart s)

/-- `DEC.STEP` (44_codec.md R243). -/
def execDecStep (s : State) : Host.Outcome State Fault Refusal := complete (doDecStep s)

/-! ### ENCODE -/

/-- Step 3 of `ENCODE` (44_codec.md R231): `TR.ENC` of every byte in order, up to the first error. -/
def encodeSymbols : List Byte → State → Finished
  | [], s => respond 0 s
  | x :: rest, s => andThen (doTrEnc x s) (encodeSymbols rest)

/-- Steps 1 and 2 of `ENCODE` (44_codec.md R231): the private copy of the text, the table, the tree, and a
fresh buffer. -/
def encodeSetup (s : State) : State :=
  let f := countBytes (s.ibuf ++ [Config.eosByte])
  (doBbNew (installTree ((s.setObuf []).setFreq f) (treeify f))).state

/-- The pseudocode of `ENCODE` (44_codec.md R231). -/
def doEncode (s : State) : Finished :=
  let f := andThen (andThen (andThen (encodeSymbols (s.ibuf ++ [Config.eosByte]) (encodeSetup s))
    doBbFin) doTrSer) doBbOut
  match f.status with
  | .ok => respond (lengthWord f.state.obuf.length) f.state
  | .encodingOverflow | .symbolNotFound | .unexpectedEndOfStream | .unexpectedNullChild
  | .indexOutOfRange | .illegalCommand | .capacityExceeded => raise f.status (f.state.setObuf [])

/-- `ENCODE` (44_codec.md R231). -/
def execCodecEncode (s : State) : Host.Outcome State Fault Refusal := complete (doEncode s)

/-! ### DECODE -/

/-- The loop of `DECODE` (44_codec.md R240): `DEC.STEP` while `DSTATE = D_RUN`. The first argument bounds the
number of steps; "at most `8 * BB.size + 1` steps run". -/
def decodeLoop : Nat → State → Finished
  | 0, s => respond (lengthWord s.obuf.length) s
  | fuel + 1, s =>
    if s.dstate = .run then andThen (doDecStep s) (decodeLoop fuel)
    else respond (lengthWord s.obuf.length) s

/-- The pseudocode of `DECODE` (44_codec.md R240). -/
def doDecode (s : State) : Finished :=
  andThen (andThen (andThen (doTrDes ((s.setObuf []).setIpos 0)) doBbLoad) doDecStart)
    (fun t => decodeLoop (8 * t.bb.size + 1) t)

/-- `DECODE` (44_codec.md R240). -/
def execCodecDecode (s : State) : Host.Outcome State Fault Refusal := complete (doDecode s)

end Sys2Proof.Machine
end

