-- ==== Sys2Proof/Machine/System.lean ====
section
/-! DEFINITION. The system and host-interface commands (45_system.md). -/

namespace Sys2Proof.Machine

/-- `RESET` (45_system.md R261): every piece of the block's state to its reset value. The capacities and
the host's port are no state of the block and stay. -/
def execReset (s : State) : Host.Outcome State Fault Refusal :=
  complete (respond 0
    { State.reset with caps := s.caps, commands := s.commands, responses := s.responses })

/-- `CSRR num` (45_system.md R262): the register's value before the command completes. -/
def execCsrr (num : Byte) (s : State) : Host.Outcome State Fault Refusal :=
  match readCsr s num with
  | none => complete (raise .illegalCommand s)
  | some v => complete (respond v s)

/-- `IB.CLR` (45_system.md R263). -/
def execIbClr (s : State) : Host.Outcome State Fault Refusal :=
  complete (respond 0 ((s.setIbuf []).setIpos 0))

/-- `IB.PUT sym` (45_system.md R264). -/
def execIbPut (sym : Byte) (s : State) : Host.Outcome State Fault Refusal :=
  if s.ibuf.length = s.caps.ibufMax then complete (raise .capacityExceeded s)
  else complete (respond (lengthWord (s.ibuf.length + 1)) (s.setIbuf (s.ibuf ++ [sym])))

/-- `IB.SEEK pos` (45_system.md R265). -/
def execIbSeek (pos : Word) (s : State) : Host.Outcome State Fault Refusal :=
  if pos.toNat > s.ibuf.length then complete (raise .indexOutOfRange s)
  else complete (respond pos (s.setIpos pos.toNat))

/-- `OB.CLR` (45_system.md R266). -/
def execObClr (s : State) : Host.Outcome State Fault Refusal :=
  complete (respond 0 (s.setObuf []))

/-- `OB.GET idx` (45_system.md R267). -/
def execObGet (idx : Word) (s : State) : Host.Outcome State Fault Refusal :=
  match s.obuf[idx.toNat]? with
  | none => complete (raise .indexOutOfRange s)
  | some x => complete (respond (x.setWidth 32) s)

/-- `FQ.SET sym, value` (45_system.md R268). -/
def execFqSet (sym : Byte) (value : Word) (s : State) : Host.Outcome State Fault Refusal :=
  complete (respond 0 (s.setFreq (writeFreq s.freq sym value)))

/-- `FQ.GET sym` (45_system.md R269). -/
def execFqGet (sym : Byte) (s : State) : Host.Outcome State Fault Refusal :=
  complete (respond (readFreq s.freq sym) s)

end Sys2Proof.Machine
end

