-- ==== Sys2Proof/Machine/Dispatch.lean ====
section
/-! DEFINITION. One arm per command. -/

namespace Sys2Proof.Machine

def exec (i : Instr) (s : State) : Host.Outcome State Fault Refusal :=
  match i with
  | .reset => Sys2Proof.Machine.execReset s
  | .csrr num => Sys2Proof.Machine.execCsrr num s
  | .ibClr => Sys2Proof.Machine.execIbClr s
  | .ibPut sym => Sys2Proof.Machine.execIbPut sym s
  | .ibSeek pos => Sys2Proof.Machine.execIbSeek pos s
  | .obClr => Sys2Proof.Machine.execObClr s
  | .obGet idx => Sys2Proof.Machine.execObGet idx s
  | .fqSet sym value => Sys2Proof.Machine.execFqSet sym value s
  | .fqGet sym => Sys2Proof.Machine.execFqGet sym s
  | .bbNew => Sys2Proof.Machine.execBbNew s
  | .bbWr val pos => Sys2Proof.Machine.execBbWr val pos s
  | .bbWrn val => Sys2Proof.Machine.execBbWrn val s
  | .bbRd pos => Sys2Proof.Machine.execBbRd pos s
  | .bbRdn => Sys2Proof.Machine.execBbRdn s
  | .bbMore => Sys2Proof.Machine.execBbMore s
  | .bbFin => Sys2Proof.Machine.execBbFin s
  | .bbLoad => Sys2Proof.Machine.execBbLoad s
  | .bbOut => Sys2Proof.Machine.execBbOut s
  | .vcNew rd => Sys2Proof.Machine.execVcNew rd s
  | .vcApp rd val => Sys2Proof.Machine.execVcApp rd val s
  | .vcBit rs idx => Sys2Proof.Machine.execVcBit rs idx s
  | .vcExt rd rs val => Sys2Proof.Machine.execVcExt rd rs val s
  | .vcWr rs => Sys2Proof.Machine.execVcWr rs s
  | .trCount => Sys2Proof.Machine.execTrCount s
  | .trBuild => Sys2Proof.Machine.execTrBuild s
  | .trFind rd sym => Sys2Proof.Machine.execTrFind rd sym s
  | .trEnc sym => Sys2Proof.Machine.execTrEnc sym s
  | .trSer => Sys2Proof.Machine.execTrSer s
  | .trDes => Sys2Proof.Machine.execTrDes s
  | .codecEncode => Sys2Proof.Machine.execCodecEncode s
  | .codecDecode => Sys2Proof.Machine.execCodecDecode s
  | .decStart => Sys2Proof.Machine.execDecStart s
  | .decStep => Sys2Proof.Machine.execDecStep s

end Sys2Proof.Machine
end

