-- ==== Sys2Proof/Machine/Step.lean ====
section
/-! DEFINITION. One step: the block runs the next command the host has issued, to completion (10_state.md R20).
There is no program counter and no fetch (R23): commands come from the host alone (20_memory.md R69). -/

namespace Sys2Proof.Machine

/-- One command, "from its pre-state to its post-state with nothing observable in between" (00_scope.md R13);
an illegal word is answered (30_encoding.md R106); with no command waiting nothing happens (log entry 2). -/
def step (s : State) : Host.Outcome State Fault Refusal :=
  match takeCommand s with
  | none => .next s
  | some (w, t) =>
    match decode w with
    | .command i => exec i t
    | .illegal _ => answerIllegal t

/-- The state in which the host has issued one more command, to be run before those already waiting
(log entry 2). -/
def State.withFetchWord (s : State) (nbits w : Nat) : State :=
  s.setCommands (BitVec.ofNat 64 (w % 2 ^ nbits) :: s.commands)

end Sys2Proof.Machine
end

