-- ==== Sys2Proof/WellFormed.lean ====
section
/-! DEFINITION. Well-formed commands. The types of the operands already bound every field (30_encoding.md
R100, R101); the one operand value the spec calls reserved is a register number of `CSRR` outside the
register map (30_encoding.md R107). -/

namespace Sys2Proof

/-- The register numbers of 10_state.md R38; "Every other number is reserved". -/
def csrNumbers : List Byte :=
  [0x00, 0x01, 0x02, 0x03, 0x04, 0x05, 0x06, 0x07, 0x08, 0x09, 0x0A, 0x0B] ++
  [0x10, 0x11, 0x12, 0x13, 0x14, 0x15, 0x16, 0x17] ++ [0x20, 0x21, 0x22, 0x23]

/-- A command none of whose operands is a reserved value (30_encoding.md R107). A `CSRR` that is not
well-formed still decodes and still runs: it is answered `IllegalCommand` (45_system.md R262). -/
def Instr.wellFormed : Instr → Bool
  | .csrr num => csrNumbers.contains num
  | .reset | .ibClr | .ibPut _ | .ibSeek _ | .obClr | .obGet _ | .fqSet _ _ | .fqGet _ => true
  | .bbNew | .bbWr _ _ | .bbWrn _ | .bbRd _ | .bbRdn | .bbMore | .bbFin | .bbLoad | .bbOut => true
  | .vcNew _ | .vcApp _ _ | .vcBit _ _ | .vcExt _ _ _ | .vcWr _ => true
  | .trCount | .trBuild | .trFind _ _ | .trEnc _ | .trSer | .trDes => true
  | .codecEncode | .codecDecode | .decStart | .decStep => true

end Sys2Proof
end

