-- ==== Sys2Proof/Safety.lean ====
section
/-! DEFINITION. The invariant of the block, what counts as a run without an error, and the words the claims
use: runs of commands, the leaves and paths of a tree, the packing of bits, the writers of each unit. -/

namespace Sys2Proof.Machine

/-! ### The invariant -/

/-- The invariants of the bit buffer (10_state.md R26, R27, R28 (a) and (b)) and the canonical form of its bytes. -/
structure BufferInv (bbMax : Nat) (b : BitBuffer) : Prop where
  /-- `BB.mem` is in canonical form. -/
  canonical : Memory.wf b.mem = true
  /-- "`0 <= BB.size <= BB_MAX`" (R26). -/
  size_le : b.size ≤ bbMax
  /-- "if `BB.hwmv = 1` then `BB.hwm < BB.size`" (R28 (a)). -/
  hwm_lt : b.hwmv = true → b.hwm < b.size
  /-- "when `BB.hwmv = 0` ... `BB.hwm` reads 0" (R27). -/
  hwm_zero : b.hwmv = false → b.hwm = 0
  /-- Every byte past the high-water mark is 0 (R28 (b)), and nothing is listed past it. -/
  zero_above : ∀ a, finalSize b ≤ a → readByte b.mem a = 0

/-- The invariant of the block, "kept by every rule": 00_scope.md R8, 10_state.md R25, R28, R31, R32, R33, R36. -/
structure State.Inv (s : State) : Prop where
  /-- The capacities lie in the ranges of 00_scope.md R8. -/
  caps : s.caps.Allowed
  /-- 10_state.md R26 to R28. -/
  buffer : BufferInv s.caps.bbMax s.bb
  /-- Every code register is canonical (10_state.md R25). -/
  codes : ∀ r : CodeReg, codeWf (readCode s r) = true
  /-- "`0 <= ILEN <= IBUF_MAX`" (10_state.md R32). -/
  ilen : s.ibuf.length ≤ s.caps.ibufMax
  /-- "`0 <= IPOS <= ILEN`" (10_state.md R33). -/
  ipos : s.ipos ≤ s.ibuf.length
  /-- "`0 <= OLEN <= OBUF_MAX`" (10_state.md R32). -/
  olen : s.obuf.length ≤ s.caps.obufMax
  /-- The tree can be stored (10_state.md R31). -/
  tree : fitsStore s.caps s.tree = true
  /-- The tree came from at most 256 counters or from at most `2^32 - 3` bytes, so `TNODES` fits its 32 bits. -/
  nodes : nodeCount s.tree < 2 ^ 32
  /-- In `D_RUN` "the node at `WPATH` is present and is not a leaf" (10_state.md R36). -/
  walking : s.dstate = .run → isAbsent (nodeAt s.tree s.wpath) = false ∧ isLeaf (nodeAt s.tree s.wpath) = false
  /-- Outside `D_RUN` the walk position is the root. -/
  resting : s.dstate ≠ .run → s.wpath = []

/-- What a host (or "a model's safety predicate") that wants "no error ever happened" keeps from the
responses (60_exceptions.md R302). -/
def NoErrorYet (s : State) : Prop := ∀ r ∈ s.responses, r.status = .ok

/-! ### Runs -/

/-- The commands run one after the other, in issue order (20_memory.md R67). -/
def execAll : List Instr → State → Option State
  | [], s => some s
  | i :: rest, s =>
    match exec i s with
    | .next t => execAll rest t
    | .fault _ => none
    | .refused _ => none

/-- The commands run one after the other up to and including the first that does not answer `OK`: how a
pipeline runs its steps (44_codec.md R240). -/
def execUntilError : List Instr → State → Option State
  | [], s => some s
  | i :: rest, s =>
    match exec i s with
    | .next t => if t.status = .ok then execUntilError rest t else some t
    | .fault _ => none
    | .refused _ => none

/-- Two states that agree but for `STATUS` and the responses given. -/
def SameBlock (s t : State) : Prop :=
  s.bb = t.bb ∧ s.codes = t.codes ∧ s.freq = t.freq ∧ s.tree = t.tree ∧ s.ibuf = t.ibuf ∧ s.ipos = t.ipos ∧
  s.obuf = t.obuf ∧ s.dstate = t.dstate ∧ s.wpath = t.wpath ∧ s.caps = t.caps ∧ s.commands = t.commands

/-! ### Trees -/

/-- The leaves of a tree from left to right, each with its path from the root (00_scope.md R11, R12). -/
def leafPaths : HuffTree → List (List Bool × Byte)
  | .absent => []
  | .node sym _ l r =>
    if isAbsent l ∧ isAbsent r then [([], sym)]
    else (leafPaths l).map (fun p => (false :: p.1, p.2)) ++ (leafPaths r).map (fun p => (true :: p.1, p.2))

/-- The path to the leftmost leaf with a symbol (42_tree.md R190 (a)). -/
def codePath (t : HuffTree) (x : Byte) : Option (List Bool) :=
  ((leafPaths t).find? fun p => p.2 == x).map Prod.fst

/-- The leaves of a tree from left to right, each with its symbol and count. -/
def leafCounts : HuffTree → List (Byte × Word)
  | .absent => []
  | .node sym n l r => if isAbsent l ∧ isAbsent r then [(sym, n)] else leafCounts l ++ leafCounts r

/-- The symbols with a nonzero counter, each with its counter (42_tree.md R183). -/
def nonzeroCounts (f : Vector Word 256) : List (Byte × Word) :=
  ((List.range 256).map fun i => (BitVec.ofNat 8 i, readFreq f (BitVec.ofNat 8 i))).filter fun p => p.2 != 0

/-- The count of the root, 0 of an absent tree. -/
def rootCount : HuffTree → Nat
  | .absent => 0
  | .node _ n _ _ => n.toNat

/-- What 42_tree.md R183 and R186 say of every internal node the builder makes: both children present, the
symbol `INTERNAL_BYTE`, the count the exact sum of the children's, "`left.count <= right.count`". -/
def builtShape : HuffTree → Prop
  | .absent => False
  | .node sym n l r =>
    (isAbsent l = true ∧ isAbsent r = true) ∨
    (builtShape l ∧ builtShape r ∧ sym = Config.internalByte ∧ n.toNat = rootCount l + rootCount r ∧
      rootCount l ≤ rootCount r)

/-- No present node has the symbol `NULL_BYTE` (43_serdes.md R214, R215). -/
def noNullSymbol : HuffTree → Bool
  | .absent => true
  | .node sym _ l r => sym != Config.nullByte && noNullSymbol l && noNullSymbol r

/-- The tree with every count 0 (43_serdes.md R215). -/
def zeroCounts : HuffTree → HuffTree
  | .absent => .absent
  | .node sym _ l r => .node sym 0 (zeroCounts l) (zeroCounts r)

/-! ### The wire format -/

/-- Bit `k` of a byte sequence: "bit `(k mod 8)` of payload byte `k / 8`" (30_encoding.md R93). -/
def payloadBit (bytes : List Byte) (k : Nat) : Bool := (bytes.getD (k / 8) 0).getLsbD (k % 8)

/-- The bytes hold the bits, least significant bit first, with zero bits up to the next byte boundary and no
further byte (30_encoding.md R90, R93). -/
def Packs (bits : List Bool) (bytes : List Byte) : Prop :=
  bytes.length = (bits.length + 7) / 8 ∧ ∀ k, k < 8 * bytes.length → payloadBit bytes k = bits.getD k false

/-- The concatenated codes of a text: "each code written first bit first" (30_encoding.md R93). -/
def textBits (t : HuffTree) (text : List Byte) : List Bool :=
  text.flatMap fun x => (codePath t x).getD []

/-! ### Who writes what -/

/-- 10_state.md R25: "Code registers are written by `VC.NEW`, `VC.APP`, `VC.EXT`, `TR.FIND` and `RESET`". -/
def writersOfCodes : List String := ["VC.NEW", "VC.APP", "VC.EXT", "TR.FIND", "RESET"]

/-- 10_state.md R29: `FREQ` is "Written by `TR.COUNT`, `ENCODE`, `FQ.SET`, `RESET`". -/
def writersOfFreq : List String := ["TR.COUNT", "ENCODE", "FQ.SET", "RESET"]

/-- 10_state.md R30: `TREE` is "Written by `TR.BUILD`, `TR.DES`, `ENCODE`, `DECODE`, `RESET`". -/
def writersOfTree : List String := ["TR.BUILD", "TR.DES", "ENCODE", "DECODE", "RESET"]

/-- 44_codec.md R244: the commands that can change `DSTATE`. -/
def writersOfWalk : List String :=
  ["RESET", "TR.BUILD", "TR.DES", "ENCODE", "DECODE", "DEC.START", "DEC.STEP"]

/-- 10_state.md R34: "The host writes `IBUF` only by `IB.CLR` and `IB.PUT`"; `RESET` empties it. -/
def writersOfIbuf : List String := ["IB.CLR", "IB.PUT", "RESET"]

/-- 10_state.md R33: who moves `IPOS`; `RESET` too. -/
def writersOfIpos : List String := ["TR.DES", "IB.CLR", "DECODE", "IB.SEEK", "RESET"]

/-- 20_memory.md R60: the commands that reach `OBUF`, but for `OB.GET`, which reads it; `RESET` too. -/
def writersOfObuf : List String :=
  ["OB.CLR", "TR.SER", "BB.OUT", "DEC.START", "DEC.STEP", "ENCODE", "DECODE", "RESET"]

/-- 20_memory.md R60: the commands that write the buffer or its cursor; `RESET` too. -/
def writersOfBb : List String :=
  ["BB.NEW", "BB.WR", "BB.WRN", "BB.RDN", "BB.FIN", "BB.LOAD", "VC.WR", "TR.ENC", "ENCODE", "DECODE", "DEC.STEP",
   "RESET"]

/-- 60_exceptions.md R300: the commands that may have changed state before they fail. -/
def failsLate : List String := ["BB.RDN", "ENCODE", "DECODE", "DEC.START", "DEC.STEP"]

/-! ### The register map -/

/-- The table of 10_state.md R38: number, width, value. -/
def csrTable (s : State) : List (Byte × Nat × Nat) :=
  [ (0x00, 8, (statusCode s.status).toNat), (0x01, 30, s.bb.size), (0x02, 32, s.bb.cursor.toNat),
    (0x03, 29, s.bb.hwm), (0x04, 1, s.bb.hwmv.toNat), (0x05, 32, s.ibuf.length), (0x06, 32, s.ipos),
    (0x07, 32, s.obuf.length), (0x08, 1, (!isAbsent s.tree).toNat), (0x09, 32, nodeCount s.tree),
    (0x0A, 2, (dstateCode s.dstate).toNat), (0x0B, 32, if s.dstate = .run then s.wpath.length else 0) ] ++
  [ (0x10, 6, (readCode s 0).len), (0x11, 32, (readCode s 0).bits.toNat), (0x12, 6, (readCode s 1).len),
    (0x13, 32, (readCode s 1).bits.toNat), (0x14, 6, (readCode s 2).len), (0x15, 32, (readCode s 2).bits.toNat),
    (0x16, 6, (readCode s 3).len), (0x17, 32, (readCode s 3).bits.toNat) ] ++
  [ (0x20, 8, 0), (0x21, 8, 1), (0x22, 8, 4), (0x23, 6, 32) ]

/-! ### What a command answers and what it leaves alone -/

/-- The command ended with this status and this data: `STATUS` holds the status, and the host has one response
more (10_state.md R37; 30_encoding.md R104). -/
def Responded (s t : State) (e : Status) (d : Word) : Prop :=
  t.status = e ∧ t.responses = s.responses ++ [⟨e, d⟩]

/-- The units of the state that commands write, beside `STATUS` (10_state.md). -/
inductive BlockUnit where
  | bb | codes | freq | tree | walk | ibuf | ipos | obuf
  deriving DecidableEq, Repr

/-- Every unit but the listed ones is unchanged; so are the capacities and the commands still waiting. -/
structure KeepsAllBut (units : List BlockUnit) (s t : State) : Prop where
  bb       : .bb ∉ units → t.bb = s.bb
  codes    : .codes ∉ units → t.codes = s.codes
  freq     : .freq ∉ units → t.freq = s.freq
  tree     : .tree ∉ units → t.tree = s.tree
  walk     : .walk ∉ units → t.dstate = s.dstate ∧ t.wpath = s.wpath
  ibuf     : .ibuf ∉ units → t.ibuf = s.ibuf
  ipos     : .ipos ∉ units → t.ipos = s.ipos
  obuf     : .obuf ∉ units → t.obuf = s.obuf
  caps     : t.caps = s.caps
  commands : t.commands = s.commands

/-- The walk has ended in an error and no output is left (44_codec.md R242, R243: `DSTATE <- D_FAIL`,
`WPATH <- []`, `OLEN <- 0`). -/
def WalkFailed (t : State) : Prop := t.dstate = .fail ∧ t.wpath = [] ∧ t.obuf = []

/-- The format and opcode columns of 30_encoding.md R103. -/
def EncodedAs (i : Instr) (k : Format) (op : BitVec 7) : Prop := formatOf i = k ∧ opcodeOf i = op

/-- The three ways in which a word is illegal (30_encoding.md R106), on the bits of the word (R100). -/
def IllegalBits (w : CommandWord) : Prop :=
  (∀ i, opcodeOf i ≠ w.extractLsb' 0 7) ∨
  (w.extractLsb' 10 2 ≠ 0 ∨ w.extractLsb' 14 2 ≠ 0 ∨ w.extractLsb' 24 8 ≠ 0) ∨
  (∃ i, opcodeOf i = w.extractLsb' 0 7 ∧
    (((formatOf i).usesImm = false ∧ w.extractLsb' 32 32 ≠ 0) ∨ ((formatOf i).usesSym = false ∧ w.extractLsb' 16 8 ≠ 0) ∨
     ((formatOf i).usesRs = false ∧ w.extractLsb' 12 2 ≠ 0) ∨ ((formatOf i).usesRd = false ∧ w.extractLsb' 8 2 ≠ 0) ∨
     ((formatOf i).usesVal = false ∧ w.extractLsb' 7 1 ≠ 0)))

/-! ### Writing bits -/

/-- The loop of `Grow(b)` (40_bitbuffer.md R132): the size `n'` is the first of `n`, the step of `n`, the step of
that, ... that byte `b` fits in. -/
def GrownTo (bbMax b n n' : Nat) : Prop :=
  ∃ k, n' = (fun m => min (6 * m / 5 + 1) bbMax)^[k] n ∧ b < n' ∧
    ∀ j, j < k → (fun m => min (6 * m / 5 + 1) bbMax)^[j] n ≤ b

/-- What `BitWrite(p, v)` makes of a buffer (20_memory.md R63; 40_bitbuffer.md R132): it grows when the byte does not
exist, the bit takes the value, the other seven bits of that byte and every other byte keep theirs, new bytes are
zero, and the high-water mark is moved to the byte when that is the furthest. The cursor is not part of it. -/
structure BitWritten (bbMax p : Nat) (v : Bool) (b c : BitBuffer) : Prop where
  grown      : GrownTo bbMax (p / 8) b.size c.size
  written    : bitRead c p = some v
  otherBits  : ∀ q, q ≠ p → q / 8 < b.size → bitRead c q = bitRead b q
  newBits    : ∀ q, q ≠ p → b.size ≤ q / 8 → q / 8 < c.size → bitRead c q = some false
  otherBytes : ∀ a, a ≠ p / 8 → (bufferBytes c)[a]? =
    if a < b.size then (bufferBytes b)[a]? else if a < c.size then some 0 else none
  mark       : c.hwmv = true ∧ c.hwm = if b.hwmv = false ∨ p / 8 > b.hwm then p / 8 else b.hwm

/-- What writing bits one after the other at the cursor makes of a buffer (41_vlc.md R165): the first bit of the code
at the lowest position, everything else as a sequence of single writes leaves it. -/
structure BitsWritten (bbMax : Nat) (bits : List Bool) (b c : BitBuffer) : Prop where
  cursor    : c.cursor.toNat = b.cursor.toNat + bits.length
  written   : ∀ i, i < bits.length → bitRead c (b.cursor.toNat + i) = some (bits.getD i false)
  otherBits : ∀ q, (q < b.cursor.toNat ∨ b.cursor.toNat + bits.length ≤ q) → q / 8 < b.size → bitRead c q = bitRead b q
  newBits   : ∀ q, (q < b.cursor.toNat ∨ b.cursor.toNat + bits.length ≤ q) → b.size ≤ q / 8 → q / 8 < c.size →
    bitRead c q = some false
  nothing   : bits = [] → c = b
  grown     : bits ≠ [] → GrownTo bbMax ((b.cursor.toNat + bits.length - 1) / 8) b.size c.size
  mark      : bits ≠ [] → c.hwmv = true ∧ c.hwm =
    if b.hwmv = false ∨ (b.cursor.toNat + bits.length - 1) / 8 > b.hwm
    then (b.cursor.toNat + bits.length - 1) / 8 else b.hwm

/-- Whether `n` bits can be written at the cursor: neither test of 41_vlc.md R165 refuses them. -/
def BitsFit (s : State) (n : Nat) : Prop :=
  n = 0 ∨ (s.bb.cursor.toNat + n ≤ 2 ^ 32 - 1 ∧ (s.bb.cursor.toNat + n - 1) / 8 < s.caps.bbMax)

/-! ### The sorter and the search -/

/-- The merge loop of 42_tree.md R183 on a working list taken as a collection: whatever order the entries are written
in, the two lowest of them in the order of R182 are replaced by their merge, until one entry is left. -/
inductive GreedyBuild : Nat → List SortEntry → HuffTree → Prop where
  | last (k : Nat) (e : SortEntry) : GreedyBuild k [e] e.tree
  | merge (k : Nat) (l : List SortEntry) (a b : SortEntry) (rest : List SortEntry) (t : HuffTree) :
      l.Perm (a :: b :: rest) → entryBefore a b = true → (∀ x ∈ rest, entryBefore b x = true) →
      GreedyBuild (k + 1) (mergeEntries k a b :: rest) t → GreedyBuild k l t

/-- The leaf at which a search ends: the first one, left before right, that has the symbol or lies deeper than
`CODE_MAX` (42_tree.md R190 (a), (b)); none when the search ends without either. -/
def searchStop (t : HuffTree) (x : Byte) : Option (List Bool × Byte) :=
  (leafPaths t).find? fun q => decide (32 < q.1.length) || q.2 == x

end Sys2Proof.Machine
end

