-- ==== Sys2Proof/Certificates/Slice0/Obligations.lean ====
section
/-! DEFINITION. The statements for the provers. Each docstring names the rules of spec/ it formalises; a statement
that rests on a choice of the model says so and names the log entry. -/

open Sys2Proof Sys2Proof.Machine

/-! ### Encoding -/

/-- 30_encoding.md R100 to R103: every command, with every operand at every value its field can hold, is read back
from its own word. -/
def Obligations.EncodeThenDecodeIsIdentity : Prop :=
  ∀ i : Instr, decode (encode i) = .command i

/-- 30_encoding.md R102, R106: a word that is a command is the word of that command; no bit of it is ignored. -/
def Obligations.DecodeThenEncodeIsIdentity : Prop :=
  ∀ (w : CommandWord) (i : Instr), decode w = .command i → encode i = w

/-- 30_encoding.md R102, R103: a word decodes to a command of a mnemonic exactly when it selects that mnemonic's row
of the opcode table, and it never selects two rows. -/
def Obligations.DecoderAgreesWithOpcodeTable : Prop :=
  (∀ (w : CommandWord) (m : String),
    (∃ i, decode w = .command i ∧ mnemonicOf i = m) ↔ ∃ r ∈ opcodeTable, r.mnemonic = m ∧ r.selects w = true) ∧
  ∀ (w : CommandWord) (r q : OpcodeRow), r ∈ opcodeTable → q ∈ opcodeTable → r.selects w = true →
    q.selects w = true → r = q

/-- 30_encoding.md R106: a word that is illegal in one of the three ways changes nothing but `STATUS` and is answered
`IllegalCommand` with data 0; every other word is the command of its opcode, and runs as it. -/
def Obligations.IllegalWordsAreAnswered : Prop :=
  ∀ (s : State) (w : CommandWord) (rest : List CommandWord), s.commands = w :: rest →
    (IllegalBits w → ∃ t, step s = .next t ∧ Responded s t .illegalCommand 0 ∧
      KeepsAllBut [] (s.setCommands rest) t) ∧
    (¬ IllegalBits w → ∃ i, opcodeOf i = w.extractLsb' 0 7 ∧ decode w = .command i ∧
      step s = exec i (s.setCommands rest))

/-- The example words of 30_encoding.md R108 and of the command rules, one or more of every family. -/
def Obligations.SpecExampleWordsDecode : Prop :=
  decode 0x0000000900000091 = .command (.bbWr true 9) ∧
  decode 0x00000000000001A3 = .command (.vcExt 1 0 true) ∧
  decode 0x0000000000610232 = .command (.trFind 2 0x61) ∧
  decode 0x0000000000070002 = .command (.csrr 0x07) ∧
  decode 0x0000000500610008 = .command (.fqSet 0x61 5) ∧
  decode 0x0000000100000022 = .command (.vcBit 0 1) ∧
  decode 0x0000000000001024 = .command (.vcWr 1) ∧
  decode 0x0000000000000040 = .command .codecEncode ∧
  decode 0x0000000000000000 = .illegal .unknownOpcode

/-! ### Steps, reset, the invariant -/

/-- 10_state.md R20, R23: the next command the host has issued runs, and only that one. The host's port (the queue of
commands, the idle step, what withFetchWord places) is the model's choice, log entry 2. -/
def Obligations.StepRunsTheNextCommand : Prop :=
  (∀ (s : State) (w : CommandWord) (rest : List CommandWord) (i : Instr), s.commands = w :: rest →
    decode w = .command i → step s = exec i (s.setCommands rest)) ∧
  (∀ (s : State) (i : Instr), step (s.withFetchWord 64 (encode i).toNat) = exec i s) ∧
  (∀ s : State, s.commands = [] → step s = .next s)

/-- 70_reset_and_hazards.md R330: the reset value of every piece of state, and that the `RESET` command leaves the
same values, whatever the state was. -/
def Obligations.ResetLeavesTheSpecsValues : Prop :=
  ∀ (s t : State), exec .reset s = .next t → ∀ u, (u = State.reset ∨ u = t) →
    u.bb.size = 0 ∧ bufferBytes u.bb = [] ∧ u.bb.cursor = 0 ∧ u.bb.hwmv = false ∧ u.bb.hwm = 0 ∧
    (∀ r, (readCode u r).bits = 0 ∧ (readCode u r).len = 0) ∧ (∀ x, readFreq u.freq x = 0) ∧ u.tree = .absent ∧
    u.dstate = .idle ∧ u.wpath = [] ∧ u.ibuf = [] ∧ u.ipos = 0 ∧ u.obuf = [] ∧ u.status = .ok

/-- 45_system.md R261: `RESET` puts every piece of state to the value it has right after power-on and answers 0. -/
def Obligations.ResetCommandGivesTheResetState : Prop :=
  EncodedAs .reset .Z 0x01 ∧ encode .reset = 0x0000000000000001 ∧
  ∀ s : State, ∃ t, exec .reset s = .next t ∧ Responded s t .ok 0 ∧
    t.bb = State.reset.bb ∧ t.codes = State.reset.codes ∧ t.freq = State.reset.freq ∧ t.tree = State.reset.tree ∧
    t.dstate = State.reset.dstate ∧ t.wpath = State.reset.wpath ∧ t.ibuf = State.reset.ibuf ∧
    t.ipos = State.reset.ipos ∧ t.obuf = State.reset.obuf

/-- The reset state meets the invariant of the block. -/
def Obligations.ResetMeetsTheInvariant : Prop := State.reset.Inv

/-- 10_state.md R25, R28, R31 to R33, R36: the invariants "kept by every rule". From every state that meets them, one
step, legal word or not, leads to a state that meets them. -/
def Obligations.EveryStepKeepsTheInvariant : Prop :=
  ∀ s t : State, s.Inv → step s = .next t → t.Inv

/-- 30_encoding.md R104, 10_state.md R37: every command is answered with exactly one response, `STATUS` then holds its
status, and an error carries data 0 but for the out-of-range bit read, which carries 2. That the capacities and the
commands still waiting stay under every command, `RESET` included, is no rule of the spec: it is the model's choice and
inference, log entries 1, 2 and 6. -/
def Obligations.EveryCommandGetsOneResponse : Prop :=
  ∀ (i : Instr) (s : State), ∃ (t : State) (e : Status) (d : Word), exec i s = .next t ∧ Responded s t e d ∧
    t.caps = s.caps ∧ t.commands = s.commands ∧
    (e ≠ .ok → d = 0 ∨ (e = .indexOutOfRange ∧ d = 2 ∧ mnemonicOf i ∈ ["BB.RD", "BB.RDN"]))

/-- 10_state.md R37: no command reads `STATUS` but `CSRR` of register 0x00; whatever `STATUS` held, every other
command leads to the same next state. -/
def Obligations.StatusIsReadOnlyByCsrr : Prop :=
  ∀ (i : Instr) (s : State) (e : Status), i ≠ .csrr 0x00 → exec i { s with status := e } = exec i s

/-! ### System and host interface -/

/-- 45_system.md R262, 10_state.md R38: `CSRR` answers the register's value before the command, which fits the
register's width, and changes nothing but `STATUS`; a number that is not in the map is answered `IllegalCommand`. -/
def Obligations.CsrrReadsTheRegisterMap : Prop :=
  ∀ (s : State) (num : Byte), s.Inv → EncodedAs (.csrr num) .S 0x02 ∧
    (∀ width value, (num, width, value) ∈ csrTable s → value < 2 ^ width ∧
      ∃ t, exec (.csrr num) s = .next t ∧ Responded s t .ok (BitVec.ofNat 32 value) ∧ KeepsAllBut [] s t) ∧
    ((¬ ∃ width value, (num, width, value) ∈ csrTable s) →
      ∃ t, exec (.csrr num) s = .next t ∧ Responded s t .illegalCommand 0 ∧ KeepsAllBut [] s t)

/-- 30_encoding.md R107: a `CSRR` of a number that is not in the register map, and a `DEC.STEP` when `DSTATE` is not
`D_RUN`, are answered like an illegal word. -/
def Obligations.SequencingErrorsAreIllegalCommands : Prop :=
  ∀ s : State,
    (∀ num : Byte, num ∉ csrNumbers → (Instr.csrr num).wellFormed = false ∧
      ∃ t, exec (.csrr num) s = .next t ∧ Responded s t .illegalCommand 0 ∧ KeepsAllBut [] s t) ∧
    (s.dstate ≠ .run → ∃ t, exec .decStep s = .next t ∧ Responded s t .illegalCommand 0 ∧ KeepsAllBut [] s t)

/-- 45_system.md R263, R264: `IB.CLR` empties the input and resets its cursor; `IB.PUT` appends one byte of any value,
or refuses when the buffer is full. -/
def Obligations.InputBytesAreAppended : Prop :=
  EncodedAs .ibClr .Z 0x03 ∧ (∀ x, EncodedAs (.ibPut x) .S 0x04) ∧
  (∀ s : State, ∃ t, exec .ibClr s = .next t ∧ Responded s t .ok 0 ∧ KeepsAllBut [.ibuf, .ipos] s t ∧
    t.ibuf = [] ∧ t.ipos = 0) ∧
  ∀ (s : State) (x : Byte), s.Inv →
    (s.ibuf.length = s.caps.ibufMax →
      ∃ t, exec (.ibPut x) s = .next t ∧ Responded s t .capacityExceeded 0 ∧ KeepsAllBut [] s t) ∧
    (s.ibuf.length ≠ s.caps.ibufMax →
      ∃ t d, exec (.ibPut x) s = .next t ∧ Responded s t .ok d ∧ d.toNat = s.ibuf.length + 1 ∧
        KeepsAllBut [.ibuf] s t ∧ t.ibuf = s.ibuf ++ [x])

/-- 45_system.md R265: `IB.SEEK` moves the input cursor to any position up to the length. -/
def Obligations.IbSeekMovesTheInputCursor : Prop :=
  ∀ (s : State) (pos : Word), EncodedAs (.ibSeek pos) .P 0x05 ∧
    (pos.toNat > s.ibuf.length →
      ∃ t, exec (.ibSeek pos) s = .next t ∧ Responded s t .indexOutOfRange 0 ∧ KeepsAllBut [] s t) ∧
    (pos.toNat ≤ s.ibuf.length →
      ∃ t, exec (.ibSeek pos) s = .next t ∧ Responded s t .ok pos ∧ KeepsAllBut [.ipos] s t ∧ t.ipos = pos.toNat)

/-- 45_system.md R266, R267: `OB.CLR` empties the output; `OB.GET` reads one byte of it, or refuses an index that is
not below the length. -/
def Obligations.OutputBytesAreRead : Prop :=
  EncodedAs .obClr .Z 0x06 ∧ (∀ k, EncodedAs (.obGet k) .P 0x07) ∧
  (∀ s : State, ∃ t, exec .obClr s = .next t ∧ Responded s t .ok 0 ∧ KeepsAllBut [.obuf] s t ∧ t.obuf = []) ∧
  ∀ (s : State) (k : Word),
    (k.toNat ≥ s.obuf.length →
      ∃ t, exec (.obGet k) s = .next t ∧ Responded s t .indexOutOfRange 0 ∧ KeepsAllBut [] s t) ∧
    (∀ h : k.toNat < s.obuf.length,
      ∃ t d, exec (.obGet k) s = .next t ∧ Responded s t .ok d ∧ d.toNat = (s.obuf[k.toNat]'h).toNat ∧
        KeepsAllBut [] s t)

/-- 45_system.md R268, R269: `FQ.SET` writes one counter and no other; `FQ.GET` reads one. -/
def Obligations.CountersAreSetAndRead : Prop :=
  (∀ x v, EncodedAs (.fqSet x v) .SP 0x08) ∧ (∀ x, EncodedAs (.fqGet x) .S 0x09) ∧
  ∀ (s : State) (x : Byte),
    (∀ v : Word, ∃ t, exec (.fqSet x v) s = .next t ∧ Responded s t .ok 0 ∧ KeepsAllBut [.freq] s t ∧
      ∀ y, readFreq t.freq y = if y = x then v else readFreq s.freq y) ∧
    (∃ t, exec (.fqGet x) s = .next t ∧ Responded s t .ok (readFreq s.freq x) ∧ KeepsAllBut [] s t)

/-! ### The bit buffer -/

/-- 40_bitbuffer.md R131: `BB.NEW`. -/
def Obligations.BbNewMakesAnEmptyBuffer : Prop :=
  EncodedAs .bbNew .Z 0x10 ∧ encode .bbNew = 0x0000000000000010 ∧
  ∀ s : State, ∃ t, exec .bbNew s = .next t ∧ Responded s t .ok 0 ∧ KeepsAllBut [.bb] s t ∧
    t.bb.size = 0 ∧ bufferBytes t.bb = [] ∧ t.bb.cursor = 0 ∧ t.bb.hwmv = false ∧ t.bb.hwm = 0

/-- 40_bitbuffer.md R132: growth goes to the first size of the repeated step that the byte fits in, never beyond the
capacity; the existing bytes keep their values, the new ones are zero, the cursor and the mark stay; from size 0 the
sizes of successive steps are those the rule lists. -/
def Obligations.GrowthReachesTheByte : Prop :=
  (∀ (bbMax a : Nat) (b : BitBuffer), BufferInv bbMax b → a < bbMax →
    GrownTo bbMax a b.size (grow bbMax a b).size ∧ (grow bbMax a b).size ≤ bbMax ∧
    b.size ≤ (grow bbMax a b).size ∧ (a < b.size → grow bbMax a b = b) ∧
    (∀ k, (bufferBytes (grow bbMax a b))[k]? =
      if k < b.size then (bufferBytes b)[k]? else if k < (grow bbMax a b).size then some 0 else none) ∧
    (grow bbMax a b).cursor = b.cursor ∧ (grow bbMax a b).hwmv = b.hwmv ∧ (grow bbMax a b).hwm = b.hwm) ∧
  (List.range 25).map (fun k => growStep^[k + 1] 0) =
    [1, 2, 3, 4, 5, 7, 9, 11, 14, 17, 21, 26, 32, 39, 47, 57, 69, 83, 100, 121, 146, 176, 212, 255, 307]

/-- 40_bitbuffer.md R133, 20_memory.md R63: `BB.WR` writes the bit at the position, growing the buffer, and leaves the
cursor; beyond the capacity it changes nothing. -/
def Obligations.BbWrWritesTheBit : Prop :=
  ∀ (s : State) (v : Bool) (pos : Word), s.Inv → EncodedAs (.bbWr v pos) .VP 0x11 ∧
    (pos.toNat / 8 ≥ s.caps.bbMax →
      ∃ t, exec (.bbWr v pos) s = .next t ∧ Responded s t .capacityExceeded 0 ∧ KeepsAllBut [] s t) ∧
    (pos.toNat / 8 < s.caps.bbMax →
      ∃ t, exec (.bbWr v pos) s = .next t ∧ Responded s t .ok 0 ∧ KeepsAllBut [.bb] s t ∧
        BitWritten s.caps.bbMax pos.toNat v s.bb t.bb ∧ t.bb.cursor = s.bb.cursor)

/-- 40_bitbuffer.md R134: `BB.WRN` writes the bit at the cursor and moves the cursor on by one; at the last position,
or beyond the capacity, it changes nothing. -/
def Obligations.BbWrnWritesAtTheCursor : Prop :=
  ∀ (s : State) (v : Bool), s.Inv → EncodedAs (.bbWrn v) .V 0x12 ∧
    (s.bb.cursor.toNat = 2 ^ 32 - 1 ∨ s.bb.cursor.toNat / 8 ≥ s.caps.bbMax →
      ∃ t, exec (.bbWrn v) s = .next t ∧ Responded s t .capacityExceeded 0 ∧ KeepsAllBut [] s t) ∧
    (s.bb.cursor.toNat ≠ 2 ^ 32 - 1 → s.bb.cursor.toNat / 8 < s.caps.bbMax →
      ∃ t, exec (.bbWrn v) s = .next t ∧ Responded s t .ok 0 ∧ KeepsAllBut [.bb] s t ∧
        BitWritten s.caps.bbMax s.bb.cursor.toNat v s.bb t.bb ∧ t.bb.cursor.toNat = s.bb.cursor.toNat + 1)

/-- 40_bitbuffer.md R135, 20_memory.md R61, R62: `BB.RD` answers the bit of the byte, or `IndexOutOfRange` with data 2
when the byte does not exist; nothing changes, the cursor included. -/
def Obligations.BbRdReadsTheBit : Prop :=
  ∀ (s : State) (pos : Word), EncodedAs (.bbRd pos) .P 0x13 ∧
    ∃ t, exec (.bbRd pos) s = .next t ∧ KeepsAllBut [] s t ∧
      (pos.toNat / 8 ≥ s.bb.size → Responded s t .indexOutOfRange 2) ∧
      (∀ x, (bufferBytes s.bb)[pos.toNat / 8]? = some x →
        Responded s t .ok (if x.getLsbD (pos.toNat % 8) then 1 else 0)) ∧
      (pos.toNat / 8 < s.bb.size → t.status = .ok)

/-- 40_bitbuffer.md R136: `BB.RDN` reads at the cursor, which moves on by one also when the byte does not exist; at the
last position it changes nothing. -/
def Obligations.BbRdnReadsAtTheCursor : Prop :=
  EncodedAs .bbRdn .Z 0x14 ∧ encode .bbRdn = 0x0000000000000014 ∧
  ∀ s : State,
    (s.bb.cursor.toNat = 2 ^ 32 - 1 →
      ∃ t, exec .bbRdn s = .next t ∧ Responded s t .capacityExceeded 0 ∧ KeepsAllBut [] s t) ∧
    (s.bb.cursor.toNat ≠ 2 ^ 32 - 1 →
      ∃ t, exec .bbRdn s = .next t ∧ KeepsAllBut [.bb] s t ∧ t.bb.cursor.toNat = s.bb.cursor.toNat + 1 ∧
        t.bb.size = s.bb.size ∧ bufferBytes t.bb = bufferBytes s.bb ∧ t.bb.hwmv = s.bb.hwmv ∧ t.bb.hwm = s.bb.hwm ∧
        (s.bb.cursor.toNat / 8 ≥ s.bb.size → Responded s t .indexOutOfRange 2) ∧
        (∀ x, (bufferBytes s.bb)[s.bb.cursor.toNat / 8]? = some x →
          Responded s t .ok (if x.getLsbD (s.bb.cursor.toNat % 8) then 1 else 0)) ∧
        (s.bb.cursor.toNat / 8 < s.bb.size → t.status = .ok))

/-- 40_bitbuffer.md R137, R138: `BB.MORE` answers whether the cursor's byte exists, changing nothing; it answers 1
exactly when a `BB.RDN` issued instead would not report `IndexOutOfRange` (away from the last position), and exactly
when a read at the cursor gives a bit. -/
def Obligations.BbMoreTestsTheCursor : Prop :=
  EncodedAs .bbMore .Z 0x15 ∧ encode .bbMore = 0x0000000000000015 ∧
  ∀ s : State, ∃ t, exec .bbMore s = .next t ∧ KeepsAllBut [] s t ∧
    Responded s t .ok (if s.bb.cursor.toNat / 8 < s.bb.size then 1 else 0) ∧
    (Responded s t .ok 1 ↔ bitRead s.bb s.bb.cursor.toNat ≠ none) ∧
    (s.bb.cursor.toNat ≠ 2 ^ 32 - 1 →
      (Responded s t .ok 1 ↔ ∃ u, exec .bbRdn s = .next u ∧ u.status ≠ .indexOutOfRange))

/-- 40_bitbuffer.md R139: `BB.FIN` keeps the bytes up to the high-water mark and no other, never grows the buffer, and
changes nothing when issued again. -/
def Obligations.BbFinTrimsTheBuffer : Prop :=
  EncodedAs .bbFin .Z 0x16 ∧ encode .bbFin = 0x0000000000000016 ∧
  ∀ (s : State) (n : Nat), s.Inv → n = (if s.bb.hwmv then s.bb.hwm + 1 else 0) →
    ∃ t d, exec .bbFin s = .next t ∧ Responded s t .ok d ∧ d.toNat = n ∧ KeepsAllBut [.bb] s t ∧
      t.bb.size = n ∧ n ≤ s.bb.size ∧ bufferBytes t.bb = (bufferBytes s.bb).take n ∧
      t.bb.cursor = s.bb.cursor ∧ t.bb.hwmv = s.bb.hwmv ∧ t.bb.hwm = s.bb.hwm ∧
      ∃ u, exec .bbFin t = .next u ∧ u.bb = t.bb ∧ Responded t u .ok d

/-- 40_bitbuffer.md R140: `BB.LOAD` makes the buffer of the unread rest of the input; more bytes than the capacity
change nothing. -/
def Obligations.BbLoadTakesTheUnreadInput : Prop :=
  EncodedAs .bbLoad .Z 0x17 ∧ encode .bbLoad = 0x0000000000000017 ∧
  ∀ (s : State) (n : Nat), s.Inv → n = s.ibuf.length - s.ipos →
    (n > s.caps.bbMax →
      ∃ t, exec .bbLoad s = .next t ∧ Responded s t .capacityExceeded 0 ∧ KeepsAllBut [] s t) ∧
    (n ≤ s.caps.bbMax →
      ∃ t d, exec .bbLoad s = .next t ∧ Responded s t .ok d ∧ d.toNat = n ∧ KeepsAllBut [.bb] s t ∧
        t.bb.size = n ∧ bufferBytes t.bb = s.ibuf.drop s.ipos ∧ t.bb.cursor = 0 ∧
        t.bb.hwmv = decide (n > 0) ∧ t.bb.hwm = n - 1)

/-- 40_bitbuffer.md R141: `BB.OUT` appends the bytes of the allocated size to the output; when they do not fit it
changes nothing. -/
def Obligations.BbOutAppendsTheBytes : Prop :=
  EncodedAs .bbOut .Z 0x18 ∧ encode .bbOut = 0x0000000000000018 ∧
  ∀ s : State, s.Inv →
    (s.obuf.length + s.bb.size > s.caps.obufMax →
      ∃ t, exec .bbOut s = .next t ∧ Responded s t .capacityExceeded 0 ∧ KeepsAllBut [] s t) ∧
    (s.obuf.length + s.bb.size ≤ s.caps.obufMax →
      ∃ t d, exec .bbOut s = .next t ∧ Responded s t .ok d ∧ d.toNat = s.bb.size ∧ KeepsAllBut [.obuf] s t ∧
        t.obuf.length = s.obuf.length + s.bb.size ∧ (∀ k, k < s.obuf.length → t.obuf[k]? = s.obuf[k]?) ∧
        ∀ k, k < s.bb.size → t.obuf[s.obuf.length + k]? = (bufferBytes s.bb)[k]?)

/-- 20_memory.md R67: a bit written at a position is what the next read of it answers, and the write changes what no
other read answers, but that bytes it brought into being read 0. -/
def Obligations.WrittenBitsAreReadBack : Prop :=
  ∀ (s : State) (v : Bool) (p q : Word), s.Inv → p.toNat / 8 < s.caps.bbMax →
    ∃ t u r, exec (.bbWr v p) s = .next t ∧ exec (.bbRd q) t = .next u ∧ exec (.bbRd q) s = .next r ∧
      (q = p → Responded t u .ok (if v then 1 else 0)) ∧
      (q ≠ p → q.toNat / 8 < s.bb.size → u.responses.getLast? = r.responses.getLast?) ∧
      (q ≠ p → s.bb.size ≤ q.toNat / 8 → q.toNat / 8 < t.bb.size → Responded t u .ok 0)

/-! ### Code registers -/

/-- 41_vlc.md R161: `VC.NEW` empties one register and no other. -/
def Obligations.VcNewEmptiesTheRegister : Prop :=
  ∀ (s : State) (d : CodeReg), EncodedAs (.vcNew d) .D 0x20 ∧
    ∃ t, exec (.vcNew d) s = .next t ∧ Responded s t .ok 0 ∧ KeepsAllBut [.codes] s t ∧
      (readCode t d).bits = 0 ∧ (readCode t d).len = 0 ∧ ∀ q, q ≠ d → readCode t q = readCode s q

/-- 41_vlc.md R162, R160: `VC.APP` gives the new bit the next free index; a 33rd bit is refused and changes nothing. -/
def Obligations.VcAppAppendsOneBit : Prop :=
  ∀ (s : State) (d : CodeReg) (v : Bool), s.Inv → EncodedAs (.vcApp d v) .DV 0x21 ∧
    ((readCode s d).len = 32 →
      ∃ t, exec (.vcApp d v) s = .next t ∧ Responded s t .encodingOverflow 0 ∧ KeepsAllBut [] s t) ∧
    ((readCode s d).len ≠ 32 →
      ∃ t n, exec (.vcApp d v) s = .next t ∧ Responded s t .ok n ∧ n.toNat = (readCode s d).len + 1 ∧
        KeepsAllBut [.codes] s t ∧ (readCode t d).len = (readCode s d).len + 1 ∧
        (∀ k, (readCode t d).bits.getLsbD k = if k = (readCode s d).len then v else (readCode s d).bits.getLsbD k) ∧
        ∀ q, q ≠ d → readCode t q = readCode s q)

/-- 41_vlc.md R163: `VC.BIT` answers one bit of the code; an index that is not below the length is refused. -/
def Obligations.VcBitReadsOneBit : Prop :=
  ∀ (s : State) (r : CodeReg) (k : Word), EncodedAs (.vcBit r k) .RP 0x22 ∧
    (k.toNat ≥ (readCode s r).len →
      ∃ t, exec (.vcBit r k) s = .next t ∧ Responded s t .indexOutOfRange 0 ∧ KeepsAllBut [] s t) ∧
    (k.toNat < (readCode s r).len →
      ∃ t, exec (.vcBit r k) s = .next t ∧ KeepsAllBut [] s t ∧
        Responded s t .ok (if (readCode s r).bits.getLsbD k.toNat then 1 else 0))

/-- 41_vlc.md R164: `VC.EXT` puts the source and one bit more into the destination; the source, when it is another
register, is unchanged, and when it is the same the command equals `VC.APP`. -/
def Obligations.VcExtExtendsTheSource : Prop :=
  ∀ (s : State) (d r : CodeReg) (v : Bool), s.Inv → EncodedAs (.vcExt d r v) .DRV 0x23 ∧
    ((readCode s r).len = 32 →
      ∃ t, exec (.vcExt d r v) s = .next t ∧ Responded s t .encodingOverflow 0 ∧ KeepsAllBut [] s t) ∧
    ((readCode s r).len ≠ 32 →
      ∃ t n, exec (.vcExt d r v) s = .next t ∧ Responded s t .ok n ∧ n.toNat = (readCode s r).len + 1 ∧
        KeepsAllBut [.codes] s t ∧ (readCode t d).len = (readCode s r).len + 1 ∧
        (∀ k, (readCode t d).bits.getLsbD k = if k = (readCode s r).len then v else (readCode s r).bits.getLsbD k) ∧
        ∀ q, q ≠ d → readCode t q = readCode s q) ∧
    exec (.vcExt d d v) s = exec (.vcApp d v) s

/-- 41_vlc.md R165: `VC.WR` writes all the bits of the code at the cursor, the bit of index 0 lowest, or refuses before
the first; an empty code touches nothing. -/
def Obligations.VcWrWritesTheCode : Prop :=
  ∀ (s : State) (r : CodeReg), s.Inv → EncodedAs (.vcWr r) .R 0x24 ∧
    (¬ BitsFit s (readCode s r).len →
      ∃ t, exec (.vcWr r) s = .next t ∧ Responded s t .capacityExceeded 0 ∧ KeepsAllBut [] s t) ∧
    (BitsFit s (readCode s r).len →
      ∃ t n, exec (.vcWr r) s = .next t ∧ Responded s t .ok n ∧ n.toNat = (readCode s r).len ∧ KeepsAllBut [.bb] s t ∧
        BitsWritten s.caps.bbMax ((List.range (readCode s r).len).map (readCode s r).bits.getLsbD) s.bb t.bb)

/-- 30_encoding.md R109: the compositions of `BB.WRN`, `BB.RDN` and `VC.WR`. A write or a read at the cursor is the
write or the read at that position and a move of the cursor; a code that fits is written as `BB.WRN` of its bits in
order. -/
def Obligations.CompositionsAreTheirExpansions : Prop :=
  ∀ s : State, s.Inv → s.bb.cursor.toNat ≠ 2 ^ 32 - 1 →
    (∀ v : Bool, s.bb.cursor.toNat / 8 < s.caps.bbMax → ∃ t, exec (.bbWr v s.bb.cursor) s = .next t ∧
      exec (.bbWrn v) s = .next (t.setBb { t.bb with cursor := t.bb.cursor + 1 })) ∧
    (∃ t, exec (.bbRd s.bb.cursor) s = .next t ∧
      exec .bbRdn s = .next (t.setBb { t.bb with cursor := t.bb.cursor + 1 })) ∧
    (∀ r : CodeReg, BitsFit s (readCode s r).len → ∃ t u, exec (.vcWr r) s = .next t ∧
      execUntilError ((List.range (readCode s r).len).map fun k => .bbWrn ((readCode s r).bits.getLsbD k)) s = some u ∧
      SameBlock t u)

/-- 41_vlc.md R166: two codes made from one prefix by different extensions agree with it below its length, differ
exactly at that index, and leave it as it was. -/
def Obligations.ExtensionsAreIndependent : Prop :=
  ∀ (s : State) (r p q : CodeReg), s.Inv → p ≠ r → q ≠ r → p ≠ q → (readCode s r).len < 32 →
    ∃ t, execAll [.vcExt p r false, .vcExt q r true] s = some t ∧ readCode t r = readCode s r ∧
      (readCode t p).len = (readCode t q).len ∧
      (∀ k, k ≠ (readCode s r).len → (readCode t p).bits.getLsbD k = (readCode t q).bits.getLsbD k) ∧
      (readCode t p).bits.getLsbD (readCode s r).len = false ∧ (readCode t q).bits.getLsbD (readCode s r).len = true ∧
      ∀ k, k < (readCode s r).len → (readCode t p).bits.getLsbD k = (readCode s r).bits.getLsbD k

/-! ### Counting, building, finding -/

/-- 42_tree.md R180, R181: after `TR.COUNT` every counter is the number of occurrences of its byte in the input, the
sentinel's one more, and the counters sum to one more than the length. -/
def Obligations.TrCountCountsTheInput : Prop :=
  EncodedAs .trCount .Z 0x30 ∧ encode .trCount = 0x0000000000000030 ∧
  ∀ s : State, s.Inv → ∃ t d, exec .trCount s = .next t ∧ Responded s t .ok d ∧ d.toNat = s.ibuf.length ∧
    KeepsAllBut [.freq] s t ∧
    (∀ x, (readFreq t.freq x).toNat = s.ibuf.count x + if x = Config.eosByte then 1 else 0) ∧
    counterSum t.freq = s.ibuf.length + 1

/-- 42_tree.md R184, R186, R188: `TR.BUILD` refuses counters that sum to `2^32` or more; otherwise the tree it stores
has one leaf for each nonzero counter, with its symbol and its count, two present children at every other node, the
lower count to the left, and the exact sum at the root; it stops the walk and answers the number of nodes. -/
def Obligations.TrBuildBuildsTheTree : Prop :=
  EncodedAs .trBuild .Z 0x31 ∧ encode .trBuild = 0x0000000000000031 ∧
  ∀ s : State,
    (counterSum s.freq ≥ 2 ^ 32 →
      ∃ t, exec .trBuild s = .next t ∧ Responded s t .capacityExceeded 0 ∧ KeepsAllBut [] s t) ∧
    (counterSum s.freq < 2 ^ 32 →
      ∃ t d, exec .trBuild s = .next t ∧ Responded s t .ok d ∧ d.toNat = nodeCount t.tree ∧
        KeepsAllBut [.tree, .walk] s t ∧ t.tree = treeify s.freq ∧ t.dstate = .idle ∧ t.wpath = [] ∧
        (nonzeroCounts s.freq = [] → t.tree = .absent) ∧
        (nonzeroCounts s.freq ≠ [] → builtShape t.tree ∧ (leafCounts t.tree).Perm (nonzeroCounts s.freq) ∧
          rootCount t.tree = counterSum s.freq ∧ nodeCount t.tree + 1 = 2 * (nonzeroCounts s.freq).length))

/-- 42_tree.md R182, R183: the tree is the one the merge loop gives, and the only one it can give, whatever order
the working list is written in: the build is a function of the counters alone. Without a counter there is no tree. -/
def Obligations.TreeifyIsTheGreedyMerge : Prop :=
  ∀ f : Vector Word 256, (nonzeroCounts f = [] → treeify f = .absent) ∧
    (nonzeroCounts f ≠ [] → ∀ (l : List SortEntry) (t : HuffTree), l.Perm (leafEntries f) →
      (GreedyBuild 0 l t ↔ t = treeify f))

/-- 42_tree.md R182, R183: "Insert it back, and re-sort" and "insert keeping the order" give the same list, because the
order is total on entries with distinct sequence numbers. -/
def Obligations.InsertionIsReSorting : Prop :=
  ∀ (e : SortEntry) (l : List SortEntry), ((e :: l).map SortEntry.seq).Nodup →
    l.Pairwise (fun a b => entryBefore a b = true) →
    sortEntries (l ++ [e]) = insertEntry e l ∧ (insertEntry e l).Perm (e :: l) ∧
    (insertEntry e l).Pairwise (fun a b => entryBefore a b = true) ∧
    ∀ m : List SortEntry, m.Perm (e :: l) → sortEntries m = insertEntry e l

/-- 42_tree.md R189 to R191: `TR.FIND` answers at the first leaf, left before right, that has the symbol or lies deeper
than 32: the path to it in the register, or `EncodingOverflow`; `SymbolNotFound` when there is neither. -/
def Obligations.TrFindGivesThePath : Prop :=
  ∀ (s : State) (d : CodeReg) (x : Byte), EncodedAs (.trFind d x) .DS 0x32 ∧
    (searchStop s.tree x = none →
      ∃ t, exec (.trFind d x) s = .next t ∧ Responded s t .symbolNotFound 0 ∧ KeepsAllBut [] s t) ∧
    (∀ path y, searchStop s.tree x = some (path, y) → path.length > 32 →
      ∃ t, exec (.trFind d x) s = .next t ∧ Responded s t .encodingOverflow 0 ∧ KeepsAllBut [] s t) ∧
    (∀ path y, searchStop s.tree x = some (path, y) → path.length ≤ 32 →
      ∃ t n, exec (.trFind d x) s = .next t ∧ Responded s t .ok n ∧ n.toNat = path.length ∧
        KeepsAllBut [.codes] s t ∧ (readCode t d).len = path.length ∧
        (∀ k, (readCode t d).bits.getLsbD k = path.getD k false) ∧ ∀ q, q ≠ d → readCode t q = readCode s q)

/-- 42_tree.md R195, R196: `TR.ENC` looks the symbol up as `TR.FIND` does and writes the path as `VC.WR` does; it reads
and writes no code register, and on every error it writes nothing. -/
def Obligations.TrEncWritesThePath : Prop :=
  ∀ (s : State) (x : Byte), s.Inv → EncodedAs (.trEnc x) .S 0x33 ∧
    (searchStop s.tree x = none →
      ∃ t, exec (.trEnc x) s = .next t ∧ Responded s t .symbolNotFound 0 ∧ KeepsAllBut [] s t) ∧
    (∀ path y, searchStop s.tree x = some (path, y) → path.length > 32 →
      ∃ t, exec (.trEnc x) s = .next t ∧ Responded s t .encodingOverflow 0 ∧ KeepsAllBut [] s t) ∧
    (∀ path y, searchStop s.tree x = some (path, y) → path.length ≤ 32 → ¬ BitsFit s path.length →
      ∃ t, exec (.trEnc x) s = .next t ∧ Responded s t .capacityExceeded 0 ∧ KeepsAllBut [] s t) ∧
    (∀ path y, searchStop s.tree x = some (path, y) → path.length ≤ 32 → BitsFit s path.length →
      ∃ t n, exec (.trEnc x) s = .next t ∧ Responded s t .ok n ∧ n.toNat = path.length ∧ KeepsAllBut [.bb] s t ∧
        BitsWritten s.caps.bbMax path s.bb t.bb)

/-! ### The serializer and the deserializer -/

/-- 43_serdes.md R211, 30_encoding.md R92: `TR.SER` appends the serialized tree, of two bytes for each node and one
more, to the output; when it does not fit it changes nothing. -/
def Obligations.TrSerAppendsTheTree : Prop :=
  EncodedAs .trSer .Z 0x34 ∧ encode .trSer = 0x0000000000000034 ∧
  ∀ s : State, s.Inv →
    (s.obuf.length + (2 * nodeCount s.tree + 1) > s.caps.obufMax →
      ∃ t, exec .trSer s = .next t ∧ Responded s t .capacityExceeded 0 ∧ KeepsAllBut [] s t) ∧
    (s.obuf.length + (2 * nodeCount s.tree + 1) ≤ s.caps.obufMax →
      ∃ t d, exec .trSer s = .next t ∧ Responded s t .ok d ∧ d.toNat = 2 * nodeCount s.tree + 1 ∧
        KeepsAllBut [.obuf] s t ∧ t.obuf = s.obuf ++ serialize s.tree)

/-- 43_serdes.md R215: deserializing a serialized tree gives the same structure and symbols at every position, every
count 0, and consumes exactly its bytes, whatever follows, provided no node has the symbol `NULL_BYTE`. -/
def Obligations.SerializedTreesReadBack : Prop :=
  ∀ (t : HuffTree) (rest : List Byte), noNullSymbol t = true →
    deserialize (serialize t ++ rest) = some (zeroCounts t, rest)

/-- 43_serdes.md R212, 30_encoding.md R91: the deserializer answers exactly the trees of the wire grammar: the bytes it
consumed are the serialization of the tree it gives, and no tree whose serialization stands in front is missed. -/
def Obligations.DeserializerReadsTheWireGrammar : Prop :=
  ∀ (b : List Byte) (t : HuffTree) (rest : List Byte),
    deserialize b = some (t, rest) ↔ b = serialize t ++ rest ∧ noNullSymbol t = true ∧ zeroCounts t = t

/-- 43_serdes.md R213: `TR.DES` reads the tree that stands at the input cursor, stores it, moves the cursor behind it,
stops the walk and answers the bytes consumed; a tree that cannot be stored, or input that runs out inside the tree,
changes nothing. -/
def Obligations.TrDesReadsTheTree : Prop :=
  EncodedAs .trDes .Z 0x35 ∧ encode .trDes = 0x0000000000000035 ∧
  ∀ s : State, s.Inv →
    (∀ (tree : HuffTree) (rest : List Byte), s.ibuf.drop s.ipos = serialize tree ++ rest → noNullSymbol tree = true →
      nodeCount tree ≤ s.caps.nodeMax → levelCount tree ≤ s.caps.depthMax + 1 →
      ∃ t d, exec .trDes s = .next t ∧ Responded s t .ok d ∧ d.toNat = (serialize tree).length ∧
        KeepsAllBut [.tree, .walk, .ipos] s t ∧ t.tree = zeroCounts tree ∧
        t.ipos = s.ipos + (serialize tree).length ∧ t.dstate = .idle ∧ t.wpath = []) ∧
    (∀ (tree : HuffTree) (rest : List Byte), s.ibuf.drop s.ipos = serialize tree ++ rest → noNullSymbol tree = true →
      nodeCount tree > s.caps.nodeMax ∨ levelCount tree > s.caps.depthMax + 1 →
      ∃ t, exec .trDes s = .next t ∧ Responded s t .capacityExceeded 0 ∧ KeepsAllBut [] s t) ∧
    ((¬ ∃ (tree : HuffTree) (rest : List Byte), s.ibuf.drop s.ipos = serialize tree ++ rest ∧ noNullSymbol tree = true) →
      ∃ t, exec .trDes s = .next t ∧ KeepsAllBut [] s t ∧
        (Responded s t .unexpectedEndOfStream 0 ∨ Responded s t .capacityExceeded 0))

/-- 43_serdes.md R213 ("whichever it meets first in preorder"): on input that runs out inside the tree, the nodes read
are those of the tree that closing every open subtree would give; `TR.DES` reports `CapacityExceeded` when that tree
passes a capacity, and otherwise `UnexpectedEndOfStream`. The reading of "meets first" is the model's, log entry 5. -/
def Obligations.TruncatedTreesReportTheFirstLimit : Prop :=
  ∀ s : State,
    (¬ ∃ (tree : HuffTree) (rest : List Byte), s.ibuf.drop s.ipos = serialize tree ++ rest ∧ noNullSymbol tree = true) →
    ∃ (k : Nat) (tree : HuffTree) (t : State), s.ibuf.drop s.ipos ++ List.replicate k Config.nullByte = serialize tree ∧
      noNullSymbol tree = true ∧ exec .trDes s = .next t ∧ KeepsAllBut [] s t ∧
      Responded s t (if fitsStore s.caps tree then .unexpectedEndOfStream else .capacityExceeded) 0

/-! ### The walk -/

/-- 44_codec.md R242: `DEC.START` empties the output and puts the walk at the root: it runs on a root that is no leaf, is
done at once on the sentinel's leaf, and fails on any other leaf and on an absent tree. -/
def Obligations.DecStartStandsAtTheRoot : Prop :=
  EncodedAs .decStart .Z 0x42 ∧ encode .decStart = 0x0000000000000042 ∧
  ∀ s : State, ∃ t, exec .decStart s = .next t ∧ KeepsAllBut [.walk, .obuf] s t ∧ t.obuf = [] ∧ t.wpath = [] ∧
    (isAbsent s.tree = true → Responded s t .unexpectedNullChild 0 ∧ WalkFailed t) ∧
    (∀ x n, s.tree = .node x n .absent .absent → x = Config.eosByte → Responded s t .ok 2 ∧ t.dstate = .done) ∧
    (∀ x n, s.tree = .node x n .absent .absent → x ≠ Config.eosByte →
      Responded s t .unexpectedEndOfStream 0 ∧ WalkFailed t) ∧
    (isAbsent s.tree = false → isLeaf s.tree = false → Responded s t .ok 1 ∧ t.dstate = .run)

/-- 44_codec.md R243: `DEC.STEP` reads one bit at the cursor and walks one edge: left on 0, right on 1. -/
def Obligations.DecStepWalksOneEdge : Prop :=
  EncodedAs .decStep .Z 0x43 ∧ encode .decStep = 0x0000000000000043 ∧
  ∀ s : State,
    (s.dstate ≠ .run → ∃ t, exec .decStep s = .next t ∧ Responded s t .illegalCommand 0 ∧ KeepsAllBut [] s t) ∧
    (s.dstate = .run → s.bb.cursor.toNat = 2 ^ 32 - 1 → ∃ t, exec .decStep s = .next t ∧
      Responded s t .capacityExceeded 0 ∧ KeepsAllBut [.walk, .obuf] s t ∧ WalkFailed t) ∧
    (s.dstate = .run → s.bb.cursor.toNat ≠ 2 ^ 32 - 1 → ∃ t, exec .decStep s = .next t ∧
      KeepsAllBut [.bb, .walk, .obuf] s t ∧ t.bb = { s.bb with cursor := s.bb.cursor + 1 } ∧
      t.bb.cursor.toNat = s.bb.cursor.toNat + 1 ∧
      (bitRead s.bb s.bb.cursor.toNat = none → Responded s t .unexpectedEndOfStream 0 ∧ WalkFailed t) ∧
      ∀ v child, bitRead s.bb s.bb.cursor.toNat = some v → child = nodeAt s.tree (s.wpath ++ [v]) →
        (isAbsent child = true → Responded s t .unexpectedNullChild 0 ∧ WalkFailed t) ∧
        (∀ x n, child = .node x n .absent .absent → x = Config.eosByte →
          Responded s t .ok 2 ∧ t.dstate = .done ∧ t.wpath = [] ∧ t.obuf = s.obuf) ∧
        (∀ x n, child = .node x n .absent .absent → x ≠ Config.eosByte → s.obuf.length = s.caps.obufMax →
          Responded s t .capacityExceeded 0 ∧ WalkFailed t) ∧
        (∀ x n, child = .node x n .absent .absent → x ≠ Config.eosByte → s.obuf.length ≠ s.caps.obufMax →
          Responded s t .ok 1 ∧ t.dstate = .run ∧ t.wpath = [] ∧ t.obuf = s.obuf ++ [x]) ∧
        (isAbsent child = false → isLeaf child = false →
          Responded s t .ok 1 ∧ t.dstate = .run ∧ t.wpath = s.wpath ++ [v] ∧ t.obuf = s.obuf))

/-- 44_codec.md R244: the state diagram of the walk. -/
def Obligations.WalkFollowsItsStateDiagram : Prop :=
  ∀ (i : Instr) (s t : State), s.Inv → exec i s = .next t →
    (i = .reset ∨ i = .codecEncode ∨ ((i = .trBuild ∨ i = .trDes) ∧ t.status = .ok) → t.dstate = .idle) ∧
    (i = .decStart → t.dstate =
      if isAbsent s.tree then .fail else if isLeaf s.tree then (if t.status = .ok then .done else .fail) else .run) ∧
    (i = .decStep → s.dstate ≠ .run → t.dstate = s.dstate ∧ t.status = .illegalCommand) ∧
    (i = .decStep → s.dstate = .run → (t.status ≠ .ok ↔ t.dstate = .fail) ∧ t.dstate ≠ .idle) ∧
    (i = .codecDecode → t.status = .ok → t.dstate = .done) ∧
    (i = .codecDecode → t.status ≠ .ok → t.dstate = .fail ∨ t.dstate = .idle ∨ (t.dstate = s.dstate ∧ t.tree = s.tree)) ∧
    (mnemonicOf i ∉ writersOfWalk → t.dstate = s.dstate ∧ t.wpath = s.wpath)

/-! ### Whole-machine rules -/

/-- 10_state.md R25, R29, R30, R33, R34, R36, 20_memory.md R60: each unit of the state is written only by the commands
these rules list for it. -/
def Obligations.OnlyTheListedCommandsWrite : Prop :=
  ∀ (i : Instr) (s t : State), exec i s = .next t →
    (mnemonicOf i ∉ writersOfCodes → t.codes = s.codes) ∧ (mnemonicOf i ∉ writersOfFreq → t.freq = s.freq) ∧
    (mnemonicOf i ∉ writersOfTree → t.tree = s.tree) ∧
    (mnemonicOf i ∉ writersOfWalk → t.dstate = s.dstate ∧ t.wpath = s.wpath) ∧
    (mnemonicOf i ∉ writersOfIbuf → t.ibuf = s.ibuf) ∧ (mnemonicOf i ∉ writersOfIpos → t.ipos = s.ipos) ∧
    (mnemonicOf i ∉ writersOfObuf → t.obuf = s.obuf) ∧ (mnemonicOf i ∉ writersOfBb → t.bb = s.bb)

/-- 60_exceptions.md R300, R296: a command that fails has changed nothing but `STATUS`, unless it is one of the five the
rule names; one that answers `IllegalCommand` has changed nothing in any case. -/
def Obligations.FailedCommandsChangeNothing : Prop :=
  ∀ (i : Instr) (s t : State), exec i s = .next t → t.status ≠ .ok →
    (mnemonicOf i ∉ failsLate → KeepsAllBut [] s t) ∧ (t.status = .illegalCommand → KeepsAllBut [] s t)

/-- 44_codec.md R231, R240, R242, R243: when `ENCODE`, `DECODE`, `DEC.START` or a `DEC.STEP` in `D_RUN` fails, no output
is left readable. -/
def Obligations.FailedCodecsLeaveNoOutput : Prop :=
  ∀ (i : Instr) (s t : State), mnemonicOf i ∈ ["ENCODE", "DECODE", "DEC.START", "DEC.STEP"] → exec i s = .next t →
    t.status ≠ .ok → t.status ≠ .illegalCommand → t.obuf = []

/-! ### The pipelines -/

/-- 44_codec.md R231, 30_encoding.md R90, R93: `ENCODE` of a text whose tree is at most 32 deep, and whose codes and
stream fit the buffers, leaves the serialized tree and then the packed codes of the text and of the sentinel. -/
def Obligations.EncodeWritesTheWireFormat : Prop :=
  EncodedAs .codecEncode .Z 0x40 ∧ encode .codecEncode = 0x0000000000000040 ∧
  ∀ (s : State) (tree : HuffTree) (bits : List Bool), s.Inv →
    tree = treeify (countBytes (s.ibuf ++ [Config.eosByte])) → levelCount tree ≤ 33 →
    bits = textBits tree (s.ibuf ++ [Config.eosByte]) → bits.length ≤ 2 ^ 32 - 1 → (bits.length + 7) / 8 ≤ s.caps.bbMax →
    (serialize tree).length + (bits.length + 7) / 8 ≤ s.caps.obufMax →
    ∃ t payload d, exec .codecEncode s = .next t ∧ Responded s t .ok d ∧ d.toNat = t.obuf.length ∧
      t.obuf = serialize tree ++ payload ∧ Packs bits payload ∧
      (∀ x ∈ s.ibuf ++ [Config.eosByte], ∃ path, codePath tree x = some path ∧ path.length ≤ 32) ∧
      t.freq = countBytes (s.ibuf ++ [Config.eosByte]) ∧ t.tree = tree ∧ t.dstate = .idle ∧ t.wpath = [] ∧
      bufferBytes t.bb = payload ∧ t.bb.cursor.toNat = bits.length ∧
      KeepsAllBut [.bb, .freq, .tree, .walk, .obuf] s t

/-- 44_codec.md R232: `ENCODE`, whether it succeeds or not, leaves the counts of the text with the sentinel counted
twice, summing to two more than the length, and the tree built from them; it does not write the input. -/
def Obligations.EncodeCountsTheSentinelTwice : Prop :=
  ∀ s : State, s.Inv → ∃ t, exec .codecEncode s = .next t ∧
    (∀ x, (readFreq t.freq x).toNat = s.ibuf.count x + if x = Config.eosByte then 2 else 0) ∧
    counterSum t.freq = s.ibuf.length + 2 ∧ t.tree = treeify t.freq ∧ t.dstate = .idle ∧ t.wpath = [] ∧
    t.ibuf = s.ibuf ∧ t.ipos = s.ipos ∧ t.codes = s.codes

/-- 44_codec.md R236: a text made only of sentinel bytes, the empty text among them, encodes to the three bytes of the
lone leaf, with no bit written. -/
def Obligations.SentinelTextsEncodeToTheLoneLeaf : Prop :=
  ∀ s : State, s.Inv → (∀ x ∈ s.ibuf, x = Config.eosByte) → 3 ≤ s.caps.obufMax →
    ∃ t, exec .codecEncode s = .next t ∧ Responded s t .ok 3 ∧ t.obuf = [0x04, 0x00, 0x00] ∧ isLeaf t.tree = true ∧
      t.bb.size = 0 ∧ t.bb.hwmv = false ∧ t.bb.cursor = 0

/-- 30_encoding.md R109, 44_codec.md R240: `DECODE` behaves as `IB.SEEK 0`, `TR.DES`, `BB.LOAD`, `DEC.START` and then
`DEC.STEP` while the walk runs, the output emptied first: the same state and the same status at the first error or at
the end, after at most `8 * BB.size + 1` steps. -/
def Obligations.DecodeIsItsExpansion : Prop :=
  EncodedAs .codecDecode .Z 0x41 ∧ encode .codecDecode = 0x0000000000000041 ∧
  ∀ s : State, s.Inv → ∃ (k : Nat) (t u : State), k ≤ 8 * t.bb.size + 1 ∧ exec .codecDecode s = .next t ∧
    execUntilError ([.obClr, .ibSeek 0, .trDes, .bbLoad, .decStart] ++ List.replicate k .decStep) s = some u ∧
    SameBlock t u ∧ t.status = u.status ∧ KeepsAllBut [.bb, .tree, .walk, .ipos, .obuf] s t ∧
    t.status ∈ [.ok, .unexpectedEndOfStream, .unexpectedNullChild, .capacityExceeded] ∧
    (t.status = .ok → t.dstate = .done ∧ ∃ d, Responded s t .ok d ∧ d.toNat = t.obuf.length) ∧
    (t.status ≠ .ok → Responded s t t.status 0 ∧ t.obuf = [])

/-- 44_codec.md R239 to R241, R246: `DECODE` of a serialized tree followed by the paths of leaves, then the path of a
sentinel leaf, then any further bits and bytes, leaves the symbols of those leaves; nothing behind the sentinel is
read. -/
def Obligations.DecodeInvertsTheWireFormat : Prop :=
  ∀ (s : State) (tree : HuffTree) (payload : List Byte) (walk : List (List Bool × Byte)) (last : List Bool)
    (bits : List Bool), s.Inv → s.ibuf = serialize tree ++ payload → noNullSymbol tree = true →
    fitsStore s.caps tree = true → payload.length ≤ s.caps.bbMax → walk.length ≤ s.caps.obufMax →
    isAbsent tree = false → (∀ p ∈ walk, p ∈ leafPaths tree ∧ p.1 ≠ [] ∧ p.2 ≠ Config.eosByte) →
    (last, Config.eosByte) ∈ leafPaths tree → bits = walk.flatMap Prod.fst ++ last →
    bits.length ≤ 8 * payload.length → bits.length ≤ 2 ^ 32 - 1 →
    (∀ k, k < bits.length → payloadBit payload k = bits.getD k false) →
    ∃ t d, exec .codecDecode s = .next t ∧ Responded s t .ok d ∧ d.toNat = walk.length ∧ t.obuf = walk.map Prod.snd ∧
      t.dstate = .done ∧ t.wpath = [] ∧ t.tree = zeroCounts tree ∧ t.ipos = (serialize tree).length ∧
      t.bb.cursor.toNat = bits.length ∧ bufferBytes t.bb = payload ∧
      KeepsAllBut [.bb, .tree, .walk, .ipos, .obuf] s t

/-- 44_codec.md R246: `DECODE` of the empty text's stream is the empty text with no bit read; a lone leaf of another
symbol, an absent tree and an empty stream are errors. -/
def Obligations.DegenerateStreamsDecode : Prop :=
  ∀ s : State, s.Inv → ∃ t, exec .codecDecode s = .next t ∧
    (∀ rest, s.ibuf = Config.eosByte :: Config.nullByte :: Config.nullByte :: rest → rest.length ≤ s.caps.bbMax →
      Responded s t .ok 0 ∧ t.obuf = [] ∧ t.dstate = .done ∧ t.bb.cursor = 0) ∧
    (∀ x rest, s.ibuf = x :: Config.nullByte :: Config.nullByte :: rest → x ≠ Config.eosByte → x ≠ Config.nullByte →
      rest.length ≤ s.caps.bbMax → Responded s t .unexpectedEndOfStream 0 ∧ WalkFailed t) ∧
    (∀ rest, s.ibuf = Config.nullByte :: rest → rest.length ≤ s.caps.bbMax →
      Responded s t .unexpectedNullChild 0 ∧ WalkFailed t) ∧
    (s.ibuf = [] → Responded s t .unexpectedEndOfStream 0 ∧ t.obuf = [] ∧ t.tree = s.tree ∧ t.ipos = 0)

/-- 44_codec.md R247: the round trip. A text with neither the sentinel nor the NULL byte, encoded without error, comes
back when the host copies the stream to the input and issues `DECODE`. The premises that the stream fits the input
buffer and the text the output buffer are the model's, for finite capacities (log entry 1). -/
def Obligations.DecodeOfEncodeIsTheText : Prop :=
  ∀ s t : State, s.Inv → Config.eosByte ∉ s.ibuf → Config.nullByte ∉ s.ibuf →
    exec .codecEncode s = .next t → t.status = .ok → t.obuf.length ≤ s.caps.ibufMax → s.ibuf.length ≤ s.caps.obufMax →
    ∃ u d, execAll (.ibClr :: t.obuf.map .ibPut ++ [.codecDecode]) t = some u ∧ u.status = .ok ∧ u.obuf = s.ibuf ∧
      u.responses.getLast? = some ⟨.ok, d⟩ ∧ d.toNat = s.ibuf.length
end

