-- ==== Sys2Proof/Laws/Memory.lean ====
section
/-! SUPPORT. The bytes of the buffer: a byte written is read back, every other byte stays, and every operation
keeps the canonical form. -/

namespace Sys2Proof.Machine

@[simp] theorem readByte_nil (a : Nat) : readByte [] a = 0 := rfl

/-- A canonical memory from `lo` on reads 0 below `lo`. -/
theorem readByte_below : ∀ {m : Memory} {lo a : Nat}, Memory.wfFrom lo m = true → a < lo → readByte m a = 0
  | [], _, _, _, _ => rfl
  | (b, x) :: rest, lo, a, h, ha => by
    simp only [Memory.wfFrom, Bool.and_eq_true, decide_eq_true_eq] at h
    have hne : a ≠ b := by omega
    simp only [readByte, hne, if_false]
    exact readByte_below h.2 (by omega)

/-- The canonical form from an address on is one from any lower address on. -/
theorem Memory.wfFrom_mono : ∀ {m : Memory} {lo lo' : Nat}, lo' ≤ lo → Memory.wfFrom lo m = true → Memory.wfFrom lo' m = true
  | [], _, _, _, _ => rfl
  | (b, x) :: rest, lo, lo', hle, h => by
    simp only [Memory.wfFrom, Bool.and_eq_true, decide_eq_true_eq] at h ⊢
    exact ⟨⟨by omega, h.1.2⟩, h.2⟩

/-- A read after a write: the byte written at its address, the old byte elsewhere. -/
theorem readByte_writeByte : ∀ {m : Memory} {lo : Nat}, Memory.wfFrom lo m = true → ∀ (a : Nat) (x : Byte) (b : Nat),
    readByte (writeByte m a x) b = if b = a then x else readByte m b
  | [], _, _, a, x, b => by
    unfold writeByte unlistedByte
    by_cases hx : x = 0#8 <;> by_cases hb : b = a <;> simp [hx, hb, readByte, unlistedByte]
  | (c, y) :: rest, lo, h, a, x, b => by
    simp only [Memory.wfFrom, Bool.and_eq_true, decide_eq_true_eq] at h
    have ih := readByte_writeByte h.2 a x b
    have hlow : ∀ d, d ≤ c → readByte rest d = 0 := fun d hd => readByte_below h.2 (by omega)
    unfold writeByte unlistedByte
    by_cases h1 : a < c
    · by_cases hx : x = 0#8
      · by_cases hb : b = a
        · have : b ≠ c := by omega
          simp [h1, hx, hb, readByte, show a ≠ c by omega, hlow a (by omega)]
        · simp [h1, hx, hb]
      · by_cases hb : b = a
        · simp [h1, hx, hb, readByte]
        · simp [h1, hx, hb, readByte]
    · by_cases h2 : a = c
      · subst h2
        by_cases hx : x = 0#8
        · by_cases hb : b = a
          · simp [hx, hb, hlow a (by omega)]
          · simp [hx, hb, readByte]
        · by_cases hb : b = a <;> simp [hx, hb, readByte]
      · by_cases hb : b = c
        · simp [h1, h2, hb, readByte, show c ≠ a from fun e => h2 e.symm]
        · simp only [h1, h2, if_false, readByte, hb]
          exact ih

/-- A write keeps the canonical form from any address at or below the one written. -/
theorem Memory.wfFrom_writeByte : ∀ {m : Memory} {lo : Nat}, Memory.wfFrom lo m = true → ∀ (a : Nat) (x : Byte), lo ≤ a →
    Memory.wfFrom lo (writeByte m a x) = true
  | [], _, _, a, x, ha => by
    unfold writeByte unlistedByte
    by_cases hx : x = 0#8 <;> simp [hx, Memory.wfFrom, unlistedByte, ha]
  | (c, y) :: rest, lo, h, a, x, ha => by
    simp only [Memory.wfFrom, Bool.and_eq_true, decide_eq_true_eq] at h
    unfold writeByte
    split
    · split
      · simp only [Memory.wfFrom, Bool.and_eq_true, decide_eq_true_eq]; exact h
      · next hx =>
        simp only [Memory.wfFrom, Bool.and_eq_true, decide_eq_true_eq, bne_iff_ne, ne_eq]
        exact ⟨⟨ha, hx⟩, ⟨by omega, by simpa using h.1.2⟩, h.2⟩
    · split
      · split
        · exact Memory.wfFrom_mono (by omega) h.2
        · next hx =>
          subst a
          simp only [Memory.wfFrom, Bool.and_eq_true, decide_eq_true_eq, bne_iff_ne, ne_eq]
          exact ⟨⟨ha, hx⟩, h.2⟩
      · simp only [Memory.wfFrom, Bool.and_eq_true, decide_eq_true_eq]
        exact ⟨h.1, Memory.wfFrom_writeByte h.2 a x (by omega)⟩

theorem Memory.wf_writeByte {m : Memory} (h : Memory.wf m = true) (a : Nat) (x : Byte) :
    Memory.wf (writeByte m a x) = true := Memory.wfFrom_writeByte h a x (Nat.zero_le _)

/-- Truncation drops the bytes from `n` on and keeps the others. -/
theorem readByte_truncateBytes : ∀ (m : Memory) (n a : Nat),
    readByte (truncateBytes m n) a = if a < n then readByte m a else 0
  | [], _, _ => by simp [truncateBytes, readByte, unlistedByte]
  | (c, y) :: rest, n, a => by
    have ih := readByte_truncateBytes rest n a
    unfold truncateBytes at ih ⊢
    by_cases hc : c < n
    · rw [List.filter_cons_of_pos (by simpa using hc)]
      by_cases ha : a = c
      · simp [readByte, ha, hc]
      · simp only [readByte, ha, if_false]; exact ih
    · rw [List.filter_cons_of_neg (by simpa using hc), ih]
      by_cases ha : a < n
      · simp [ha, readByte, show a ≠ c by omega]
      · simp [ha]

theorem Memory.wfFrom_truncateBytes : ∀ {m : Memory} {lo : Nat}, Memory.wfFrom lo m = true → ∀ n,
    Memory.wfFrom lo (truncateBytes m n) = true
  | [], _, _, _ => rfl
  | (c, y) :: rest, lo, h, n => by
    simp only [Memory.wfFrom, Bool.and_eq_true, decide_eq_true_eq] at h
    have ih := Memory.wfFrom_truncateBytes h.2 n
    unfold truncateBytes at ih ⊢
    by_cases hc : c < n
    · rw [List.filter_cons_of_pos (by simpa using hc)]
      simp only [Memory.wfFrom, Bool.and_eq_true, decide_eq_true_eq]
      exact ⟨h.1, ih⟩
    · rw [List.filter_cons_of_neg (by simpa using hc)]
      exact Memory.wfFrom_mono (by omega) ih

theorem Memory.wf_truncateBytes {m : Memory} (h : Memory.wf m = true) (n : Nat) :
    Memory.wf (truncateBytes m n) = true := Memory.wfFrom_truncateBytes h n

/-- The memory made of a byte sequence reads as the sequence, and 0 outside it. -/
theorem readByte_bytesToMemory : ∀ (l : List Byte) (i a : Nat),
    readByte (bytesToMemory i l) a = if i ≤ a then l.getD (a - i) 0 else 0
  | [], i, a => by simp [bytesToMemory]
  | x :: rest, i, a => by
    have ih := readByte_bytesToMemory rest (i + 1) a
    unfold bytesToMemory unlistedByte
    by_cases hx : x = 0#8
    · rw [if_pos hx, ih]
      by_cases h1 : a = i
      · simp [h1, hx]
      · by_cases h2 : i ≤ a
        · have : a - i = (a - (i + 1)) + 1 := by omega
          simp [h2, show i + 1 ≤ a by omega, this]
        · simp [h2, show ¬ i + 1 ≤ a by omega]
    · rw [if_neg hx]
      by_cases h1 : a = i
      · simp [readByte, h1]
      · simp only [readByte, h1, if_false, ih]
        by_cases h2 : i ≤ a
        · have : a - i = (a - (i + 1)) + 1 := by omega
          simp [h2, show i + 1 ≤ a by omega, this]
        · simp [h2, show ¬ i + 1 ≤ a by omega]

theorem Memory.wfFrom_bytesToMemory : ∀ (l : List Byte) (i : Nat), Memory.wfFrom i (bytesToMemory i l) = true
  | [], _ => rfl
  | x :: rest, i => by
    have ih := Memory.wfFrom_bytesToMemory rest (i + 1)
    unfold bytesToMemory
    split
    · exact Memory.wfFrom_mono (by omega) ih
    · next hx =>
      simp only [Memory.wfFrom, Bool.and_eq_true, decide_eq_true_eq, bne_iff_ne, ne_eq]
      exact ⟨⟨Nat.le_refl _, hx⟩, ih⟩

theorem Memory.wf_bytesToMemory (l : List Byte) : Memory.wf (bytesToMemory 0 l) = true :=
  Memory.wfFrom_bytesToMemory l 0

/-- Two canonical memories that read alike are equal: equal memories are equal data. -/
theorem memory_ext : ∀ {m n : Memory} {lo : Nat}, Memory.wfFrom lo m = true → Memory.wfFrom lo n = true →
    (∀ a, readByte m a = readByte n a) → m = n
  | [], [], _, _, _, _ => rfl
  | [], (c, y) :: rest, lo, _, hn, h => by
    simp only [Memory.wfFrom, Bool.and_eq_true, decide_eq_true_eq, bne_iff_ne, ne_eq, unlistedByte] at hn
    exact absurd (by simpa [readByte, unlistedByte] using (h c).symm) hn.1.2
  | (c, y) :: rest, [], lo, hm, _, h => by
    simp only [Memory.wfFrom, Bool.and_eq_true, decide_eq_true_eq, bne_iff_ne, ne_eq, unlistedByte] at hm
    exact absurd (by simpa [readByte, unlistedByte] using h c) hm.1.2
  | (c, y) :: rest, (d, z) :: rest', lo, hm, hn, h => by
    simp only [Memory.wfFrom, Bool.and_eq_true, decide_eq_true_eq, bne_iff_ne, ne_eq, unlistedByte] at hm hn
    have hcd : c = d := by
      by_contra hne
      rcases Nat.lt_or_gt_of_ne hne with hlt | hgt
      · have := h c
        rw [readByte, if_pos rfl, readByte, if_neg hne, readByte_below hn.2 (by omega)] at this
        exact hm.1.2 this
      · have := h d
        rw [readByte, if_neg (fun e => hne e.symm), readByte, if_pos rfl, readByte_below hm.2 (by omega)] at this
        exact hn.1.2 this.symm
    subst hcd
    have hyz : y = z := by simpa [readByte] using h c
    subst hyz
    have : rest = rest' := memory_ext hm.2 hn.2 fun a => by
      by_cases ha : a = c
      · subst ha; rw [readByte_below hm.2 (by omega), readByte_below hn.2 (by omega)]
      · simpa [readByte, ha] using h a
    rw [this]

end Sys2Proof.Machine
end

