-- ==== Sys2Proof/Laws/Buffer.lean ====
section
/-! SUPPORT. The bits of the buffer: growth, a bit written and read back, and the invariant of the buffer. -/

namespace Sys2Proof.Machine

/-! ### One bit of a byte -/

/-- Setting one bit of a byte leaves the other seven (20_memory.md R63). -/
theorem getLsbD_setBit (x : Byte) (i j : Nat) (v : Bool) (hi : i < 8) (hj : j < 8) :
    (setBit x i v).getLsbD j = if j = i then v else x.getLsbD j := by
  unfold setBit
  cases v <;> by_cases h : j = i
  · simp [h, hi]
  · by_cases h1 : j < i
    · simp [h, hj, h1]
    · have : j - i ≠ 0 := by omega
      simp [h, hj, h1, this]
  · simp [h, hi]
  · by_cases h1 : j < i
    · simp [h, hj, h1]
    · have : j - i ≠ 0 := by omega
      simp [h, hj, h1, this]

/-! ### Growth -/

theorem growStep_gt (n : Nat) : n < growStep n := by unfold growStep; omega

/-- Growth reaches the byte when it is within the capacity and there are rounds enough. -/
theorem growSize_gt {bbMax b : Nat} (hb : b < bbMax) : ∀ (fuel n : Nat), b + 1 ≤ fuel + n → b < growSize bbMax b fuel n
  | 0, n, h => by simp only [growSize]; omega
  | fuel + 1, n, h => by
    unfold growSize
    split
    · have := growStep_gt n
      exact growSize_gt hb fuel _ (by omega)
    · omega

theorem growSize_le {bbMax b : Nat} : ∀ (fuel n : Nat), n ≤ bbMax → growSize bbMax b fuel n ≤ bbMax
  | 0, n, h => h
  | fuel + 1, n, h => by
    unfold growSize
    split
    · exact growSize_le fuel _ (Nat.min_le_right _ _)
    · exact h

theorem le_growSize {bbMax b : Nat} : ∀ (fuel n : Nat), n ≤ bbMax → n ≤ growSize bbMax b fuel n
  | 0, n, _ => Nat.le_refl n
  | fuel + 1, n, h => by
    unfold growSize
    split
    · have h1 := growStep_gt n
      have h2 := le_growSize (bbMax := bbMax) (b := b) fuel (min (growStep n) bbMax) (Nat.min_le_right _ _)
      omega
    · exact Nat.le_refl n

@[simp] theorem grow_cursor (bbMax b : Nat) (bb : BitBuffer) : (grow bbMax b bb).cursor = bb.cursor := by
  unfold grow; split <;> rfl

@[simp] theorem grow_hwmv (bbMax b : Nat) (bb : BitBuffer) : (grow bbMax b bb).hwmv = bb.hwmv := by
  unfold grow; split <;> rfl

@[simp] theorem grow_hwm (bbMax b : Nat) (bb : BitBuffer) : (grow bbMax b bb).hwm = bb.hwm := by
  unfold grow; split <;> rfl

@[simp] theorem touch_mem (b : Nat) (bb : BitBuffer) : (touch b bb).mem = bb.mem := by unfold touch; split <;> rfl
@[simp] theorem touch_size (b : Nat) (bb : BitBuffer) : (touch b bb).size = bb.size := by unfold touch; split <;> rfl
@[simp] theorem touch_cursor (b : Nat) (bb : BitBuffer) : (touch b bb).cursor = bb.cursor := by
  unfold touch; split <;> rfl

/-- The byte a write goes to exists after growth. -/
theorem lt_grow_size {bbMax b : Nat} (hb : b < bbMax) (bb : BitBuffer) : b < (grow bbMax b bb).size := by
  unfold grow
  split
  · exact growSize_gt hb _ _ (by omega)
  · omega

theorem le_grow_size {bbMax : Nat} (b : Nat) {bb : BitBuffer} (h : bb.size ≤ bbMax) :
    bb.size ≤ (grow bbMax b bb).size := by
  unfold grow
  split
  · exact le_growSize _ _ h
  · exact Nat.le_refl _

theorem grow_size_le {bbMax : Nat} (b : Nat) {bb : BitBuffer} (h : bb.size ≤ bbMax) :
    (grow bbMax b bb).size ≤ bbMax := by
  unfold grow
  split
  · exact growSize_le _ _ h
  · exact h

/-- "a byte that exists keeps its value across growth" (10_state.md R28 (c)). -/
theorem readByte_grow {bbMax b : Nat} {bb : BitBuffer} (a : Nat) :
    readByte (grow bbMax b bb).mem a = if a < bb.size ∨ b < bb.size then readByte bb.mem a else 0 := by
  unfold grow
  by_cases h : b ≥ bb.size
  · rw [if_pos h, readByte_truncateBytes]
    have : ¬ b < bb.size := by omega
    simp [this]
  · rw [if_neg h]; simp [show b < bb.size by omega]

theorem Memory.wf_grow {bbMax b : Nat} {bb : BitBuffer} (h : Memory.wf bb.mem = true) :
    Memory.wf (grow bbMax b bb).mem = true := by
  unfold grow
  split
  · exact Memory.wf_truncateBytes h _
  · exact h

/-! ### Writing and reading a bit -/

@[simp] theorem bitWrite_cursor (bbMax : Nat) (bb : BitBuffer) (p : Nat) (v : Bool) :
    (bitWrite bbMax bb p v).cursor = bb.cursor := by simp [bitWrite]

@[simp] theorem bitWrite_size (bbMax : Nat) (bb : BitBuffer) (p : Nat) (v : Bool) :
    (bitWrite bbMax bb p v).size = (grow bbMax (p / 8) bb).size := by simp [bitWrite]

/-- The high-water mark after a write (20_memory.md R63). -/
theorem bitWrite_hwm (bbMax : Nat) (bb : BitBuffer) (p : Nat) (v : Bool) :
    (bitWrite bbMax bb p v).hwmv = true ∧
    (bitWrite bbMax bb p v).hwm = if bb.hwmv = false ∨ p / 8 > bb.hwm then p / 8 else bb.hwm := by
  unfold bitWrite touch
  simp only [grow_hwmv, grow_hwm]
  cases h : bb.hwmv <;> by_cases h2 : p / 8 > bb.hwm <;> simp [h2]

theorem readByte_bitWrite {bbMax : Nat} {bb : BitBuffer} (h : Memory.wf bb.mem = true) (p : Nat) (v : Bool) (a : Nat) :
    readByte (bitWrite bbMax bb p v).mem a =
      if a = p / 8 then setBit (readByte (grow bbMax (p / 8) bb).mem (p / 8)) (p % 8) v
      else readByte (grow bbMax (p / 8) bb).mem a := by
  simp only [bitWrite, touch_mem]
  exact readByte_writeByte (Memory.wf_grow h) _ _ _

/-- A read after a write: the bit written at its position, the old bit at every other position of a byte that
existed, 0 in the bytes that growth added, out of range beyond. -/
theorem bitRead_bitWrite {bbMax : Nat} {bb : BitBuffer} (h : Memory.wf bb.mem = true) {p : Nat} (hp : p / 8 < bbMax)
    (hsz : bb.size ≤ bbMax) (v : Bool) (q : Nat) :
    bitRead (bitWrite bbMax bb p v) q =
      if q = p then some v
      else if q / 8 < bb.size then bitRead bb q
      else if q / 8 < (grow bbMax (p / 8) bb).size then some false
      else none := by
  have hlt := lt_grow_size hp bb
  have hle := le_grow_size (p / 8) hsz
  unfold bitRead
  rw [readByte_bitWrite h, bitWrite_size]
  by_cases hq : q = p
  · subst hq
    have := getLsbD_setBit (readByte (grow bbMax (q / 8) bb).mem (q / 8)) (q % 8) (q % 8) v (by omega) (by omega)
    simp [this, show ¬ (q / 8 ≥ (grow bbMax (q / 8) bb).size) by omega]
  · rw [if_neg hq]
    by_cases hin : q / 8 ≥ (grow bbMax (p / 8) bb).size
    · simp [hin, show ¬ q / 8 < bb.size by omega, show ¬ q / 8 < (grow bbMax (p / 8) bb).size by omega]
    · rw [if_neg hin]
      have hbit : ((if q / 8 = p / 8 then setBit (readByte (grow bbMax (p / 8) bb).mem (p / 8)) (p % 8) v
          else readByte (grow bbMax (p / 8) bb).mem (q / 8))).getLsbD (q % 8) =
          (readByte (grow bbMax (p / 8) bb).mem (q / 8)).getLsbD (q % 8) := by
        by_cases hb : q / 8 = p / 8
        · rw [if_pos hb, getLsbD_setBit _ _ _ _ (by omega) (by omega), if_neg (by omega), hb]
        · rw [if_neg hb]
      rw [hbit, readByte_grow]
      by_cases hs : q / 8 < bb.size
      · simp [hs]
      · by_cases hpb : p / 8 < bb.size
        · have : (grow bbMax (p / 8) bb).size = bb.size := by unfold grow; rw [if_neg (by omega)]
          omega
        · rw [if_neg (by omega), if_neg hs, if_pos (by omega)]
          simp

/-! ### The invariant of the buffer -/

theorem BufferInv.finalSize_le {bbMax : Nat} {b : BitBuffer} (h : BufferInv bbMax b) : finalSize b ≤ b.size := by
  unfold finalSize
  split
  · next hv => exact h.hwm_lt hv
  · exact Nat.zero_le _

theorem bufferInv_fresh (bbMax : Nat) : BufferInv bbMax BitBuffer.fresh where
  canonical := rfl
  size_le := Nat.zero_le _
  hwm_lt := by intro h; cases h
  hwm_zero := fun _ => rfl
  zero_above := fun _ _ => rfl

theorem BufferInv.advanceCursor {bbMax : Nat} {b : BitBuffer} (h : BufferInv bbMax b) :
    BufferInv bbMax (advanceCursor b) :=
  ⟨h.canonical, h.size_le, h.hwm_lt, h.hwm_zero, h.zero_above⟩

theorem BufferInv.setCursor {bbMax : Nat} {b : BitBuffer} (h : BufferInv bbMax b) (c : BitVec 32) :
    BufferInv bbMax { b with cursor := c } :=
  ⟨h.canonical, h.size_le, h.hwm_lt, h.hwm_zero, h.zero_above⟩

theorem BufferInv.bitWrite {bbMax : Nat} {b : BitBuffer} (h : BufferInv bbMax b) {p : Nat} (hp : p / 8 < bbMax)
    (v : Bool) : BufferInv bbMax (bitWrite bbMax b p v) where
  canonical := by
    simp only [Machine.bitWrite, touch_mem]
    exact Memory.wf_writeByte (Memory.wf_grow h.canonical) _ _
  size_le := by rw [bitWrite_size]; exact grow_size_le _ h.size_le
  hwm_lt := by
    intro _
    have h1 := lt_grow_size hp b
    have h2 := le_grow_size (p / 8) h.size_le
    rw [bitWrite_size, (bitWrite_hwm bbMax b p v).2]
    split
    · exact h1
    · next hn =>
      have := h.hwm_lt (by simpa using fun e => hn (.inl e))
      omega
  hwm_zero := by intro hf; rw [(bitWrite_hwm bbMax b p v).1] at hf; cases hf
  zero_above := by
    intro a ha
    have hf : finalSize (Machine.bitWrite bbMax b p v) = (Machine.bitWrite bbMax b p v).hwm + 1 := by
      unfold finalSize; rw [if_pos (bitWrite_hwm bbMax b p v).1]
    rw [hf, (bitWrite_hwm bbMax b p v).2] at ha
    have hmax : a ≠ p / 8 ∧ finalSize b ≤ a := by
      unfold finalSize
      split at ha
      · next hc =>
        refine ⟨by omega, ?_⟩
        split
        · next hv => rcases hc with hc | hc <;> [simp [hv] at hc; omega]
        · exact Nat.zero_le _
      · next hc =>
        have hc' := not_or.mp hc
        refine ⟨by omega, ?_⟩
        split <;> omega
    rw [readByte_bitWrite h.canonical, if_neg hmax.1, readByte_grow, h.zero_above a hmax.2, ite_self]

theorem BufferInv.bitWriteNext {bbMax : Nat} {b : BitBuffer} (h : BufferInv bbMax b)
    (hp : b.cursor.toNat / 8 < bbMax) (v : Bool) : BufferInv bbMax (bitWriteNext bbMax b v) :=
  (h.bitWrite hp v).setCursor _

/-- The cursor moves on by one without wrapping (00_scope.md R14 (a)). -/
theorem cursor_add_one {c : BitVec 32} (h : c.toNat ≠ Config.lastPosition) : (c + 1).toNat = c.toNat + 1 := by
  have := c.isLt
  simp only [Config.lastPosition] at h
  rw [BitVec.toNat_add]
  simp
  omega

theorem bitWriteNext_cursor {bbMax : Nat} {b : BitBuffer} (h : b.cursor.toNat ≠ Config.lastPosition) (v : Bool) :
    (bitWriteNext bbMax b v).cursor.toNat = b.cursor.toNat + 1 := cursor_add_one h

theorem bitRead_bitWriteNext (bbMax : Nat) (b : BitBuffer) (v : Bool) (q : Nat) :
    bitRead (bitWriteNext bbMax b v) q = bitRead (bitWrite bbMax b b.cursor.toNat v) q := rfl

/-- Writing bits at the cursor, within the position range and the capacity: the invariant is kept, the cursor
moves by their number, each bit stands at its position, and every other bit that existed is unchanged. -/
theorem bitWriteAll_spec {bbMax : Nat} : ∀ {b : BitBuffer} (bits : List Bool), BufferInv bbMax b →
    b.cursor.toNat + bits.length ≤ Config.lastPosition →
    (bits ≠ [] → (b.cursor.toNat + bits.length - 1) / 8 < bbMax) →
    BufferInv bbMax (bitWriteAll bbMax b bits) ∧
    (bitWriteAll bbMax b bits).cursor.toNat = b.cursor.toNat + bits.length ∧
    b.size ≤ (bitWriteAll bbMax b bits).size ∧
    (∀ q, q / 8 < (bitWriteAll bbMax b bits).size → bitRead (bitWriteAll bbMax b bits) q =
      some (if b.cursor.toNat ≤ q ∧ q < b.cursor.toNat + bits.length then bits.getD (q - b.cursor.toNat) false
        else (bitRead b q).getD false)) ∧
    (bits ≠ [] → (b.cursor.toNat + bits.length - 1) / 8 < (bitWriteAll bbMax b bits).size)
  | b, [], h, _, _ => by
    refine ⟨h, rfl, Nat.le_refl _, ?_, fun hn => absurd rfl hn⟩
    intro q hq
    have hq' : q / 8 < b.size := hq
    rw [if_neg (by simp)]
    change bitRead b q = _
    unfold bitRead
    rw [if_neg (by omega)]
    rfl
  | b, v :: rest, h, hc, hb => by
    simp only [List.length_cons] at hc hb
    have hb' := hb (by simp)
    have hb0 : b.cursor.toNat / 8 < bbMax :=
      Nat.lt_of_le_of_lt (Nat.div_le_div_right (by omega)) hb'
    have hne : b.cursor.toNat ≠ Config.lastPosition := by omega
    have hcur := bitWriteNext_cursor (bbMax := bbMax) hne v
    have ih := bitWriteAll_spec (bbMax := bbMax) (b := bitWriteNext bbMax b v) rest (h.bitWriteNext hb0 v)
      (by rw [hcur]; omega) (by
        intro hr
        rw [hcur]
        have : b.cursor.toNat + 1 + rest.length - 1 = b.cursor.toNat + (rest.length + 1) - 1 := by omega
        rw [this]; exact hb')
    have hfold : bitWriteAll bbMax b (v :: rest) = bitWriteAll bbMax (bitWriteNext bbMax b v) rest := rfl
    rw [hfold]
    rw [hcur] at ih
    obtain ⟨i1, i2, i3, i4, i5⟩ := ih
    have hsz : (bitWriteNext bbMax b v).size = (grow bbMax (b.cursor.toNat / 8) b).size := bitWrite_size _ _ _ _
    have hgr := lt_grow_size hb0 b
    have hgl := le_grow_size (b.cursor.toNat / 8) h.size_le
    refine ⟨i1, by simp only [List.length_cons]; omega, by omega, ?_, ?_⟩
    · intro q hq
      rw [i4 q hq]
      simp only [List.length_cons]
      rw [bitRead_bitWriteNext, bitRead_bitWrite h.canonical hb0 h.size_le]
      by_cases h1 : q = b.cursor.toNat
      · subst h1
        simp
      · by_cases h2 : b.cursor.toNat + 1 ≤ q ∧ q < b.cursor.toNat + 1 + rest.length
        · rw [if_pos h2, if_pos (by omega)]
          have : q - b.cursor.toNat = (q - (b.cursor.toNat + 1)) + 1 := by omega
          rw [this]; rfl
        · rw [if_neg h1, if_neg h2,
            if_neg (show ¬ (b.cursor.toNat ≤ q ∧ q < b.cursor.toNat + (rest.length + 1)) by omega)]
          split
          · rfl
          · next h3 =>
            have hnone : bitRead b q = none := by unfold bitRead; rw [if_pos (by omega)]
            rw [hnone]
            split <;> rfl
    · intro _
      simp only [List.length_cons]
      by_cases hr : rest = []
      · subst hr
        simp only [List.length_nil]
        have : b.cursor.toNat + (0 + 1) - 1 = b.cursor.toNat := by omega
        rw [this]; omega
      · have := i5 hr
        have e : b.cursor.toNat + 1 + rest.length - 1 = b.cursor.toNat + (rest.length + 1) - 1 := by omega
        rw [e] at this; exact this

end Sys2Proof.Machine
end

