-- ==== Sys2Proof/Laws/State.lean ====
section
/-! SUPPORT. What each update of the state leaves in each field, so that no proof unfolds a record update. -/

namespace Sys2Proof.Machine

variable (s : State)

/-! `State.setBb` -/

@[simp] theorem setBb_bb (b : BitBuffer) : (s.setBb b).bb = b := rfl
@[simp] theorem setBb_codes (b : BitBuffer) : (s.setBb b).codes = s.codes := rfl
@[simp] theorem setBb_freq (b : BitBuffer) : (s.setBb b).freq = s.freq := rfl
@[simp] theorem setBb_tree (b : BitBuffer) : (s.setBb b).tree = s.tree := rfl
@[simp] theorem setBb_ibuf (b : BitBuffer) : (s.setBb b).ibuf = s.ibuf := rfl
@[simp] theorem setBb_ipos (b : BitBuffer) : (s.setBb b).ipos = s.ipos := rfl
@[simp] theorem setBb_obuf (b : BitBuffer) : (s.setBb b).obuf = s.obuf := rfl
@[simp] theorem setBb_dstate (b : BitBuffer) : (s.setBb b).dstate = s.dstate := rfl
@[simp] theorem setBb_wpath (b : BitBuffer) : (s.setBb b).wpath = s.wpath := rfl
@[simp] theorem setBb_status (b : BitBuffer) : (s.setBb b).status = s.status := rfl
@[simp] theorem setBb_caps (b : BitBuffer) : (s.setBb b).caps = s.caps := rfl
@[simp] theorem setBb_commands (b : BitBuffer) : (s.setBb b).commands = s.commands := rfl
@[simp] theorem setBb_responses (b : BitBuffer) : (s.setBb b).responses = s.responses := rfl

/-! `State.setCode` -/

@[simp] theorem setCode_bb (r : CodeReg) (c : Code) : (s.setCode r c).bb = s.bb := rfl
@[simp] theorem setCode_codes (r : CodeReg) (c : Code) : (s.setCode r c).codes = s.codes.set r.val c r.isLt := rfl
@[simp] theorem setCode_freq (r : CodeReg) (c : Code) : (s.setCode r c).freq = s.freq := rfl
@[simp] theorem setCode_tree (r : CodeReg) (c : Code) : (s.setCode r c).tree = s.tree := rfl
@[simp] theorem setCode_ibuf (r : CodeReg) (c : Code) : (s.setCode r c).ibuf = s.ibuf := rfl
@[simp] theorem setCode_ipos (r : CodeReg) (c : Code) : (s.setCode r c).ipos = s.ipos := rfl
@[simp] theorem setCode_obuf (r : CodeReg) (c : Code) : (s.setCode r c).obuf = s.obuf := rfl
@[simp] theorem setCode_dstate (r : CodeReg) (c : Code) : (s.setCode r c).dstate = s.dstate := rfl
@[simp] theorem setCode_wpath (r : CodeReg) (c : Code) : (s.setCode r c).wpath = s.wpath := rfl
@[simp] theorem setCode_status (r : CodeReg) (c : Code) : (s.setCode r c).status = s.status := rfl
@[simp] theorem setCode_caps (r : CodeReg) (c : Code) : (s.setCode r c).caps = s.caps := rfl
@[simp] theorem setCode_commands (r : CodeReg) (c : Code) : (s.setCode r c).commands = s.commands := rfl
@[simp] theorem setCode_responses (r : CodeReg) (c : Code) : (s.setCode r c).responses = s.responses := rfl

/-! `State.setFreq` -/

@[simp] theorem setFreq_bb (f : Vector Word 256) : (s.setFreq f).bb = s.bb := rfl
@[simp] theorem setFreq_codes (f : Vector Word 256) : (s.setFreq f).codes = s.codes := rfl
@[simp] theorem setFreq_freq (f : Vector Word 256) : (s.setFreq f).freq = f := rfl
@[simp] theorem setFreq_tree (f : Vector Word 256) : (s.setFreq f).tree = s.tree := rfl
@[simp] theorem setFreq_ibuf (f : Vector Word 256) : (s.setFreq f).ibuf = s.ibuf := rfl
@[simp] theorem setFreq_ipos (f : Vector Word 256) : (s.setFreq f).ipos = s.ipos := rfl
@[simp] theorem setFreq_obuf (f : Vector Word 256) : (s.setFreq f).obuf = s.obuf := rfl
@[simp] theorem setFreq_dstate (f : Vector Word 256) : (s.setFreq f).dstate = s.dstate := rfl
@[simp] theorem setFreq_wpath (f : Vector Word 256) : (s.setFreq f).wpath = s.wpath := rfl
@[simp] theorem setFreq_status (f : Vector Word 256) : (s.setFreq f).status = s.status := rfl
@[simp] theorem setFreq_caps (f : Vector Word 256) : (s.setFreq f).caps = s.caps := rfl
@[simp] theorem setFreq_commands (f : Vector Word 256) : (s.setFreq f).commands = s.commands := rfl
@[simp] theorem setFreq_responses (f : Vector Word 256) : (s.setFreq f).responses = s.responses := rfl

/-! `State.setWalk` -/

@[simp] theorem setWalk_bb (d : DState) (p : List Bool) : (s.setWalk d p).bb = s.bb := rfl
@[simp] theorem setWalk_codes (d : DState) (p : List Bool) : (s.setWalk d p).codes = s.codes := rfl
@[simp] theorem setWalk_freq (d : DState) (p : List Bool) : (s.setWalk d p).freq = s.freq := rfl
@[simp] theorem setWalk_tree (d : DState) (p : List Bool) : (s.setWalk d p).tree = s.tree := rfl
@[simp] theorem setWalk_ibuf (d : DState) (p : List Bool) : (s.setWalk d p).ibuf = s.ibuf := rfl
@[simp] theorem setWalk_ipos (d : DState) (p : List Bool) : (s.setWalk d p).ipos = s.ipos := rfl
@[simp] theorem setWalk_obuf (d : DState) (p : List Bool) : (s.setWalk d p).obuf = s.obuf := rfl
@[simp] theorem setWalk_dstate (d : DState) (p : List Bool) : (s.setWalk d p).dstate = d := rfl
@[simp] theorem setWalk_wpath (d : DState) (p : List Bool) : (s.setWalk d p).wpath = p := rfl
@[simp] theorem setWalk_status (d : DState) (p : List Bool) : (s.setWalk d p).status = s.status := rfl
@[simp] theorem setWalk_caps (d : DState) (p : List Bool) : (s.setWalk d p).caps = s.caps := rfl
@[simp] theorem setWalk_commands (d : DState) (p : List Bool) : (s.setWalk d p).commands = s.commands := rfl
@[simp] theorem setWalk_responses (d : DState) (p : List Bool) : (s.setWalk d p).responses = s.responses := rfl

/-! `State.setTree` -/

@[simp] theorem setTree_bb (t : HuffTree) : (s.setTree t).bb = s.bb := rfl
@[simp] theorem setTree_codes (t : HuffTree) : (s.setTree t).codes = s.codes := rfl
@[simp] theorem setTree_freq (t : HuffTree) : (s.setTree t).freq = s.freq := rfl
@[simp] theorem setTree_tree (t : HuffTree) : (s.setTree t).tree = t := rfl
@[simp] theorem setTree_ibuf (t : HuffTree) : (s.setTree t).ibuf = s.ibuf := rfl
@[simp] theorem setTree_ipos (t : HuffTree) : (s.setTree t).ipos = s.ipos := rfl
@[simp] theorem setTree_obuf (t : HuffTree) : (s.setTree t).obuf = s.obuf := rfl
@[simp] theorem setTree_dstate (t : HuffTree) : (s.setTree t).dstate = s.dstate := rfl
@[simp] theorem setTree_wpath (t : HuffTree) : (s.setTree t).wpath = s.wpath := rfl
@[simp] theorem setTree_status (t : HuffTree) : (s.setTree t).status = s.status := rfl
@[simp] theorem setTree_caps (t : HuffTree) : (s.setTree t).caps = s.caps := rfl
@[simp] theorem setTree_commands (t : HuffTree) : (s.setTree t).commands = s.commands := rfl
@[simp] theorem setTree_responses (t : HuffTree) : (s.setTree t).responses = s.responses := rfl

/-! `State.setIbuf` -/

@[simp] theorem setIbuf_bb (b : List Byte) : (s.setIbuf b).bb = s.bb := rfl
@[simp] theorem setIbuf_codes (b : List Byte) : (s.setIbuf b).codes = s.codes := rfl
@[simp] theorem setIbuf_freq (b : List Byte) : (s.setIbuf b).freq = s.freq := rfl
@[simp] theorem setIbuf_tree (b : List Byte) : (s.setIbuf b).tree = s.tree := rfl
@[simp] theorem setIbuf_ibuf (b : List Byte) : (s.setIbuf b).ibuf = b := rfl
@[simp] theorem setIbuf_ipos (b : List Byte) : (s.setIbuf b).ipos = s.ipos := rfl
@[simp] theorem setIbuf_obuf (b : List Byte) : (s.setIbuf b).obuf = s.obuf := rfl
@[simp] theorem setIbuf_dstate (b : List Byte) : (s.setIbuf b).dstate = s.dstate := rfl
@[simp] theorem setIbuf_wpath (b : List Byte) : (s.setIbuf b).wpath = s.wpath := rfl
@[simp] theorem setIbuf_status (b : List Byte) : (s.setIbuf b).status = s.status := rfl
@[simp] theorem setIbuf_caps (b : List Byte) : (s.setIbuf b).caps = s.caps := rfl
@[simp] theorem setIbuf_commands (b : List Byte) : (s.setIbuf b).commands = s.commands := rfl
@[simp] theorem setIbuf_responses (b : List Byte) : (s.setIbuf b).responses = s.responses := rfl

/-! `State.setIpos` -/

@[simp] theorem setIpos_bb (p : Nat) : (s.setIpos p).bb = s.bb := rfl
@[simp] theorem setIpos_codes (p : Nat) : (s.setIpos p).codes = s.codes := rfl
@[simp] theorem setIpos_freq (p : Nat) : (s.setIpos p).freq = s.freq := rfl
@[simp] theorem setIpos_tree (p : Nat) : (s.setIpos p).tree = s.tree := rfl
@[simp] theorem setIpos_ibuf (p : Nat) : (s.setIpos p).ibuf = s.ibuf := rfl
@[simp] theorem setIpos_ipos (p : Nat) : (s.setIpos p).ipos = p := rfl
@[simp] theorem setIpos_obuf (p : Nat) : (s.setIpos p).obuf = s.obuf := rfl
@[simp] theorem setIpos_dstate (p : Nat) : (s.setIpos p).dstate = s.dstate := rfl
@[simp] theorem setIpos_wpath (p : Nat) : (s.setIpos p).wpath = s.wpath := rfl
@[simp] theorem setIpos_status (p : Nat) : (s.setIpos p).status = s.status := rfl
@[simp] theorem setIpos_caps (p : Nat) : (s.setIpos p).caps = s.caps := rfl
@[simp] theorem setIpos_commands (p : Nat) : (s.setIpos p).commands = s.commands := rfl
@[simp] theorem setIpos_responses (p : Nat) : (s.setIpos p).responses = s.responses := rfl

/-! `State.setObuf` -/

@[simp] theorem setObuf_bb (b : List Byte) : (s.setObuf b).bb = s.bb := rfl
@[simp] theorem setObuf_codes (b : List Byte) : (s.setObuf b).codes = s.codes := rfl
@[simp] theorem setObuf_freq (b : List Byte) : (s.setObuf b).freq = s.freq := rfl
@[simp] theorem setObuf_tree (b : List Byte) : (s.setObuf b).tree = s.tree := rfl
@[simp] theorem setObuf_ibuf (b : List Byte) : (s.setObuf b).ibuf = s.ibuf := rfl
@[simp] theorem setObuf_ipos (b : List Byte) : (s.setObuf b).ipos = s.ipos := rfl
@[simp] theorem setObuf_obuf (b : List Byte) : (s.setObuf b).obuf = b := rfl
@[simp] theorem setObuf_dstate (b : List Byte) : (s.setObuf b).dstate = s.dstate := rfl
@[simp] theorem setObuf_wpath (b : List Byte) : (s.setObuf b).wpath = s.wpath := rfl
@[simp] theorem setObuf_status (b : List Byte) : (s.setObuf b).status = s.status := rfl
@[simp] theorem setObuf_caps (b : List Byte) : (s.setObuf b).caps = s.caps := rfl
@[simp] theorem setObuf_commands (b : List Byte) : (s.setObuf b).commands = s.commands := rfl
@[simp] theorem setObuf_responses (b : List Byte) : (s.setObuf b).responses = s.responses := rfl

/-! `State.answer` -/

@[simp] theorem answer_bb (r : Response) : (s.answer r).bb = s.bb := rfl
@[simp] theorem answer_codes (r : Response) : (s.answer r).codes = s.codes := rfl
@[simp] theorem answer_freq (r : Response) : (s.answer r).freq = s.freq := rfl
@[simp] theorem answer_tree (r : Response) : (s.answer r).tree = s.tree := rfl
@[simp] theorem answer_ibuf (r : Response) : (s.answer r).ibuf = s.ibuf := rfl
@[simp] theorem answer_ipos (r : Response) : (s.answer r).ipos = s.ipos := rfl
@[simp] theorem answer_obuf (r : Response) : (s.answer r).obuf = s.obuf := rfl
@[simp] theorem answer_dstate (r : Response) : (s.answer r).dstate = s.dstate := rfl
@[simp] theorem answer_wpath (r : Response) : (s.answer r).wpath = s.wpath := rfl
@[simp] theorem answer_status (r : Response) : (s.answer r).status = r.status := rfl
@[simp] theorem answer_caps (r : Response) : (s.answer r).caps = s.caps := rfl
@[simp] theorem answer_commands (r : Response) : (s.answer r).commands = s.commands := rfl
@[simp] theorem answer_responses (r : Response) : (s.answer r).responses = s.responses ++ [r] := rfl

/-! `State.setCommands` -/

@[simp] theorem setCommands_bb (c : List CommandWord) : (s.setCommands c).bb = s.bb := rfl
@[simp] theorem setCommands_codes (c : List CommandWord) : (s.setCommands c).codes = s.codes := rfl
@[simp] theorem setCommands_freq (c : List CommandWord) : (s.setCommands c).freq = s.freq := rfl
@[simp] theorem setCommands_tree (c : List CommandWord) : (s.setCommands c).tree = s.tree := rfl
@[simp] theorem setCommands_ibuf (c : List CommandWord) : (s.setCommands c).ibuf = s.ibuf := rfl
@[simp] theorem setCommands_ipos (c : List CommandWord) : (s.setCommands c).ipos = s.ipos := rfl
@[simp] theorem setCommands_obuf (c : List CommandWord) : (s.setCommands c).obuf = s.obuf := rfl
@[simp] theorem setCommands_dstate (c : List CommandWord) : (s.setCommands c).dstate = s.dstate := rfl
@[simp] theorem setCommands_wpath (c : List CommandWord) : (s.setCommands c).wpath = s.wpath := rfl
@[simp] theorem setCommands_status (c : List CommandWord) : (s.setCommands c).status = s.status := rfl
@[simp] theorem setCommands_caps (c : List CommandWord) : (s.setCommands c).caps = s.caps := rfl
@[simp] theorem setCommands_commands (c : List CommandWord) : (s.setCommands c).commands = c := rfl
@[simp] theorem setCommands_responses (c : List CommandWord) : (s.setCommands c).responses = s.responses := rfl

/-! Updates that meet -/

@[simp] theorem setBb_setBb (a b : BitBuffer) : (s.setBb a).setBb b = s.setBb b := rfl
@[simp] theorem setObuf_setObuf (a b : List Byte) : (s.setObuf a).setObuf b = s.setObuf b := rfl
@[simp] theorem setWalk_setWalk (d e : DState) (p q : List Bool) : (s.setWalk d p).setWalk e q = s.setWalk e q := rfl
@[simp] theorem setIpos_setIpos (p q : Nat) : (s.setIpos p).setIpos q = s.setIpos q := rfl
@[simp] theorem setBb_self : s.setBb s.bb = s := rfl
@[simp] theorem setObuf_self : s.setObuf s.obuf = s := rfl

end Sys2Proof.Machine
end

