-- ==== Sys2Proof/Laws/Ops.lean ====
section
/-! SUPPORT. How a command ends: what `respond`, `raise` and `complete` give, and that every command answers. -/

namespace Sys2Proof.Machine

@[simp] theorem respond_state (d : Word) (s : State) : (respond d s).state = s := rfl
@[simp] theorem respond_status (d : Word) (s : State) : (respond d s).status = .ok := rfl
@[simp] theorem respond_data (d : Word) (s : State) : (respond d s).data = d := rfl
@[simp] theorem raiseWith_state (e : Status) (d : Word) (s : State) : (raiseWith e d s).state = s := rfl
@[simp] theorem raiseWith_status (e : Status) (d : Word) (s : State) : (raiseWith e d s).status = e := rfl
@[simp] theorem raiseWith_data (e : Status) (d : Word) (s : State) : (raiseWith e d s).data = d := rfl
@[simp] theorem raise_state (e : Status) (s : State) : (raise e s).state = s := rfl
@[simp] theorem raise_status (e : Status) (s : State) : (raise e s).status = e := rfl
@[simp] theorem raise_data (e : Status) (s : State) : (raise e s).data = 0 := rfl

@[simp] theorem complete_respond (d : Word) (s : State) : complete (respond d s) = .next (s.answer ⟨.ok, d⟩) := rfl
@[simp] theorem complete_raise (e : Status) (s : State) : complete (raise e s) = .next (s.answer ⟨e, 0⟩) := rfl
@[simp] theorem complete_raiseWith (e : Status) (d : Word) (s : State) :
    complete (raiseWith e d s) = .next (s.answer ⟨e, d⟩) := rfl

/-- A completed command always answers a next state. -/
theorem complete_eq (f : Finished) : complete f = .next (f.state.answer ⟨f.status, f.data⟩) := rfl

theorem complete_next {f : Finished} {t : State} (h : complete f = .next t) :
    t = f.state.answer ⟨f.status, f.data⟩ := by
  rw [complete_eq] at h; injection h with h; exact h.symm

/-- A step of a pipeline that ended well hands its state to the next. -/
theorem andThen_ok {f : Finished} {g : State → Finished} (h : f.status = .ok) : andThen f g = g f.state := by
  unfold andThen; rw [h]

/-- A step of a pipeline that failed is the end of it. -/
theorem andThen_error {f : Finished} {g : State → Finished} (h : f.status ≠ .ok) : andThen f g = f := by
  unfold andThen; split <;> simp_all

@[simp] theorem andThen_respond (d : Word) (s : State) (g : State → Finished) : andThen (respond d s) g = g s := rfl

/-- What `andThen` can be: the failure of the first step, or the second step from where the first left off. -/
theorem andThen_cases (f : Finished) (g : State → Finished) :
    (f.status ≠ .ok ∧ andThen f g = f) ∨ (f.status = .ok ∧ andThen f g = g f.state) := by
  by_cases h : f.status = .ok
  · exact .inr ⟨h, andThen_ok h⟩
  · exact .inl ⟨h, andThen_error h⟩

/-- A property that the second step keeps and that the first step ends with holds at the end. -/
theorem andThen_state_induction {P : State → Prop} {f : Finished} {g : State → Finished}
    (hf : P f.state) (hg : ∀ s, P s → P (g s).state) : P (andThen f g).state := by
  rcases andThen_cases f g with ⟨_, h⟩ | ⟨_, h⟩ <;> rw [h]
  · exact hf
  · exact hg _ hf

end Sys2Proof.Machine
end

