-- ==== Sys2Proof/Laws/Code.lean ====
section
/-! SUPPORT. Codes: appending a bit, the canonical form, and reading a code register after a write. -/

namespace Sys2Proof.Machine

@[simp] theorem codeBits_length (c : Code) : (codeBits c).length = c.len := by simp [codeBits]

/-- The bits of a code by index. -/
theorem codeBits_getD (c : Code) (i : Nat) (h : i < c.len) : (codeBits c).getD i false = c.bits.getLsbD i := by
  simp [codeBits, h]

/-- The canonical form, bit by bit (10_state.md R25). -/
theorem codeWf_iff (c : Code) : codeWf c = true ↔ c.len ≤ 32 ∧ ∀ i, c.len ≤ i → c.bits.getLsbD i = false := by
  unfold codeWf
  simp only [Bool.and_eq_true, decide_eq_true_eq]
  refine and_congr_right fun _ => ⟨fun h i hi => ?_, fun h => ?_⟩
  · have := congrArg (fun b => BitVec.getLsbD b (i - c.len)) h
    simpa [show c.len + (i - c.len) = i by omega] using this
  · apply BitVec.eq_of_getLsbD_eq
    intro i _
    simp [h (c.len + i) (by omega)]

theorem codeWf_empty : codeWf Code.empty = true := by decide

@[simp] theorem codeBits_empty : codeBits Code.empty = [] := rfl

@[simp] theorem appendBit_len (c : Code) (v : Bool) : (appendBit c v).len = c.len + 1 := rfl

/-- The new bit takes the next free index and the others keep theirs (41_vlc.md R160). -/
theorem getLsbD_appendBit {c : Code} (h : codeWf c = true) (hl : c.len < 32) (v : Bool) (i : Nat) :
    (appendBit c v).bits.getLsbD i = if i = c.len then v else c.bits.getLsbD i := by
  obtain ⟨_, hz⟩ := (codeWf_iff c).mp h
  unfold appendBit
  simp only [BitVec.getLsbD_or, BitVec.getLsbD_shiftLeft, BitVec.getLsbD_setWidth, BitVec.getLsbD_ofBool]
  by_cases hi : i = c.len
  · subst hi
    rw [hz c.len (Nat.le_refl _)]
    simp [hl]
  · by_cases h1 : i < c.len
    · simp [hi, h1]
    · have : i - c.len ≠ 0 := by omega
      simp [hi, this]

theorem codeWf_appendBit {c : Code} (h : codeWf c = true) (hl : c.len < 32) (v : Bool) :
    codeWf (appendBit c v) = true := by
  rw [codeWf_iff]
  refine ⟨by simp; omega, fun i hi => ?_⟩
  simp only [appendBit_len] at hi
  rw [getLsbD_appendBit h hl, if_neg (by omega)]
  exact ((codeWf_iff c).mp h).2 i (by omega)

/-- Appending adds one bit at the end (41_vlc.md R160). -/
theorem codeBits_appendBit {c : Code} (h : codeWf c = true) (hl : c.len < 32) (v : Bool) :
    codeBits (appendBit c v) = codeBits c ++ [v] := by
  unfold codeBits
  rw [appendBit_len, List.range_succ, List.map_append]
  congr 1
  · apply List.map_congr_left
    intro i hi
    rw [getLsbD_appendBit h hl, if_neg]
    have := List.mem_range.mp hi
    omega
  · simp [getLsbD_appendBit h hl]

/-- "two registers hold the same code exactly when their two fields are equal" (10_state.md R25). -/
theorem code_eq_of_codeBits {c d : Code} (hc : codeWf c = true) (hd : codeWf d = true)
    (h : codeBits c = codeBits d) : c = d := by
  have hlen : c.len = d.len := by rw [← codeBits_length c, ← codeBits_length d, h]
  have hbits : c.bits = d.bits := by
    apply BitVec.eq_of_getLsbD_eq
    intro i _
    by_cases hi : i < c.len
    · rw [← codeBits_getD c i hi, ← codeBits_getD d i (by omega), h]
    · rw [((codeWf_iff c).mp hc).2 i (by omega), ((codeWf_iff d).mp hd).2 i (by omega)]
  cases c; cases d; simp_all

/-- A register read after a register write: "writing one register never changes another" (10_state.md R25). -/
theorem readCode_setCode (s : State) (r q : CodeReg) (c : Code) :
    readCode (s.setCode r c) q = if q = r then c else readCode s q := by
  unfold readCode State.setCode
  by_cases h : q = r
  · subst h; simp
  · have : r.val ≠ q.val := fun e => h (Fin.ext e.symm)
    simp [h, this]

@[simp] theorem readCode_setBb (s : State) (b : BitBuffer) (r : CodeReg) : readCode (s.setBb b) r = readCode s r := rfl
@[simp] theorem readCode_setFreq (s : State) (f : Vector Word 256) (r : CodeReg) :
    readCode (s.setFreq f) r = readCode s r := rfl
@[simp] theorem readCode_setWalk (s : State) (d : DState) (p : List Bool) (r : CodeReg) :
    readCode (s.setWalk d p) r = readCode s r := rfl
@[simp] theorem readCode_setTree (s : State) (t : HuffTree) (r : CodeReg) :
    readCode (s.setTree t) r = readCode s r := rfl
@[simp] theorem readCode_setIbuf (s : State) (b : List Byte) (r : CodeReg) :
    readCode (s.setIbuf b) r = readCode s r := rfl
@[simp] theorem readCode_setIpos (s : State) (p : Nat) (r : CodeReg) : readCode (s.setIpos p) r = readCode s r := rfl
@[simp] theorem readCode_setObuf (s : State) (b : List Byte) (r : CodeReg) :
    readCode (s.setObuf b) r = readCode s r := rfl
@[simp] theorem readCode_answer (s : State) (a : Response) (r : CodeReg) :
    readCode (s.answer a) r = readCode s r := rfl
@[simp] theorem readCode_setCommands (s : State) (c : List CommandWord) (r : CodeReg) :
    readCode (s.setCommands c) r = readCode s r := rfl

/-- A counter read after a counter write (10_state.md R29). -/
theorem readFreq_writeFreq (f : Vector Word 256) (x y : Byte) (v : Word) :
    readFreq (writeFreq f x v) y = if y = x then v else readFreq f y := by
  unfold readFreq writeFreq
  by_cases h : y = x
  · subst h; simp
  · have : x.toNat ≠ y.toNat := fun e => h (BitVec.eq_of_toNat_eq e.symm)
    simp [h, this]

end Sys2Proof.Machine
end

