-- ==== Sys2Proof/Laws/Tree.lean ====
section
/-! SUPPORT. Trees: nodes and paths, the leaves, and what the symbol search finds. -/

namespace Sys2Proof.Machine

@[simp] theorem isAbsent_absent : isAbsent .absent = true := rfl
@[simp] theorem isAbsent_node (x : Byte) (n : Word) (l r : HuffTree) : isAbsent (.node x n l r) = false := rfl

theorem isAbsent_iff {t : HuffTree} : isAbsent t = true ↔ t = .absent := by cases t <;> simp

@[simp] theorem nodeAt_nil (t : HuffTree) : nodeAt t [] = t := rfl
@[simp] theorem nodeAt_cons (t : HuffTree) (v : Bool) (p : List Bool) : nodeAt t (v :: p) = nodeAt (childOf t v) p := rfl

@[simp] theorem nodeAt_absent : ∀ p, nodeAt .absent p = .absent
  | [] => rfl
  | _ :: p => nodeAt_absent p

theorem nodeAt_append : ∀ (p q : List Bool) (t : HuffTree), nodeAt t (p ++ q) = nodeAt (nodeAt t p) q
  | [], _, _ => rfl
  | v :: p, q, t => nodeAt_append p q (childOf t v)

theorem nodeAt_snoc (t : HuffTree) (p : List Bool) (v : Bool) : nodeAt t (p ++ [v]) = childOf (nodeAt t p) v :=
  nodeAt_append p [v] t

theorem levelCount_le_nodeCount : ∀ t, levelCount t ≤ nodeCount t
  | .absent => Nat.le_refl 0
  | .node _ _ l r => by
    have hl := levelCount_le_nodeCount l
    have hr := levelCount_le_nodeCount r
    simp only [levelCount, nodeCount]
    omega

/-- A present node lies above the tree's lowest level. -/
theorem length_lt_levelCount : ∀ (p : List Bool) (t : HuffTree), isAbsent (nodeAt t p) = false → p.length < levelCount t
  | [], .absent, h => by simp at h
  | [], .node _ _ _ _, _ => by simp only [levelCount, List.length_nil]; omega
  | v :: p, .absent, h => by simp [childOf] at h
  | v :: p, .node x n l r, h => by
    have ih := length_lt_levelCount p (childOf (.node x n l r) v) h
    simp only [levelCount, List.length_cons]
    cases v <;> simp only [childOf, if_true, Bool.false_eq_true, if_false] at ih <;> omega

/-! ### Leaves -/

/-- A leaf and its path: the node at the path has the symbol and no children. -/
theorem nodeAt_of_mem_leafPaths : ∀ {t : HuffTree} {p : List Bool} {x : Byte}, (p, x) ∈ leafPaths t →
    ∃ n, nodeAt t p = .node x n .absent .absent
  | .absent, _, _, h => by simp [leafPaths] at h
  | .node s n l r, p, x, h => by
    unfold leafPaths at h
    split at h
    · next hc =>
      simp only [List.mem_singleton, Prod.mk.injEq] at h
      obtain ⟨rfl, rfl⟩ := h
      exact ⟨n, by rw [nodeAt_nil, isAbsent_iff.mp hc.1, isAbsent_iff.mp hc.2]⟩
    · rw [List.mem_append] at h
      rcases h with h | h <;> simp only [List.mem_map, Prod.mk.injEq, Prod.exists] at h
      · obtain ⟨q, y, hm, rfl, rfl⟩ := h
        exact nodeAt_of_mem_leafPaths (t := l) hm
      · obtain ⟨q, y, hm, rfl, rfl⟩ := h
        exact nodeAt_of_mem_leafPaths (t := r) hm

/-- On the way to a leaf every node is present and is no leaf. -/
theorem nodeAt_prefix_of_leaf {t : HuffTree} {p q : List Bool} {x : Byte} {n : Word} (hq : q ≠ [])
    (h : nodeAt t (p ++ q) = .node x n .absent .absent) :
    isAbsent (nodeAt t p) = false ∧ isLeaf (nodeAt t p) = false := by
  rw [nodeAt_append] at h
  cases hn : nodeAt t p with
  | absent => rw [hn, nodeAt_absent] at h; cases h
  | node y m l r =>
    refine ⟨rfl, ?_⟩
    rw [hn] at h
    cases q with
    | nil => exact absurd rfl hq
    | cons v q =>
      simp only [isLeaf, Bool.and_eq_false_iff]
      cases v
      · left
        cases l with
        | absent => simp [childOf] at h
        | node _ _ _ _ => rfl
      · right
        cases r with
        | absent => simp [childOf] at h
        | node _ _ _ _ => rfl

theorem leafPaths_length_lt {t : HuffTree} {p : List Bool} {x : Byte} (h : (p, x) ∈ leafPaths t) :
    p.length < levelCount t := by
  obtain ⟨n, hn⟩ := nodeAt_of_mem_leafPaths h
  exact length_lt_levelCount p t (by rw [hn]; rfl)

/-! ### The symbol search -/

/-- The first leaf, from left to right, that has the symbol or lies more than `32 - n` edges down: where a
search that has already descended `n` edges stops. -/
def firstStop (n : Nat) (x : Byte) (t : HuffTree) : Option (List Bool × Byte) :=
  (leafPaths t).find? fun q => decide (32 < n + q.1.length) || q.2 == x

/-- A present tree has a leaf. -/
theorem leafPaths_ne_nil : ∀ {t : HuffTree}, isAbsent t = false → leafPaths t ≠ []
  | .absent, h => by simp at h
  | .node s n l r, _ => by
    unfold leafPaths
    split
    · simp
    · next hc =>
      intro h
      rw [List.append_eq_nil_iff, List.map_eq_nil_iff, List.map_eq_nil_iff] at h
      cases hl : isAbsent l with
      | false => exact leafPaths_ne_nil hl h.1
      | true =>
        cases hr : isAbsent r with
        | false => exact leafPaths_ne_nil hr h.2
        | true => exact hc ⟨hl, hr⟩

/-- Below a node that is 32 edges down and has children, the first leaf is too deep. -/
theorem firstStop_deep {n : Nat} (hn : n = 32) (x : Byte) (v : Bool) {t : HuffTree} (ht : isAbsent t = false) :
    ∃ q, ((leafPaths t).map fun p => (v :: p.1, p.2)).find? (fun q => decide (32 < n + q.1.length) || q.2 == x) =
      some q ∧ 32 < n + q.1.length := by
  cases hl : leafPaths t with
  | nil => exact absurd hl (leafPaths_ne_nil ht)
  | cons q rest => exact ⟨(v :: q.1, q.2), by simp [hn], by simp [hn]⟩

theorem find?_under (n : Nat) (x : Byte) (v : Bool) (t : HuffTree) :
    ((leafPaths t).map fun p => (v :: p.1, p.2)).find? (fun q => decide (32 < n + q.1.length) || q.2 == x) =
      (firstStop (n + 1) x t).map fun p => (v :: p.1, p.2) := by
  rw [List.find?_map]
  unfold firstStop
  congr 2
  funext q
  simp only [Function.comp, List.length_cons]
  congr 2
  rw [Nat.add_assoc, Nat.add_comm 1]

/-- Where a lookup from a code of some length must end, given the leaf at which the search stops. -/
def LookupEnds (c : Code) : Option (List Bool × Byte) → Lookup → Prop
  | none, r => r = .notFound
  | some q, r =>
    if 32 < c.len + q.1.length then r = .overflow
    else ∃ d, r = .found d ∧ codeWf d = true ∧ codeBits d = codeBits c ++ q.1

/-- What the search from a node gives (42_tree.md R189, R190). -/
theorem searchFrom_spec (x : Byte) : ∀ (t : HuffTree) (c : Code), codeWf c = true →
    LookupEnds c (firstStop c.len x t) (searchFrom x t c)
  | .absent, c, _ => by simp [searchFrom, firstStop, leafPaths, LookupEnds]
  | .node s n l r, c, hc => by
    have hlen := ((codeWf_iff c).mp hc).1
    have hunder : ∀ (v : Bool) (t : HuffTree), c.len < 32 →
        LookupEnds (appendBit c v) (firstStop (c.len + 1) x t) (searchFrom x t (appendBit c v)) →
        LookupEnds c ((firstStop (c.len + 1) x t).map fun p => (v :: p.1, p.2)) (searchFrom x t (appendBit c v)) := by
      intro v t hlt h
      cases hf : firstStop (c.len + 1) x t with
      | none => rw [hf] at h; exact h
      | some q =>
        rw [hf] at h
        simp only [LookupEnds, Option.map_some, List.length_cons] at h ⊢
        rw [show c.len + (q.1.length + 1) = c.len + 1 + q.1.length by omega]
        split
        · next h1 => rw [if_pos (show 32 < (appendBit c v).len + q.1.length from h1)] at h; exact h
        · next h1 =>
          rw [if_neg (show ¬ 32 < (appendBit c v).len + q.1.length from h1)] at h
          obtain ⟨d, hd, hw, hb⟩ := h
          exact ⟨d, hd, hw, by rw [hb, codeBits_appendBit hc hlt]; simp⟩
    unfold searchFrom firstStop leafPaths
    by_cases hleaf : isAbsent l = true ∧ isAbsent r = true
    · rw [if_pos hleaf, if_pos hleaf]
      have h32 : ¬ 32 < c.len := by omega
      by_cases hs : s = x
      · rw [if_pos hs]
        simp only [List.find?_cons, List.length_nil, Nat.add_zero, h32, decide_false, Bool.false_or, hs, beq_self_eq_true]
        simp only [LookupEnds, List.length_nil, Nat.add_zero, h32, if_false]
        exact ⟨c, rfl, hc, by simp⟩
      · rw [if_neg hs]
        have : (s == x) = false := by simpa using hs
        simp [LookupEnds, h32, this]
    · rw [if_neg hleaf, if_neg hleaf, List.find?_append]
      by_cases hm : c.len = Config.codeMax
      · -- the first descent fails
        have hov : ∀ {t : HuffTree} (v : Bool) (o : Option (List Bool × Byte)), isAbsent t = false →
            LookupEnds c ((((leafPaths t).map fun p => (v :: p.1, p.2)).find?
              (fun q => decide (32 < c.len + q.1.length) || q.2 == x)).or o) .overflow := by
          intro t v o ht
          obtain ⟨q, hq, hq2⟩ := firstStop_deep hm x v ht
          rw [hq]
          simp only [Option.some_or, LookupEnds, hq2, if_true]
        cases hl : isAbsent l with
        | false =>
          have := hov false (((leafPaths r).map fun p => (true :: p.1, p.2)).find?
            fun q => decide (32 < c.len + q.1.length) || q.2 == x) hl
          simpa only [hm, Bool.false_eq_true, if_false, if_true] using this
        | true =>
          have hr : isAbsent r = false := by
            cases hr : isAbsent r with
            | false => rfl
            | true => exact absurd ⟨hl, hr⟩ hleaf
          simp only [hr, hm, Bool.false_eq_true, if_false, if_true, isAbsent_iff.mp hl, leafPaths, List.map_nil,
            List.find?_nil, Option.none_or]
          have := hov true none hr
          rw [Option.or_none] at this
          simpa only [hm] using this
      · have hlt : c.len < 32 := by simp only [Config.codeMax] at hm; omega
        have ihl := hunder false l hlt (searchFrom_spec x l (appendBit c false) (codeWf_appendBit hc hlt false))
        have ihr := hunder true r hlt (searchFrom_spec x r (appendBit c true) (codeWf_appendBit hc hlt true))
        rw [find?_under, find?_under]
        -- the right side counts only when the left side found nothing
        have hright : LookupEnds c ((firstStop (c.len + 1) x r).map fun p => (true :: p.1, p.2))
            (if isAbsent r = true then Lookup.notFound else searchFrom x r (appendBit c true)) := by
          by_cases hr : isAbsent r = true
          · rw [if_pos hr, isAbsent_iff.mp hr]; simp [firstStop, leafPaths, LookupEnds]
          · rw [if_neg hr]; exact ihr
        simp only [hm, if_false]
        by_cases hl : isAbsent l = true
        · have : firstStop (c.len + 1) x l = none := by rw [isAbsent_iff.mp hl]; simp [firstStop, leafPaths]
          rw [this]
          simp only [hl, if_true, Option.map_none, Option.none_or]
          exact hright
        · simp only [hl, Bool.false_eq_true, if_false]
          cases hf : firstStop (c.len + 1) x l with
          | none =>
            rw [hf] at ihl
            simp only [Option.map_none, LookupEnds] at ihl
            rw [ihl]
            simp only [Option.map_none, Option.none_or]
            exact hright
          | some q =>
            rw [hf] at ihl
            simp only [Option.map_some, LookupEnds, List.length_cons] at ihl
            simp only [Option.map_some, Option.some_or, LookupEnds, List.length_cons]
            by_cases hd : 32 < c.len + (q.1.length + 1)
            · rw [if_pos hd] at ihl ⊢
              rw [ihl]
            · rw [if_neg hd] at ihl ⊢
              obtain ⟨d, hd1, hd2⟩ := ihl
              exact ⟨d, by rw [hd1], hd2⟩

/-- Where a lookup from the root ends. -/
theorem findSymbol_spec (t : HuffTree) (x : Byte) : LookupEnds Code.empty (firstStop 0 x t) (findSymbol t x) :=
  searchFrom_spec x t Code.empty codeWf_empty

/-- A symbol found: its code is canonical and is the path of a leaf with that symbol. -/
theorem findSymbol_found {t : HuffTree} {x : Byte} {c : Code} (h : findSymbol t x = .found c) :
    codeWf c = true ∧ (codeBits c, x) ∈ leafPaths t := by
  have hs := findSymbol_spec t x
  cases hf : firstStop 0 x t with
  | none => rw [hf, h] at hs; simp [LookupEnds] at hs
  | some q =>
    rw [hf, h] at hs
    simp only [LookupEnds] at hs
    have hz : Code.empty.len = 0 := rfl
    split at hs
    · cases hs
    · next hd =>
      obtain ⟨d, hd1, hw, hb⟩ := hs
      cases hd1
      have hp := List.find?_some hf
      have hm := List.mem_of_find?_eq_some hf
      simp only [Bool.or_eq_true, decide_eq_true_eq, beq_iff_eq] at hp
      rw [hz] at hd
      have hx : q.2 = x := hp.resolve_left (by omega)
      refine ⟨hw, ?_⟩
      rw [hb]
      simpa [← hx] using hm

/-- On a tree of at most 33 levels a lookup never overflows, and it gives the path of the leftmost leaf with the
symbol, or nothing when no leaf has it. -/
theorem findSymbol_shallow {t : HuffTree} (ht : levelCount t ≤ 33) (x : Byte) :
    match codePath t x with
    | none => findSymbol t x = .notFound
    | some p => ∃ c, findSymbol t x = .found c ∧ codeWf c = true ∧ codeBits c = p := by
  have hs := findSymbol_spec t x
  have hz : Code.empty.len = 0 := rfl
  have hf : firstStop 0 x t = (leafPaths t).find? fun q => q.2 == x := by
    have : ∀ L : List (List Bool × Byte), (∀ q ∈ L, q.1.length ≤ 32) →
        L.find? (fun q => decide (32 < 0 + q.1.length) || q.2 == x) = L.find? fun q => q.2 == x := by
      intro L hL
      induction L with
      | nil => rfl
      | cons q L ih =>
        have hq := hL q (by simp)
        rw [List.find?_cons, List.find?_cons, ih fun q hq => hL q (by simp [hq])]
        have : ¬ 32 < 0 + q.1.length := by omega
        simp only [this, decide_false, Bool.false_or]
    refine this _ fun q hq => ?_
    have := leafPaths_length_lt (p := q.1) (x := q.2) hq
    omega
  unfold codePath
  rw [← hf]
  cases h : firstStop 0 x t with
  | none => rw [h] at hs; exact hs
  | some q =>
    rw [h] at hs
    have hq := leafPaths_length_lt (p := q.1) (x := q.2) (List.mem_of_find?_eq_some h)
    simp only [LookupEnds, hz] at hs
    rw [if_neg (by omega)] at hs
    obtain ⟨d, h1, h2, h3⟩ := hs
    exact ⟨d, h1, h2, by simpa using h3⟩

end Sys2Proof.Machine
end

