-- ==== Sys2Proof/Laws/Serdes.lean ====
section
/-! SUPPORT. The serializer and the deserializer are inverse to each other on the wire grammar; when a tree
being read meets a capacity. -/

namespace Sys2Proof.Machine

/-- A tree with `n` present nodes serializes to `2n + 1` bytes (30_encoding.md R92). -/
theorem serialize_length : ∀ t, (serialize t).length = 2 * nodeCount t + 1
  | .absent => rfl
  | .node _ _ l r => by
    simp only [serialize, nodeCount, List.length_cons, List.length_append, serialize_length l, serialize_length r]
    omega

/-- Reading back a serialization (43_serdes.md R215). -/
theorem deserializeFrom_serialize : ∀ (t : HuffTree) (fuel : Nat) (rest : List Byte), noNullSymbol t = true →
    (serialize t).length ≤ fuel → deserializeFrom fuel (serialize t ++ rest) = some (zeroCounts t, rest)
  | .absent, 0, _, _, h => by simp [serialize] at h
  | .absent, fuel + 1, rest, _, _ => by simp [serialize, deserializeFrom, zeroCounts]
  | .node x n l r, 0, _, _, h => by simp [serialize] at h
  | .node x n l r, fuel + 1, rest, hn, h => by
    simp only [noNullSymbol, Bool.and_eq_true, bne_iff_ne, ne_eq] at hn
    simp only [serialize, List.length_cons, List.length_append] at h
    have hl := deserializeFrom_serialize l fuel (serialize r ++ rest) hn.1.2 (by omega)
    have hr := deserializeFrom_serialize r fuel rest hn.2 (by omega)
    simp only [serialize, List.cons_append, List.append_assoc, deserializeFrom, hn.1.1, if_false, hl, hr, zeroCounts]

/-- What the deserializer reads is the serialization of what it gives, and nothing more (43_serdes.md R212). -/
theorem deserializeFrom_sound : ∀ {fuel : Nat} {b : List Byte} {t : HuffTree} {rest : List Byte},
    deserializeFrom fuel b = some (t, rest) →
    b = serialize t ++ rest ∧ noNullSymbol t = true ∧ zeroCounts t = t
  | 0, [], _, _, h => by simp [deserializeFrom] at h
  | 0, _ :: _, _, _, h => by simp [deserializeFrom] at h
  | _ + 1, [], _, _, h => by simp [deserializeFrom] at h
  | fuel + 1, x :: b, t, rest, h => by
    unfold deserializeFrom at h
    split at h
    · next hx =>
      simp only [Option.some.injEq, Prod.mk.injEq] at h
      obtain ⟨rfl, rfl⟩ := h
      simp [serialize, hx, noNullSymbol, zeroCounts]
    · next hx =>
      split at h
      · cases h
      · next l rest1 hl =>
        split at h
        · cases h
        · next r rest2 hr =>
          simp only [Option.some.injEq, Prod.mk.injEq] at h
          obtain ⟨rfl, rfl⟩ := h
          obtain ⟨e1, n1, z1⟩ := deserializeFrom_sound hl
          obtain ⟨e2, n2, z2⟩ := deserializeFrom_sound hr
          subst e2
          refine ⟨by rw [e1]; simp [serialize], ?_, by simp [zeroCounts, z1, z2]⟩
          simp only [noNullSymbol, n1, n2, Bool.and_true, bne_iff_ne, ne_eq]
          exact hx

@[simp] theorem nodeCount_zeroCounts : ∀ t, nodeCount (zeroCounts t) = nodeCount t
  | .absent => rfl
  | .node _ _ l r => by simp [zeroCounts, nodeCount, nodeCount_zeroCounts l, nodeCount_zeroCounts r]

@[simp] theorem levelCount_zeroCounts : ∀ t, levelCount (zeroCounts t) = levelCount t
  | .absent => rfl
  | .node _ _ l r => by simp [zeroCounts, levelCount, levelCount_zeroCounts l, levelCount_zeroCounts r]

@[simp] theorem isAbsent_zeroCounts (t : HuffTree) : isAbsent (zeroCounts t) = isAbsent t := by cases t <;> rfl

@[simp] theorem leafPaths_zeroCounts : ∀ t, leafPaths (zeroCounts t) = leafPaths t
  | .absent => rfl
  | .node _ _ l r => by simp [zeroCounts, leafPaths, leafPaths_zeroCounts l, leafPaths_zeroCounts r]

@[simp] theorem noNullSymbol_zeroCounts : ∀ t, noNullSymbol (zeroCounts t) = noNullSymbol t
  | .absent => rfl
  | .node _ _ l r => by simp [zeroCounts, noNullSymbol, noNullSymbol_zeroCounts l, noNullSymbol_zeroCounts r]

@[simp] theorem serialize_zeroCounts : ∀ t, serialize (zeroCounts t) = serialize t
  | .absent => rfl
  | .node _ _ l r => by simp [zeroCounts, serialize, serialize_zeroCounts l, serialize_zeroCounts r]

@[simp] theorem zeroCounts_zeroCounts : ∀ t, zeroCounts (zeroCounts t) = zeroCounts t
  | .absent => rfl
  | .node _ _ l r => by simp [zeroCounts, zeroCounts_zeroCounts l, zeroCounts_zeroCounts r]

theorem levelCount_eq_zero {t : HuffTree} : levelCount t = 0 ↔ t = .absent := by
  cases t <;> simp [levelCount]

/-- Reading one subtree in preorder: a capacity is met inside it, or the reading goes on after it with its nodes
counted. -/
theorem meetsCapacity_serialize (c : Config.Capacities) : ∀ (t : HuffTree) (d : Nat) (todo : List Nat) (n : Nat)
    (rest : List Byte), noNullSymbol t = true → n ≤ c.nodeMax →
    meetsCapacity c (d :: todo) n (serialize t ++ rest) =
      if n + nodeCount t ≤ c.nodeMax ∧ (t = .absent ∨ d + levelCount t ≤ c.depthMax + 1)
      then meetsCapacity c todo (n + nodeCount t) rest else true
  | .absent, d, todo, n, rest, _, hm => by simp [serialize, meetsCapacity, nodeCount, hm]
  | .node x m l r, d, todo, n, rest, hn, hm => by
    simp only [noNullSymbol, Bool.and_eq_true, bne_iff_ne, ne_eq] at hn
    simp only [serialize, List.cons_append, List.append_assoc, meetsCapacity, hn.1.1, if_false]
    by_cases hc : n + 1 > c.nodeMax ∨ d > c.depthMax
    · rw [if_pos hc, if_neg]
      simp only [nodeCount, levelCount, reduceCtorEq, false_or]
      omega
    · rw [if_neg hc]
      have hc' := not_or.mp hc
      rw [meetsCapacity_serialize c l (d + 1) ((d + 1) :: todo) (n + 1) (serialize r ++ rest) hn.1.2 (by omega)]
      have hla : l = .absent ↔ levelCount l = 0 := levelCount_eq_zero.symm
      have hra : r = .absent ↔ levelCount r = 0 := levelCount_eq_zero.symm
      by_cases h1 : n + 1 + nodeCount l ≤ c.nodeMax ∧ (l = .absent ∨ d + 1 + levelCount l ≤ c.depthMax + 1)
      · rw [if_pos h1, meetsCapacity_serialize c r (d + 1) todo (n + 1 + nodeCount l) rest hn.2 h1.1]
        by_cases h2 : n + 1 + nodeCount l + nodeCount r ≤ c.nodeMax ∧
            (r = .absent ∨ d + 1 + levelCount r ≤ c.depthMax + 1)
        · rw [if_pos h2, if_pos]
          · simp only [nodeCount]
            congr 1
            omega
          · rw [hla] at h1
            rw [hra] at h2
            simp only [nodeCount, levelCount, reduceCtorEq, false_or]
            omega
        · rw [if_neg h2, if_neg]
          rw [hra] at h2
          simp only [nodeCount, levelCount, reduceCtorEq, false_or]
          omega
      · rw [if_neg h1, if_neg]
        rw [hla] at h1
        simp only [nodeCount, levelCount, reduceCtorEq, false_or]
        omega

/-- Input too short to hold that many nodes meets no capacity. -/
theorem meetsCapacity_short (c : Config.Capacities) : ∀ (todo : List Nat) (n : Nat) (bytes : List Byte),
    n + bytes.length ≤ c.nodeMax → (∀ d ∈ todo, d + bytes.length ≤ c.depthMax + 1) →
    meetsCapacity c todo n bytes = false
  | _, _, [], _, _ => by simp [meetsCapacity]
  | [], _, _ :: _, _, _ => by simp [meetsCapacity]
  | d :: todo, n, x :: rest, hn, hd => by
    rw [List.length_cons] at hn hd
    have h1 := hd d (by simp)
    simp only [meetsCapacity]
    split
    · exact meetsCapacity_short c todo n rest (by omega) fun e he => by
        have := hd e (by simp [he])
        omega
    · rw [if_neg (by omega)]
      refine meetsCapacity_short c _ _ rest (by omega) fun e he => ?_
      rcases List.mem_cons.mp he with rfl | he
      · omega
      rcases List.mem_cons.mp he with rfl | he
      · omega
      have := hd e (by simp [he])
      omega

end Sys2Proof.Machine
end

