-- ==== Sys2Proof/Laws/Sorter.lean ====
section
/-! SUPPORT. Counting and the merge sorter: what the counters hold, that the working list stays a sorted
permutation, and what the merge loop builds. -/

namespace Sys2Proof.Machine

/-! ### Counting -/

theorem readFreq_countOne (f : Vector Word 256) (x y : Byte) :
    readFreq (countOne f x) y = if y = x then readFreq f x + 1 else readFreq f y := readFreq_writeFreq f x y _

theorem readFreq_zero (y : Byte) : readFreq (Vector.replicate 256 0) y = 0#32 := by simp [readFreq]

/-- A scan adds to each counter the number of occurrences of its byte, in 32 bits. -/
theorem readFreq_foldl_countOne : ∀ (t : List Byte) (f : Vector Word 256) (y : Byte),
    readFreq (t.foldl countOne f) y = readFreq f y + BitVec.ofNat 32 (t.count y)
  | [], f, y => by simp
  | x :: t, f, y => by
    rw [List.foldl_cons, readFreq_foldl_countOne t, readFreq_countOne, List.count_cons]
    by_cases h : y = x
    · subst h
      simp only [if_true, beq_self_eq_true]
      rw [BitVec.add_assoc, Nat.add_comm, BitVec.ofNat_add]
      rfl
    · have : (x == y) = false := by simpa using fun e => h e.symm
      simp [h, this]

/-- What `count(t)` gives (42_tree.md R180): the occurrences of each byte, and of the sentinel one more. -/
theorem readFreq_countBytes (t : List Byte) (y : Byte) (h : t.length + 1 < 2 ^ 32) :
    (readFreq (countBytes t) y).toNat = t.count y + if y = Config.eosByte then 1 else 0 := by
  have hc : t.count y ≤ t.length := List.count_le_length
  unfold countBytes
  rw [readFreq_countOne, readFreq_foldl_countOne, readFreq_foldl_countOne, readFreq_zero, readFreq_zero]
  have hone : (1 : Word).toNat = 1 := rfl
  by_cases hy : y = Config.eosByte
  · subst hy
    simp only [if_true, BitVec.toNat_add, BitVec.toNat_ofNat, hone]
    omega
  · simp only [hy, if_false, BitVec.toNat_add, BitVec.toNat_ofNat]
    omega

theorem sum_set_add : ∀ (l : List Nat) (i : Nat) (v : Nat) (h : i < l.length), (l.set i v).sum + l[i] = l.sum + v
  | [], _, _, h => by simp at h
  | x :: l, 0, v, _ => by simp; omega
  | x :: l, i + 1, v, h => by
    have := sum_set_add l i v (by simpa using h)
    simp only [List.set_cons_succ, List.sum_cons, List.getElem_cons_succ]
    omega

theorem readFreq_le_counterSum (f : Vector Word 256) (x : Byte) : (readFreq f x).toNat ≤ counterSum f := by
  unfold counterSum readFreq
  apply List.le_sum_of_mem
  rw [List.mem_map]
  exact ⟨f[x.toNat]'x.isLt, by rw [Vector.mem_toList_iff]; exact Vector.getElem_mem _, rfl⟩

/-- Replacing a counter replaces its value in the sum. -/
theorem counterSum_writeFreq (f : Vector Word 256) (x : Byte) (v : Word) :
    counterSum (writeFreq f x v) + (readFreq f x).toNat = counterSum f + v.toNat := by
  have hx : x.toNat < 256 := x.isLt
  unfold counterSum writeFreq readFreq
  rw [Vector.toList_set, List.map_set]
  have := sum_set_add (f.toList.map BitVec.toNat) x.toNat v.toNat (by simpa using hx)
  simpa using this

theorem counterSum_countOne (f : Vector Word 256) (x : Byte) (h : counterSum f + 1 < 2 ^ 32) :
    counterSum (countOne f x) = counterSum f + 1 := by
  have h1 := counterSum_writeFreq f x (readFreq f x + 1)
  have h2 := readFreq_le_counterSum f x
  have h3 : (readFreq f x + 1).toNat = (readFreq f x).toNat + 1 := by
    rw [BitVec.toNat_add]
    exact Nat.mod_eq_of_lt (by simp; omega)
  rw [h3] at h1
  unfold countOne
  omega

theorem counterSum_foldl_countOne : ∀ (t : List Byte) (f : Vector Word 256), counterSum f + t.length < 2 ^ 32 →
    counterSum (t.foldl countOne f) = counterSum f + t.length
  | [], f, _ => rfl
  | x :: t, f, h => by
    simp only [List.length_cons] at h
    have h1 := counterSum_countOne f x (by omega)
    rw [List.foldl_cons, counterSum_foldl_countOne t _ (by omega), h1]
    simp only [List.length_cons]
    omega

theorem counterSum_zero : counterSum (Vector.replicate 256 0) = 0 := by decide +kernel

/-- "the counters sum to `|t| + 1`" (42_tree.md R180). -/
theorem counterSum_countBytes (t : List Byte) (h : t.length + 1 < 2 ^ 32) : counterSum (countBytes t) = t.length + 1 := by
  have h1 := counterSum_foldl_countOne t (Vector.replicate 256 0) (by rw [counterSum_zero]; omega)
  rw [counterSum_zero, Nat.zero_add] at h1
  unfold countBytes
  rw [counterSum_countOne _ _ (by omega), h1]

/-! ### The working list -/

/-- The working list is in the order of 42_tree.md R182. -/
def SortedEntries (l : List SortEntry) : Prop := l.Pairwise fun a b => entryBefore a b = true

/-- The order is total on distinct sequence numbers (42_tree.md R182). -/
theorem entryBefore_total {a b : SortEntry} (h : a.seq ≠ b.seq) : entryBefore a b = true ∨ entryBefore b a = true := by
  unfold entryBefore
  simp only [Bool.or_eq_true, Bool.and_eq_true, decide_eq_true_eq, beq_iff_eq]
  rcases Nat.lt_trichotomy a.count.toNat b.count.toNat with h1 | h1 | h1
  · exact .inl (.inl h1)
  · have := BitVec.eq_of_toNat_eq h1
    rcases Nat.lt_or_gt_of_ne h with h2 | h2
    · exact .inl (.inr ⟨this, h2⟩)
    · exact .inr (.inr ⟨this.symm, h2⟩)
  · exact .inr (.inl h1)

theorem entryBefore_trans {a b c : SortEntry} (h1 : entryBefore a b = true) (h2 : entryBefore b c = true) :
    entryBefore a c = true := by
  unfold entryBefore at *
  simp only [Bool.or_eq_true, Bool.and_eq_true, decide_eq_true_eq, beq_iff_eq] at *
  rcases h1 with h1 | ⟨h1, h1'⟩ <;> rcases h2 with h2 | ⟨h2, h2'⟩
  · exact .inl (by omega)
  · rw [h2] at h1; exact .inl h1
  · rw [← h1] at h2; exact .inl h2
  · exact .inr ⟨h1.trans h2, by omega⟩

theorem entryBefore_count {a b : SortEntry} (h : entryBefore a b = true) : a.count.toNat ≤ b.count.toNat := by
  unfold entryBefore at h
  simp only [Bool.or_eq_true, Bool.and_eq_true, decide_eq_true_eq, beq_iff_eq] at h
  rcases h with h | ⟨h, _⟩
  · omega
  · rw [h]

theorem insertEntry_perm (e : SortEntry) : ∀ l, (insertEntry e l).Perm (e :: l)
  | [] => .refl _
  | x :: l => by
    unfold insertEntry
    split
    · exact ((insertEntry_perm e l).cons x).trans (.swap e x l)
    · exact .refl _

/-- Inserting an entry with a new sequence number keeps the list sorted. -/
theorem sorted_insertEntry (e : SortEntry) : ∀ l, SortedEntries l → (∀ x ∈ l, x.seq ≠ e.seq) →
    SortedEntries (insertEntry e l)
  | [], _, _ => by simp [insertEntry, SortedEntries]
  | x :: l, h, hd => by
    unfold SortedEntries at h ⊢
    rw [List.pairwise_cons] at h
    unfold insertEntry
    split
    · next hb =>
      rw [List.pairwise_cons]
      refine ⟨fun y hy => ?_, sorted_insertEntry e l h.2 fun y hy => hd y (by simp [hy])⟩
      rcases List.mem_cons.mp ((insertEntry_perm e l).mem_iff.mp hy) with rfl | hy
      · exact hb
      · exact h.1 y hy
    · next hb =>
      have hex : entryBefore e x = true :=
        (entryBefore_total (hd x (by simp)).symm).resolve_right hb
      rw [List.pairwise_cons, List.pairwise_cons]
      refine ⟨fun y hy => ?_, h⟩
      rcases List.mem_cons.mp hy with rfl | hy
      · exact hex
      · exact entryBefore_trans hex (h.1 y hy)

theorem sortEntries_perm : ∀ l, (sortEntries l).Perm l
  | [] => .refl _
  | x :: l => (insertEntry_perm x (sortEntries l)).trans ((sortEntries_perm l).cons x)

/-- Sorting gives a sorted list when the sequence numbers are distinct. -/
theorem sorted_sortEntries : ∀ l, (l.map SortEntry.seq).Nodup → SortedEntries (sortEntries l)
  | [], _ => by simp [sortEntries, SortedEntries]
  | x :: l, h => by
    simp only [List.map_cons, List.nodup_cons] at h
    refine sorted_insertEntry x (sortEntries l) (sorted_sortEntries l h.2) fun y hy e => ?_
    exact h.1 (e ▸ List.mem_map_of_mem ((sortEntries_perm l).mem_iff.mp hy))

/-! ### The merge loop -/

/-- A property of the working list that every merge keeps holds of the one entry left at the end, whose tree is
the result. -/
theorem mergeLoop_induction {P : Nat → List SortEntry → Prop}
    (step : ∀ k a b rest, P k (a :: b :: rest) → P (k + 1) (insertEntry (mergeEntries k a b) rest)) :
    ∀ (fuel k : Nat) (l : List SortEntry), l ≠ [] → l.length ≤ fuel + 1 → P k l →
      ∃ k' e, P k' [e] ∧ mergeLoop fuel k l = e.tree
  | _, _, [], h, _, _ => absurd rfl h
  | _, k, [e], _, _, hp => ⟨k, e, hp, by unfold mergeLoop; rfl⟩
  | 0, _, _ :: _ :: _, _, hl, _ => by simp at hl
  | fuel + 1, k, a :: b :: rest, _, hl, hp => by
    unfold mergeLoop
    have hlen := (insertEntry_perm (mergeEntries k a b) rest).length_eq
    refine mergeLoop_induction step fuel (k + 1) _ ?_ ?_ (step k a b rest hp)
    · intro h0; rw [h0] at hlen; simp at hlen
    · rw [hlen]; simp only [List.length_cons] at hl ⊢; omega

theorem isAbsent_of_builtShape {t : HuffTree} (h : builtShape t) : isAbsent t = false := by
  cases t with
  | absent => exact absurd h id
  | node _ _ _ _ => rfl

/-- A built tree has one internal node less than it has leaves (42_tree.md R186). -/
theorem nodeCount_of_builtShape : ∀ {t}, builtShape t → nodeCount t + 1 = 2 * (leafCounts t).length
  | .absent, h => absurd h id
  | .node x n l r, h => by
    unfold leafCounts
    rcases h with ⟨hl, hr⟩ | ⟨hl, hr, _⟩
    · rw [if_pos ⟨hl, hr⟩, isAbsent_iff.mp hl, isAbsent_iff.mp hr]; rfl
    · rw [if_neg (by simp [isAbsent_of_builtShape hl])]
      have := nodeCount_of_builtShape hl
      have := nodeCount_of_builtShape hr
      simp only [nodeCount, List.length_append]
      omega

/-- A built tree has at most as many levels as leaves. -/
theorem levelCount_of_builtShape : ∀ {t}, builtShape t → levelCount t ≤ (leafCounts t).length
  | .absent, h => absurd h id
  | .node x n l r, h => by
    unfold leafCounts
    rcases h with ⟨hl, hr⟩ | ⟨hl, hr, _⟩
    · rw [if_pos ⟨hl, hr⟩, isAbsent_iff.mp hl, isAbsent_iff.mp hr]; simp [levelCount]
    · rw [if_neg (by simp [isAbsent_of_builtShape hl])]
      have h1 := levelCount_of_builtShape hl
      have h2 := levelCount_of_builtShape hr
      have h3 := nodeCount_of_builtShape hl
      have h4 := nodeCount_of_builtShape hr
      simp only [levelCount, List.length_append]
      omega

/-- What the working list is throughout a build: sorted, with distinct sequence numbers below the next one, made
of built trees whose root counts are the entries' counts, with a given sum and given leaves. -/
structure WorkingList (total : Nat) (leaves : List (Byte × Word)) (k : Nat) (l : List SortEntry) : Prop where
  sorted : SortedEntries l
  fresh  : ∀ e ∈ l, e.seq < 256 + k
  shape  : ∀ e ∈ l, builtShape e.tree ∧ rootCount e.tree = e.count.toNat
  sum    : (l.map fun e => e.count.toNat).sum = total
  leaves : (l.flatMap fun e => leafCounts e.tree).Perm leaves

/-- One merge keeps the working list. -/
theorem WorkingList.merge {total : Nat} {leaves : List (Byte × Word)} (ht : total < 2 ^ 32) {k : Nat} {a b : SortEntry}
    {rest : List SortEntry} (h : WorkingList total leaves k (a :: b :: rest)) :
    WorkingList total leaves (k + 1) (insertEntry (mergeEntries k a b) rest) := by
  obtain ⟨hs, hf, hsh, hsum, hlv⟩ := h
  unfold SortedEntries at hs
  simp only [List.pairwise_cons] at hs
  simp only [List.map_cons, List.sum_cons] at hsum
  have hperm := insertEntry_perm (mergeEntries k a b) rest
  have hadd : (a.count + b.count).toNat = a.count.toNat + b.count.toNat := by
    rw [BitVec.toNat_add]; exact Nat.mod_eq_of_lt (by omega)
  have ha := hsh a (by simp)
  have hb := hsh b (by simp)
  refine ⟨?_, ?_, ?_, ?_, ?_⟩
  · refine sorted_insertEntry _ _ hs.2.2 fun x hx => ?_
    have := hf x (by simp [hx])
    simp only [mergeEntries]
    omega
  · intro e he
    rcases List.mem_cons.mp (hperm.mem_iff.mp he) with rfl | he
    · simp only [mergeEntries]; omega
    · have := hf e (by simp [he]); omega
  · intro e he
    rcases List.mem_cons.mp (hperm.mem_iff.mp he) with rfl | he
    · refine ⟨.inr ⟨ha.1, hb.1, rfl, ?_, ?_⟩, rfl⟩
      · rw [ha.2, hb.2]; exact hadd
      · rw [ha.2, hb.2]; exact entryBefore_count (hs.1 b (by simp))
    · exact hsh e (by simp [he])
  · rw [(hperm.map _).sum_eq]
    simp only [List.map_cons, List.sum_cons, mergeEntries, hadd]
    omega
  · refine (hperm.flatMap_right _).trans (List.Perm.trans ?_ hlv)
    have : leafCounts (mergeEntries k a b).tree = leafCounts a.tree ++ leafCounts b.tree := by
      simp [mergeEntries, leafCounts, isAbsent_of_builtShape ha.1]
    simp [this]

/-! ### The leaves -/

/-- The leaf entries, by symbol value. -/
theorem leafEntries_eq (f : Vector Word 256) :
    leafEntries f = ((List.range 256).filter fun i => readFreq f (BitVec.ofNat 8 i) != 0).map fun i =>
      ⟨readFreq f (BitVec.ofNat 8 i), i, .node (BitVec.ofNat 8 i) (readFreq f (BitVec.ofNat 8 i)) .absent .absent⟩ := by
  have hz : f.toList.zipIdx = (List.range 256).map fun i => (readFreq f (BitVec.ofNat 8 i), i) := by
    apply List.ext_getElem
    · simp
    · intro i h1 h2
      have hi : i < 256 := by simpa using h1
      simp [readFreq, Nat.mod_eq_of_lt hi]
  unfold leafEntries
  rw [hz, List.filterMap_map, ← List.filterMap_eq_map, ← List.filterMap_eq_filter, List.filterMap_filterMap]
  apply List.filterMap_congr
  intro i _
  by_cases h : readFreq f (BitVec.ofNat 8 i) = 0#32 <;> simp [h, Option.guard]

theorem leafEntries_leaves (f : Vector Word 256) :
    ((leafEntries f).flatMap fun e => leafCounts e.tree) = nonzeroCounts f := by
  rw [leafEntries_eq, List.flatMap_map]
  simp only [leafCounts, isAbsent_absent, and_self, if_true]
  unfold nonzeroCounts
  rw [List.filter_map, ← List.map_eq_flatMap]
  rfl

theorem counterSum_eq (f : Vector Word 256) :
    counterSum f = ((List.range 256).map fun i => (readFreq f (BitVec.ofNat 8 i)).toNat).sum := by
  unfold counterSum
  congr 1
  apply List.ext_getElem
  · simp
  · intro i h1 h2
    have hi : i < 256 := by simpa using h1
    simp [readFreq, Nat.mod_eq_of_lt hi]

theorem sum_filter_ne_zero {α : Type} (g : α → Nat) (p : α → Bool) (hp : ∀ a, p a = false → g a = 0) :
    ∀ l : List α, ((l.filter p).map g).sum = (l.map g).sum
  | [] => rfl
  | a :: l => by
    have ih := sum_filter_ne_zero g p hp l
    by_cases h : p a = true
    · rw [List.filter_cons_of_pos h]; simp [ih]
    · rw [List.filter_cons_of_neg h, ih]; simp [hp a (by simpa using h)]

theorem leafEntries_sum (f : Vector Word 256) :
    ((leafEntries f).map fun e => e.count.toNat).sum = counterSum f := by
  rw [leafEntries_eq, List.map_map, counterSum_eq]
  refine sum_filter_ne_zero (fun i => (readFreq f (BitVec.ofNat 8 i)).toNat) _ (fun i hi => ?_) _
  have : readFreq f (BitVec.ofNat 8 i) = 0 := by simpa using hi
  simp [this]

/-- The list the build starts from. -/
theorem workingList_start (f : Vector Word 256) :
    WorkingList (counterSum f) (nonzeroCounts f) 0 (sortEntries (leafEntries f)) := by
  have hperm := sortEntries_perm (leafEntries f)
  have hmem : ∀ e ∈ leafEntries f, ∃ i < 256, e = (⟨readFreq f (BitVec.ofNat 8 i), i,
      .node (BitVec.ofNat 8 i) (readFreq f (BitVec.ofNat 8 i)) .absent .absent⟩ : SortEntry) := by
    intro e he
    rw [leafEntries_eq] at he
    simp only [List.mem_map, List.mem_filter, List.mem_range] at he
    obtain ⟨i, ⟨hi, _⟩, rfl⟩ := he
    exact ⟨i, hi, rfl⟩
  refine ⟨?_, ?_, ?_, ?_, ?_⟩
  · apply sorted_sortEntries
    rw [leafEntries_eq, List.map_map]
    have : (SortEntry.seq ∘ fun i => (⟨readFreq f (BitVec.ofNat 8 i), i,
      .node (BitVec.ofNat 8 i) (readFreq f (BitVec.ofNat 8 i)) .absent .absent⟩ : SortEntry)) = id := rfl
    rw [this, List.map_id]
    exact List.nodup_range.filter _
  · intro e he
    obtain ⟨i, hi, rfl⟩ := hmem e (hperm.mem_iff.mp he)
    simpa using hi
  · intro e he
    obtain ⟨i, hi, rfl⟩ := hmem e (hperm.mem_iff.mp he)
    exact ⟨.inl ⟨rfl, rfl⟩, rfl⟩
  · rw [(hperm.map _).sum_eq]; exact leafEntries_sum f
  · refine (hperm.flatMap_right _).trans ?_
    rw [leafEntries_leaves]

/-- No nonzero counter: the build gives the absent tree (42_tree.md R188). -/
theorem treeify_absent {f : Vector Word 256} (h : nonzeroCounts f = []) : treeify f = .absent := by
  have hl : leafEntries f = [] := by
    have := leafEntries_leaves f
    rw [h] at this
    rw [List.flatMap_eq_nil_iff] at this
    rw [List.eq_nil_iff_forall_not_mem]
    intro e he
    have h2 := this e he
    rw [leafEntries_eq] at he
    simp only [List.mem_map] at he
    obtain ⟨i, _, rfl⟩ := he
    simp [leafCounts] at h2
  unfold treeify
  rw [hl]
  rfl

/-- What the build gives when some counter is nonzero (42_tree.md R183, R186). -/
theorem treeify_spec {f : Vector Word 256} (hsum : counterSum f < 2 ^ 32) (h : nonzeroCounts f ≠ []) :
    builtShape (treeify f) ∧ rootCount (treeify f) = counterSum f ∧
    (leafCounts (treeify f)).Perm (nonzeroCounts f) := by
  have hw := workingList_start f
  have hne : sortEntries (leafEntries f) ≠ [] := by
    intro h0
    have := hw.leaves
    rw [h0] at this
    exact h (List.Perm.nil_eq this).symm
  obtain ⟨k, e, he, ht⟩ := mergeLoop_induction (P := WorkingList (counterSum f) (nonzeroCounts f))
    (fun k a b rest hp => hp.merge hsum) (sortEntries (leafEntries f)).length 0 (sortEntries (leafEntries f)) hne
    (by omega) hw
  have : treeify f = e.tree := ht
  rw [this]
  have hs := he.shape e (by simp)
  refine ⟨hs.1, ?_, ?_⟩
  · rw [hs.2]
    simpa using he.sum
  · simpa using he.leaves

theorem nonzeroCounts_length_le (f : Vector Word 256) : (nonzeroCounts f).length ≤ 256 := by
  unfold nonzeroCounts
  exact (List.length_filter_le _ _).trans (by simp)

/-- A tree the builder makes has at most 511 nodes and 256 levels (10_state.md R31). -/
theorem treeify_size {f : Vector Word 256} (hsum : counterSum f < 2 ^ 32) :
    nodeCount (treeify f) ≤ 511 ∧ levelCount (treeify f) ≤ 256 := by
  by_cases h : nonzeroCounts f = []
  · rw [treeify_absent h]; simp [nodeCount, levelCount]
  · obtain ⟨hs, _, hp⟩ := treeify_spec hsum h
    have h1 := nodeCount_of_builtShape hs
    have h2 := levelCount_of_builtShape hs
    have h3 := nonzeroCounts_length_le f
    rw [hp.length_eq] at h1 h2
    omega

theorem fitsStore_treeify {c : Config.Capacities} (hc : c.Allowed) {f : Vector Word 256} (hsum : counterSum f < 2 ^ 32) :
    fitsStore c (treeify f) = true := by
  obtain ⟨h1, h2⟩ := treeify_size hsum
  have := hc.nodeMax
  have := hc.depthMax
  simp only [fitsStore, Bool.and_eq_true, decide_eq_true_eq]
  omega

end Sys2Proof.Machine
end

