-- ==== Sys2Proof/Laws/Invariant.lean ====
section
/-! SUPPORT. What each update of the state needs to keep the invariant. -/

namespace Sys2Proof.Machine

variable {s : State}

theorem State.Inv.answer (h : s.Inv) (r : Response) : (s.answer r).Inv :=
  ⟨h.caps, h.buffer, h.codes, h.ilen, h.ipos, h.olen, h.tree, h.nodes, h.walking, h.resting⟩

theorem State.Inv.setCommands (h : s.Inv) (c : List CommandWord) : (s.setCommands c).Inv :=
  ⟨h.caps, h.buffer, h.codes, h.ilen, h.ipos, h.olen, h.tree, h.nodes, h.walking, h.resting⟩

theorem State.Inv.setFreq (h : s.Inv) (f : Vector Word 256) : (s.setFreq f).Inv :=
  ⟨h.caps, h.buffer, h.codes, h.ilen, h.ipos, h.olen, h.tree, h.nodes, h.walking, h.resting⟩

theorem State.Inv.setBb (h : s.Inv) {b : BitBuffer} (hb : BufferInv s.caps.bbMax b) : (s.setBb b).Inv :=
  ⟨h.caps, hb, h.codes, h.ilen, h.ipos, h.olen, h.tree, h.nodes, h.walking, h.resting⟩

theorem State.Inv.setObuf (h : s.Inv) {o : List Byte} (ho : o.length ≤ s.caps.obufMax) : (s.setObuf o).Inv :=
  ⟨h.caps, h.buffer, h.codes, h.ilen, h.ipos, ho, h.tree, h.nodes, h.walking, h.resting⟩

theorem State.Inv.setIpos (h : s.Inv) {p : Nat} (hp : p ≤ s.ibuf.length) : (s.setIpos p).Inv :=
  ⟨h.caps, h.buffer, h.codes, h.ilen, hp, h.olen, h.tree, h.nodes, h.walking, h.resting⟩

theorem State.Inv.setCode (h : s.Inv) (r : CodeReg) {c : Code} (hc : codeWf c = true) : (s.setCode r c).Inv where
  caps := h.caps
  buffer := h.buffer
  codes := by
    intro q
    rw [readCode_setCode]
    split
    · exact hc
    · exact h.codes q
  ilen := h.ilen
  ipos := h.ipos
  olen := h.olen
  tree := h.tree
  nodes := h.nodes
  walking := h.walking
  resting := h.resting

/-- The walk put to rest. -/
theorem State.Inv.rest (h : s.Inv) {d : DState} (hd : d ≠ .run) : (s.setWalk d []).Inv where
  caps := h.caps
  buffer := h.buffer
  codes := h.codes
  ilen := h.ilen
  ipos := h.ipos
  olen := h.olen
  tree := h.tree
  nodes := h.nodes
  walking := fun hr => absurd hr hd
  resting := fun _ => rfl

/-- The walk put on a node that is present and no leaf. -/
theorem State.Inv.walkOn (h : s.Inv) {p : List Bool} (h1 : isAbsent (nodeAt s.tree p) = false)
    (h2 : isLeaf (nodeAt s.tree p) = false) : (s.setWalk .run p).Inv where
  caps := h.caps
  buffer := h.buffer
  codes := h.codes
  ilen := h.ilen
  ipos := h.ipos
  olen := h.olen
  tree := h.tree
  nodes := h.nodes
  walking := fun _ => ⟨h1, h2⟩
  resting := fun hr => absurd rfl hr

/-- A tree that can be stored, stored. -/
theorem State.Inv.install (h : s.Inv) {t : HuffTree} (ht : fitsStore s.caps t = true) (hn : nodeCount t < 2 ^ 32) :
    (installTree s t).Inv where
  caps := h.caps
  buffer := h.buffer
  codes := h.codes
  ilen := h.ilen
  ipos := h.ipos
  olen := h.olen
  tree := ht
  nodes := hn
  walking := by intro hr; cases hr
  resting := fun _ => rfl

/-- A text and a sentinel behind it can be counted without overflow (42_tree.md R180). -/
theorem State.Inv.text_lt (h : s.Inv) : s.ibuf.length + 2 < 2 ^ 32 := by
  have := h.ilen
  have := h.caps.ibufMax
  omega

/-! ### Updates of the installed tree, field by field -/

@[simp] theorem installTree_tree (t : HuffTree) : (installTree s t).tree = t := rfl
@[simp] theorem installTree_bb (t : HuffTree) : (installTree s t).bb = s.bb := rfl
@[simp] theorem installTree_codes (t : HuffTree) : (installTree s t).codes = s.codes := rfl
@[simp] theorem installTree_freq (t : HuffTree) : (installTree s t).freq = s.freq := rfl
@[simp] theorem installTree_ibuf (t : HuffTree) : (installTree s t).ibuf = s.ibuf := rfl
@[simp] theorem installTree_ipos (t : HuffTree) : (installTree s t).ipos = s.ipos := rfl
@[simp] theorem installTree_obuf (t : HuffTree) : (installTree s t).obuf = s.obuf := rfl
@[simp] theorem installTree_dstate (t : HuffTree) : (installTree s t).dstate = .idle := rfl
@[simp] theorem installTree_wpath (t : HuffTree) : (installTree s t).wpath = [] := rfl
@[simp] theorem installTree_status (t : HuffTree) : (installTree s t).status = s.status := rfl
@[simp] theorem installTree_caps (t : HuffTree) : (installTree s t).caps = s.caps := rfl
@[simp] theorem installTree_commands (t : HuffTree) : (installTree s t).commands = s.commands := rfl
@[simp] theorem installTree_responses (t : HuffTree) : (installTree s t).responses = s.responses := rfl

end Sys2Proof.Machine
end

