-- ==== Sys2Proof/Laws/Commands.lean ====
section
/-! SUPPORT. What the shared command bodies can do: one inversion lemma each, and what each keeps. -/

namespace Sys2Proof.Machine

/-! ### Reading and loading the buffer -/

theorem bufferBytes_length (b : BitBuffer) : (bufferBytes b).length = b.size := by simp [bufferBytes]

theorem bufferBytes_getD (b : BitBuffer) (i : Nat) :
    (bufferBytes b).getD i 0 = if i < b.size then readByte b.mem i else 0 := by
  unfold bufferBytes
  by_cases h : i < b.size
  · simp [h]
  · rw [if_neg h, List.getD_eq_default _ _ (by simp; omega)]

/-- The bits of a buffer are the bits of its bytes (20_memory.md R61, R64). -/
theorem bitRead_eq_payloadBit (b : BitBuffer) (q : Nat) :
    bitRead b q = if q / 8 < b.size then some (payloadBit (bufferBytes b) q) else none := by
  unfold bitRead payloadBit
  rw [bufferBytes_getD]
  by_cases h : q / 8 < b.size
  · rw [if_neg (by omega), if_pos h, if_pos h]
  · rw [if_pos (by omega), if_neg h]

theorem bufferInv_loaded {bbMax : Nat} {l : List Byte} (h : l.length ≤ bbMax) : BufferInv bbMax (loadedBuffer l) where
  canonical := Memory.wf_bytesToMemory l
  size_le := h
  hwm_lt := by
    intro hv
    have hv' : l.length > 0 := by simpa [loadedBuffer] using hv
    show l.length - 1 < l.length
    omega
  hwm_zero := by
    intro hv
    have hv' : ¬ l.length > 0 := by simpa [loadedBuffer] using hv
    show l.length - 1 = 0
    omega
  zero_above := by
    intro a ha
    have hf : l.length ≤ a := by
      unfold finalSize loadedBuffer at ha
      simp only [decide_eq_true_eq] at ha
      split at ha <;> omega
    show readByte (bytesToMemory 0 l) a = 0
    rw [readByte_bytesToMemory, if_pos (Nat.zero_le _), Nat.sub_zero, List.getD_eq_default _ _ hf]

/-- The bytes of a loaded buffer are the bytes loaded (40_bitbuffer.md R140). -/
theorem bufferBytes_loaded (l : List Byte) : bufferBytes (loadedBuffer l) = l := by
  apply List.ext_getElem
  · rw [bufferBytes_length]; rfl
  · intro i h1 h2
    have := bufferBytes_getD (loadedBuffer l) i
    rw [if_pos (show i < (loadedBuffer l).size from h2)] at this
    have e : readByte (loadedBuffer l).mem i = l.getD i 0 := by
      show readByte (bytesToMemory 0 l) i = _
      rw [readByte_bytesToMemory, if_pos (Nat.zero_le _), Nat.sub_zero]
    rw [e] at this
    rw [List.getD_eq_getElem _ _ h1, List.getD_eq_getElem _ _ h2] at this
    exact this

/-- The buffer `BB.FIN` leaves. -/
def finalBuffer (b : BitBuffer) : BitBuffer :=
  { b with mem := truncateBytes b.mem (finalSize b), size := finalSize b }

theorem doBbFin_eq (s : State) : doBbFin s = respond (lengthWord (finalSize s.bb)) (s.setBb (finalBuffer s.bb)) := rfl

@[simp] theorem finalSize_finalBuffer (b : BitBuffer) : finalSize (finalBuffer b) = finalSize b := rfl

theorem bufferInv_final {bbMax : Nat} {b : BitBuffer} (h : BufferInv bbMax b) : BufferInv bbMax (finalBuffer b) where
  canonical := Memory.wf_truncateBytes h.canonical _
  size_le := Nat.le_trans h.finalSize_le h.size_le
  hwm_lt := by
    intro hv
    have hv' : b.hwmv = true := hv
    show b.hwm < finalSize b
    unfold finalSize
    rw [if_pos hv']
    omega
  hwm_zero := h.hwm_zero
  zero_above := by
    intro a ha
    show readByte (truncateBytes b.mem (finalSize b)) a = 0
    rw [readByte_truncateBytes, if_neg (by simpa using ha)]

/-- Bytes below the final size keep their values (40_bitbuffer.md R139). -/
theorem readByte_final (b : BitBuffer) (a : Nat) :
    readByte (finalBuffer b).mem a = if a < finalSize b then readByte b.mem a else 0 := readByte_truncateBytes _ _ _

/-! ### VC.WR and TR.ENC -/

/-- `VC.WR` is all or nothing (41_vlc.md R165). -/
theorem doWriteCode_cases (c : Code) (s : State) :
    (¬ BitsFit s c.len ∧ doWriteCode c s = raise .capacityExceeded s) ∨
    (BitsFit s c.len ∧ doWriteCode c s =
      respond (lengthWord c.len) (s.setBb (bitWriteAll s.caps.bbMax s.bb (codeBits c)))) := by
  unfold doWriteCode BitsFit
  simp only
  by_cases h1 : c.len > 0 ∧ s.bb.cursor.toNat + c.len > Config.lastPosition
  · rw [if_pos h1]
    simp only [Config.lastPosition] at h1
    exact .inl ⟨by omega, rfl⟩
  · rw [if_neg h1]
    by_cases h2 : c.len > 0 ∧ (s.bb.cursor.toNat + c.len - 1) / 8 ≥ s.caps.bbMax
    · rw [if_pos h2]; exact .inl ⟨by omega, rfl⟩
    · rw [if_neg h2]
      simp only [Config.lastPosition] at h1
      exact .inr ⟨by omega, rfl⟩

/-- The premises under which a code can be written, for `bitWriteAll_spec`. -/
theorem BitsFit.premises {s : State} {c : Code} (h : BitsFit s c.len) :
    s.bb.cursor.toNat + (codeBits c).length ≤ Config.lastPosition ∧
    (codeBits c ≠ [] → (s.bb.cursor.toNat + (codeBits c).length - 1) / 8 < s.caps.bbMax) := by
  have := s.bb.cursor.isLt
  have hlen := codeBits_length c
  rw [hlen]
  refine ⟨?_, fun hn => ?_⟩
  · rcases h with h | h
    · simp only [Config.lastPosition]; omega
    · exact h.1
  · rcases h with h | h
    · rw [h] at hlen; exact absurd (List.length_eq_zero_iff.mp hlen) hn
    · exact h.2

theorem BitsFit.bufferInv {s : State} {c : Code} (h : BitsFit s c.len) (hb : BufferInv s.caps.bbMax s.bb) :
    BufferInv s.caps.bbMax (bitWriteAll s.caps.bbMax s.bb (codeBits c)) :=
  (bitWriteAll_spec (codeBits c) hb h.premises.1 h.premises.2).1

/-- What `TR.ENC` can do: an error with nothing written, or the code of the symbol written (42_tree.md R195). -/
theorem doTrEnc_cases (x : Byte) (s : State) :
    (∃ e, (e = .encodingOverflow ∨ e = .symbolNotFound ∨ e = .capacityExceeded) ∧ doTrEnc x s = raise e s) ∨
    (∃ c, findSymbol s.tree x = .found c ∧ BitsFit s c.len ∧ doTrEnc x s =
      respond (lengthWord c.len) (s.setBb (bitWriteAll s.caps.bbMax s.bb (codeBits c)))) := by
  unfold doTrEnc
  cases h : findSymbol s.tree x with
  | overflow => exact .inl ⟨_, .inl rfl, rfl⟩
  | notFound => exact .inl ⟨_, .inr (.inl rfl), rfl⟩
  | found c =>
    rcases doWriteCode_cases c s with ⟨_, h2⟩ | ⟨h1, h2⟩
    · exact .inl ⟨_, .inr (.inr rfl), h2⟩
    · exact .inr ⟨c, rfl, h1, h2⟩

/-! ### TR.DES -/

theorem doTrDes_none {s : State} (h : deserialize (s.ibuf.drop s.ipos) = none) :
    doTrDes s = if meetsCapacity s.caps [0] 0 (s.ibuf.drop s.ipos) = true then raise .capacityExceeded s
      else raise .unexpectedEndOfStream s := by
  simp only [doTrDes, h]

theorem doTrDes_some {s : State} {t : HuffTree} {rest : List Byte}
    (h : deserialize (s.ibuf.drop s.ipos) = some (t, rest)) :
    doTrDes s = if (!fitsStore s.caps t) = true then raise .capacityExceeded s
      else respond (lengthWord ((s.ibuf.drop s.ipos).length - rest.length))
        ((installTree s t).setIpos (s.ipos + ((s.ibuf.drop s.ipos).length - rest.length))) := by
  simp only [doTrDes, h]

/-- What `TR.DES` can do (43_serdes.md R213): an error with nothing changed, or the tree at the front of the
unread input installed. -/
theorem doTrDes_cases (s : State) :
    (∃ e, (e = .unexpectedEndOfStream ∨ e = .capacityExceeded) ∧ doTrDes s = raise e s) ∨
    (∃ t rest, s.ibuf.drop s.ipos = serialize t ++ rest ∧ noNullSymbol t = true ∧ zeroCounts t = t ∧
      fitsStore s.caps t = true ∧ doTrDes s =
        respond (lengthWord (serialize t).length) ((installTree s t).setIpos (s.ipos + (serialize t).length))) := by
  cases h : deserialize (s.ibuf.drop s.ipos) with
  | none =>
    rw [doTrDes_none h]
    split
    · exact .inl ⟨_, .inr rfl, rfl⟩
    · exact .inl ⟨_, .inl rfl, rfl⟩
  | some p =>
    obtain ⟨t, rest⟩ := p
    obtain ⟨hb, hn, hz⟩ := deserializeFrom_sound h
    rw [doTrDes_some h]
    cases hf : fitsStore s.caps t with
    | false => exact .inl ⟨_, .inr rfl, rfl⟩
    | true =>
      refine .inr ⟨t, rest, hb, hn, hz, hf, ?_⟩
      have : (s.ibuf.drop s.ipos).length - rest.length = (serialize t).length := by rw [hb]; simp
      simp only [Bool.not_true, Bool.false_eq_true, if_false, this]

/-- `TR.DES` on input that begins with the serialization of a tree that can be stored. -/
theorem doTrDes_serialize {s : State} {t : HuffTree} {rest : List Byte} (hb : s.ibuf.drop s.ipos = serialize t ++ rest)
    (hn : noNullSymbol t = true) (hf : fitsStore s.caps t = true) :
    doTrDes s = respond (lengthWord (serialize t).length)
      ((installTree s (zeroCounts t)).setIpos (s.ipos + (serialize t).length)) := by
  have hz : fitsStore s.caps (zeroCounts t) = true := by simpa [fitsStore] using hf
  have : (s.ibuf.drop s.ipos).length - rest.length = (serialize t).length := by rw [hb]; simp
  rw [doTrDes_some (by rw [hb]; exact deserializeFrom_serialize t _ rest hn (by simp))]
  simp only [hz, Bool.not_true, Bool.false_eq_true, if_false, this]

/-- With the widest capacities no input the buffer can hold makes `TR.DES` answer `CapacityExceeded`, cut off inside its
tree or not (log entries 1 and 5). -/
theorem doTrDes_widest {s : State} (hc : s.caps = Config.Capacities.widest) (hi : s.ibuf.length ≤ s.caps.ibufMax) :
    (doTrDes s).status = .ok ∨ doTrDes s = raise .unexpectedEndOfStream s := by
  rw [hc] at hi
  have hl : (s.ibuf.drop s.ipos).length ≤ 4294967293 := by
    rw [List.length_drop]
    exact Nat.le_trans (Nat.sub_le _ _) hi
  cases h : deserialize (s.ibuf.drop s.ipos) with
  | none =>
    have hm : meetsCapacity s.caps [0] 0 (s.ibuf.drop s.ipos) = false := by
      rw [hc]
      refine meetsCapacity_short _ _ _ _ (by simp only [Config.Capacities.widest]; omega) fun d hd => ?_
      rw [List.mem_singleton.mp hd]
      simp only [Config.Capacities.widest]
      omega
    exact .inr (by rw [doTrDes_none h, hm]; rfl)
  | some p =>
    obtain ⟨t, rest⟩ := p
    obtain ⟨hb, -, -⟩ := deserializeFrom_sound h
    have h1 := levelCount_le_nodeCount t
    rw [hb, List.length_append, serialize_length] at hl
    have hf : fitsStore s.caps t = true := by
      rw [hc, fitsStore, Bool.and_eq_true, decide_eq_true_eq, decide_eq_true_eq]
      simp only [Config.Capacities.widest]
      omega
    exact .inl (by rw [doTrDes_some h, hf]; rfl)

/-- Where `IPOS` stands after a tree was read, it is still within the input. -/
theorem ipos_after_tree {s : State} {t : HuffTree} {rest : List Byte} (hi : s.ipos ≤ s.ibuf.length)
    (hb : s.ibuf.drop s.ipos = serialize t ++ rest) : s.ipos + (serialize t).length ≤ s.ibuf.length := by
  have := congrArg List.length hb
  simp only [List.length_drop, List.length_append] at this
  omega

/-! ### DEC.START and DEC.STEP -/

theorem isLeaf_node (x : Byte) (n : Word) (l r : HuffTree) :
    isLeaf (.node x n l r) = true ↔ isAbsent l = true ∧ isAbsent r = true := by simp [isLeaf]

/-- What `DEC.START` does (44_codec.md R242). -/
theorem doDecStart_cases (s : State) :
    (∃ e, (e = .unexpectedNullChild ∨ e = .unexpectedEndOfStream) ∧
      doDecStart s = raise e ((s.setObuf []).setWalk .fail [])) ∨
    (doDecStart s = respond (dstateWord .done) ((s.setObuf []).setWalk .done [])) ∨
    (isAbsent s.tree = false ∧ isLeaf s.tree = false ∧
      doDecStart s = respond (dstateWord .run) ((s.setObuf []).setWalk .run [])) := by
  unfold doDecStart
  cases h : s.tree with
  | absent => exact .inl ⟨_, .inl rfl, rfl⟩
  | node x n l r =>
    simp only
    by_cases hl : isAbsent l = true ∧ isAbsent r = true
    · rw [if_pos hl]
      split
      · exact .inr (.inl rfl)
      · exact .inl ⟨_, .inr rfl, rfl⟩
    · rw [if_neg hl]
      refine .inr (.inr ⟨rfl, ?_, rfl⟩)
      rw [← isLeaf_node x n l r] at hl
      simpa using hl

/-- What `DEC.STEP` does once its bit is read (44_codec.md R243). -/
theorem walkTo_cases (v : Bool) (s : State) :
    (∃ e, (e = .unexpectedNullChild ∨ e = .capacityExceeded) ∧ walkTo v s = decFail e s) ∨
    (walkTo v s = respond (dstateWord .done) (s.setWalk .done [])) ∨
    (∃ x n, nodeAt s.tree (s.wpath ++ [v]) = .node x n .absent .absent ∧ s.obuf.length ≠ s.caps.obufMax ∧
      walkTo v s = respond (dstateWord .run) ((s.setObuf (s.obuf ++ [x])).setWalk .run [])) ∨
    (isAbsent (nodeAt s.tree (s.wpath ++ [v])) = false ∧ isLeaf (nodeAt s.tree (s.wpath ++ [v])) = false ∧
      walkTo v s = respond (dstateWord .run) (s.setWalk .run (s.wpath ++ [v]))) := by
  unfold walkTo
  rw [nodeAt_snoc]
  cases h : childOf (nodeAt s.tree s.wpath) v with
  | absent => exact .inl ⟨_, .inl rfl, rfl⟩
  | node x n l r =>
    simp only
    by_cases hl : isAbsent l = true ∧ isAbsent r = true
    · rw [if_pos hl]
      by_cases hx : x = Config.eosByte
      · rw [if_pos hx]; exact .inr (.inl rfl)
      · rw [if_neg hx]
        by_cases hc : s.obuf.length = s.caps.obufMax
        · rw [if_pos hc]; exact .inl ⟨_, .inr rfl, rfl⟩
        · rw [if_neg hc]
          exact .inr (.inr (.inl ⟨x, n, by rw [isAbsent_iff.mp hl.1, isAbsent_iff.mp hl.2], hc, rfl⟩))
    · rw [if_neg hl]
      refine .inr (.inr (.inr ⟨rfl, ?_, rfl⟩))
      rw [← isLeaf_node x n l r] at hl
      simpa using hl

/-- What `DEC.STEP` can do (44_codec.md R243). -/
theorem doDecStep_cases (s : State) :
    (s.dstate ≠ .run ∧ doDecStep s = raise .illegalCommand s) ∨
    (s.dstate = .run ∧ s.bb.cursor.toNat = Config.lastPosition ∧ doDecStep s = decFail .capacityExceeded s) ∨
    (s.dstate = .run ∧ s.bb.cursor.toNat ≠ Config.lastPosition ∧ bitRead s.bb s.bb.cursor.toNat = none ∧
      doDecStep s = decFail .unexpectedEndOfStream (s.setBb (advanceCursor s.bb))) ∨
    (s.dstate = .run ∧ s.bb.cursor.toNat ≠ Config.lastPosition ∧ ∃ v, bitRead s.bb s.bb.cursor.toNat = some v ∧
      doDecStep s = walkTo v (s.setBb (advanceCursor s.bb))) := by
  unfold doDecStep
  by_cases h1 : s.dstate = .run
  · rw [if_neg (by simp [h1])]
    by_cases h2 : s.bb.cursor.toNat = Config.lastPosition
    · rw [if_pos h2]; exact .inr (.inl ⟨h1, h2, rfl⟩)
    · rw [if_neg h2]
      cases h3 : bitRead s.bb s.bb.cursor.toNat with
      | none => exact .inr (.inr (.inl ⟨h1, h2, rfl, rfl⟩))
      | some v => exact .inr (.inr (.inr ⟨h1, h2, v, rfl, rfl⟩))
  · rw [if_pos h1]; exact .inl ⟨h1, rfl⟩

end Sys2Proof.Machine
end

