-- ==== Sys2Proof/Laws/Frames.lean ====
section
/-! SUPPORT. The frames of the shared endings of commands, and what the buffer operations make of the bytes and bits a
claim reads. -/

namespace Sys2Proof.Machine

variable {s : State} {r : Response} {units : List BlockUnit}

theorem responded_answer (s t : State) (h : t.responses = s.responses) (e : Status) (d : Word) :
    Responded s (t.answer ⟨e, d⟩) e d := ⟨rfl, by simp [h]⟩

theorem keeps_answer (s : State) (r : Response) : KeepsAllBut [] s (s.answer r) :=
  ⟨fun _ => rfl, fun _ => rfl, fun _ => rfl, fun _ => rfl, fun _ => ⟨rfl, rfl⟩, fun _ => rfl, fun _ => rfl,
    fun _ => rfl, rfl, rfl⟩

theorem keeps_setBb (s : State) (b : BitBuffer) (r : Response) : KeepsAllBut [.bb] s ((s.setBb b).answer r) :=
  ⟨fun h => absurd (by decide) h, fun _ => rfl, fun _ => rfl, fun _ => rfl, fun _ => ⟨rfl, rfl⟩, fun _ => rfl,
    fun _ => rfl, fun _ => rfl, rfl, rfl⟩

theorem keeps_setCode (s : State) (q : CodeReg) (c : Code) (r : Response) :
    KeepsAllBut [.codes] s ((s.setCode q c).answer r) :=
  ⟨fun _ => rfl, fun h => absurd (by decide) h, fun _ => rfl, fun _ => rfl, fun _ => ⟨rfl, rfl⟩, fun _ => rfl,
    fun _ => rfl, fun _ => rfl, rfl, rfl⟩

theorem keeps_setFreq (s : State) (f : Vector Word 256) (r : Response) :
    KeepsAllBut [.freq] s ((s.setFreq f).answer r) :=
  ⟨fun _ => rfl, fun _ => rfl, fun h => absurd (by decide) h, fun _ => rfl, fun _ => ⟨rfl, rfl⟩, fun _ => rfl,
    fun _ => rfl, fun _ => rfl, rfl, rfl⟩

theorem keeps_installTree (s : State) (t : HuffTree) (r : Response) :
    KeepsAllBut [.tree, .walk] s ((installTree s t).answer r) :=
  ⟨fun _ => rfl, fun _ => rfl, fun _ => rfl, fun h => absurd (by decide) h, fun h => absurd (by decide) h,
    fun _ => rfl, fun _ => rfl, fun _ => rfl, rfl, rfl⟩

theorem keeps_setObuf (s : State) (b : List Byte) (r : Response) : KeepsAllBut [.obuf] s ((s.setObuf b).answer r) :=
  ⟨fun _ => rfl, fun _ => rfl, fun _ => rfl, fun _ => rfl, fun _ => ⟨rfl, rfl⟩, fun _ => rfl, fun _ => rfl,
    fun h => absurd (by decide) h, rfl, rfl⟩

theorem keeps_setIpos (s : State) (p : Nat) (r : Response) : KeepsAllBut [.ipos] s ((s.setIpos p).answer r) :=
  ⟨fun _ => rfl, fun _ => rfl, fun _ => rfl, fun _ => rfl, fun _ => ⟨rfl, rfl⟩, fun _ => rfl,
    fun h => absurd (by decide) h, fun _ => rfl, rfl, rfl⟩

/-! ### What an operation may write -/

@[simp] theorem keeps_refl (us : List BlockUnit) (s : State) : KeepsAllBut us s s :=
  ⟨fun _ => rfl, fun _ => rfl, fun _ => rfl, fun _ => rfl, fun _ => ⟨rfl, rfl⟩, fun _ => rfl, fun _ => rfl,
    fun _ => rfl, rfl, rfl⟩

section
variable {us : List BlockUnit} {s t : State}

@[simp] theorem keepsAllBut_answer (r : Response) : KeepsAllBut us s (t.answer r) ↔ KeepsAllBut us s t :=
  ⟨fun h => ⟨h.bb, h.codes, h.freq, h.tree, h.walk, h.ibuf, h.ipos, h.obuf, h.caps, h.commands⟩,
   fun h => ⟨h.bb, h.codes, h.freq, h.tree, h.walk, h.ibuf, h.ipos, h.obuf, h.caps, h.commands⟩⟩

@[simp] theorem keepsAllBut_setBb (b : BitBuffer) (hu : .bb ∈ us) : KeepsAllBut us s (t.setBb b) ↔ KeepsAllBut us s t :=
  ⟨fun h => ⟨fun x => absurd hu x, h.codes, h.freq, h.tree, h.walk, h.ibuf, h.ipos, h.obuf, h.caps, h.commands⟩,
   fun h => ⟨fun x => absurd hu x, h.codes, h.freq, h.tree, h.walk, h.ibuf, h.ipos, h.obuf, h.caps, h.commands⟩⟩

@[simp] theorem keepsAllBut_setCode (q : CodeReg) (c : Code) (hu : .codes ∈ us) : KeepsAllBut us s (t.setCode q c) ↔ KeepsAllBut us s t :=
  ⟨fun h => ⟨h.bb, fun x => absurd hu x, h.freq, h.tree, h.walk, h.ibuf, h.ipos, h.obuf, h.caps, h.commands⟩,
   fun h => ⟨h.bb, fun x => absurd hu x, h.freq, h.tree, h.walk, h.ibuf, h.ipos, h.obuf, h.caps, h.commands⟩⟩

@[simp] theorem keepsAllBut_setFreq (f : Vector Word 256) (hu : .freq ∈ us) : KeepsAllBut us s (t.setFreq f) ↔ KeepsAllBut us s t :=
  ⟨fun h => ⟨h.bb, h.codes, fun x => absurd hu x, h.tree, h.walk, h.ibuf, h.ipos, h.obuf, h.caps, h.commands⟩,
   fun h => ⟨h.bb, h.codes, fun x => absurd hu x, h.tree, h.walk, h.ibuf, h.ipos, h.obuf, h.caps, h.commands⟩⟩

@[simp] theorem keepsAllBut_setTree (x : HuffTree) (hu : .tree ∈ us) : KeepsAllBut us s (t.setTree x) ↔ KeepsAllBut us s t :=
  ⟨fun h => ⟨h.bb, h.codes, h.freq, fun x => absurd hu x, h.walk, h.ibuf, h.ipos, h.obuf, h.caps, h.commands⟩,
   fun h => ⟨h.bb, h.codes, h.freq, fun x => absurd hu x, h.walk, h.ibuf, h.ipos, h.obuf, h.caps, h.commands⟩⟩

@[simp] theorem keepsAllBut_setWalk (d : DState) (p : List Bool) (hu : .walk ∈ us) : KeepsAllBut us s (t.setWalk d p) ↔ KeepsAllBut us s t :=
  ⟨fun h => ⟨h.bb, h.codes, h.freq, h.tree, fun x => absurd hu x, h.ibuf, h.ipos, h.obuf, h.caps, h.commands⟩,
   fun h => ⟨h.bb, h.codes, h.freq, h.tree, fun x => absurd hu x, h.ibuf, h.ipos, h.obuf, h.caps, h.commands⟩⟩

@[simp] theorem keepsAllBut_setIbuf (b : List Byte) (hu : .ibuf ∈ us) : KeepsAllBut us s (t.setIbuf b) ↔ KeepsAllBut us s t :=
  ⟨fun h => ⟨h.bb, h.codes, h.freq, h.tree, h.walk, fun x => absurd hu x, h.ipos, h.obuf, h.caps, h.commands⟩,
   fun h => ⟨h.bb, h.codes, h.freq, h.tree, h.walk, fun x => absurd hu x, h.ipos, h.obuf, h.caps, h.commands⟩⟩

@[simp] theorem keepsAllBut_setIpos (n : Nat) (hu : .ipos ∈ us) : KeepsAllBut us s (t.setIpos n) ↔ KeepsAllBut us s t :=
  ⟨fun h => ⟨h.bb, h.codes, h.freq, h.tree, h.walk, h.ibuf, fun x => absurd hu x, h.obuf, h.caps, h.commands⟩,
   fun h => ⟨h.bb, h.codes, h.freq, h.tree, h.walk, h.ibuf, fun x => absurd hu x, h.obuf, h.caps, h.commands⟩⟩

@[simp] theorem keepsAllBut_setObuf (b : List Byte) (hu : .obuf ∈ us) : KeepsAllBut us s (t.setObuf b) ↔ KeepsAllBut us s t :=
  ⟨fun h => ⟨h.bb, h.codes, h.freq, h.tree, h.walk, h.ibuf, h.ipos, fun x => absurd hu x, h.caps, h.commands⟩,
   fun h => ⟨h.bb, h.codes, h.freq, h.tree, h.walk, h.ibuf, h.ipos, fun x => absurd hu x, h.caps, h.commands⟩⟩

@[simp] theorem keepsAllBut_installTree (x : HuffTree) (hu : .tree ∈ us) (hw : .walk ∈ us) :
    KeepsAllBut us s (installTree t x) ↔ KeepsAllBut us s t := by
  unfold installTree
  rw [keepsAllBut_setWalk _ _ hw, keepsAllBut_setTree _ hu]

end

/-- A frame may be read for more units than it needs. -/
theorem KeepsAllBut.mono {us vs : List BlockUnit} {s t : State} (h : KeepsAllBut us s t) (hs : us ⊆ vs) :
    KeepsAllBut vs s t :=
  ⟨fun x => h.bb fun y => x (hs y), fun x => h.codes fun y => x (hs y), fun x => h.freq fun y => x (hs y),
    fun x => h.tree fun y => x (hs y), fun x => h.walk fun y => x (hs y), fun x => h.ibuf fun y => x (hs y),
    fun x => h.ipos fun y => x (hs y), fun x => h.obuf fun y => x (hs y), h.caps, h.commands⟩

/-! ### Bytes and growth -/

theorem bufferBytes_getElem? (b : BitBuffer) (i : Nat) :
    (bufferBytes b)[i]? = if i < b.size then some (readByte b.mem i) else none := by
  unfold bufferBytes
  by_cases h : i < b.size
  · rw [if_pos h]; simp [h]
  · rw [if_neg h, List.getElem?_eq_none (by simp; omega)]

/-- A read as a function of the byte read (20_memory.md R61, R62). -/
theorem bitRead_eq_bytes (b : BitBuffer) (p : Nat) :
    bitRead b p = ((bufferBytes b)[p / 8]?).map fun x => x.getLsbD (p % 8) := by
  rw [bufferBytes_getElem?]
  unfold bitRead
  by_cases h : p / 8 < b.size
  · rw [if_neg (by omega), if_pos h]; rfl
  · rw [if_pos (by omega), if_neg h]; rfl

/-- A length that fits 32 bits is the number its word holds. -/
theorem lengthWord_toNat {n : Nat} (h : n < 2 ^ 32) : (lengthWord n).toNat = n := by
  unfold lengthWord
  rw [BitVec.toNat_ofNat]
  exact Nat.mod_eq_of_lt h

/-- The fuelled loop gives the first size of the repeated step that the byte fits in (40_bitbuffer.md R132). -/
theorem grownTo_growSize {bbMax b : Nat} (hb : b < bbMax) : ∀ (fuel n : Nat), b + 1 ≤ fuel + n → n ≤ bbMax →
    GrownTo bbMax b n (growSize bbMax b fuel n)
  | 0, n, h, _ => ⟨0, rfl, by unfold growSize; omega, by omega⟩
  | fuel + 1, n, h, hn => by
    unfold growSize
    by_cases hge : b ≥ n
    · rw [if_pos hge]
      have hstep : n < min (growStep n) bbMax := by
        have := growStep_gt n
        omega
      obtain ⟨k, h1, h2, h3⟩ := grownTo_growSize hb fuel (min (growStep n) bbMax) (by omega) (Nat.min_le_right _ _)
      refine ⟨k + 1, ?_, h2, ?_⟩
      · rw [h1, Function.iterate_succ, Function.comp]; rfl
      · intro j hj
        cases j with
        | zero => simpa using hge
        | succ j =>
          rw [Function.iterate_succ, Function.comp]
          exact h3 j (by omega)
    · rw [if_neg hge]
      exact ⟨0, rfl, by omega, by omega⟩

theorem grownTo_grow {bbMax a : Nat} {b : BitBuffer} (ha : a < bbMax) (hb : b.size ≤ bbMax) :
    GrownTo bbMax a b.size (grow bbMax a b).size := by
  unfold grow
  split
  · exact grownTo_growSize ha _ _ (by omega) hb
  · exact ⟨0, rfl, by omega, by omega⟩

/-- Growing to a byte and then to a later one is growing to the later one. -/
theorem GrownTo.trans {bbMax a b n m k : Nat} (h1 : GrownTo bbMax a n m) (h2 : GrownTo bbMax b m k) (hab : a ≤ b) :
    GrownTo bbMax b n k := by
  obtain ⟨i, hi, _, hi3⟩ := h1
  obtain ⟨j, hj, hj2, hj3⟩ := h2
  refine ⟨j + i, ?_, hj2, ?_⟩
  · rw [Function.iterate_add, Function.comp, ← hi, hj]
  · intro l hl
    by_cases h : l < i
    · exact Nat.le_trans (hi3 l h) hab
    · have := hj3 (l - i) (by omega)
      rw [hi, ← Function.comp_apply (f := Nat.iterate _ _), ← Function.iterate_add] at this
      rwa [show l - i + i = l by omega] at this

/-- What one write does (20_memory.md R63). -/
theorem bitWritten_bitWrite {bbMax : Nat} {b : BitBuffer} (h : BufferInv bbMax b) {p : Nat} (hp : p / 8 < bbMax)
    (v : Bool) : BitWritten bbMax p v b (bitWrite bbMax b p v) where
  grown := by rw [bitWrite_size]; exact grownTo_grow hp h.size_le
  written := by rw [bitRead_bitWrite h.canonical hp h.size_le, if_pos rfl]
  otherBits := by
    intro q hq hs
    rw [bitRead_bitWrite h.canonical hp h.size_le, if_neg hq, if_pos hs]
  newBits := by
    intro q hq hs hc
    rw [bitWrite_size] at hc
    rw [bitRead_bitWrite h.canonical hp h.size_le, if_neg hq, if_neg (by omega), if_pos hc]
  otherBytes := by
    intro a ha
    rw [bufferBytes_getElem?, bufferBytes_getElem?, bitWrite_size, readByte_bitWrite h.canonical, if_neg ha, readByte_grow]
    have hle := le_grow_size (p / 8) h.size_le
    by_cases h1 : a < b.size
    · rw [if_pos (by omega), if_pos (.inl h1), if_pos h1, if_pos h1]
    · rw [if_neg h1]
      by_cases h2 : a < (grow bbMax (p / 8) b).size
      · rw [if_pos h2, if_pos h2]
        have : ¬ p / 8 < b.size := by
          intro h3
          have : grow bbMax (p / 8) b = b := by unfold grow; rw [if_neg (by omega)]
          rw [this] at h2
          exact h1 h2
        rw [if_neg (by omega)]
      · rw [if_neg h2, if_neg h2]
  mark := bitWrite_hwm bbMax b p v

theorem bitWriteAll_cons (bbMax : Nat) (b : BitBuffer) (v : Bool) (rest : List Bool) :
    bitWriteAll bbMax b (v :: rest) = bitWriteAll bbMax (bitWriteNext bbMax b v) rest := rfl

theorem bitWriteAll_append (bbMax : Nat) (b : BitBuffer) (xs ys : List Bool) :
    bitWriteAll bbMax b (xs ++ ys) = bitWriteAll bbMax (bitWriteAll bbMax b xs) ys := by
  unfold bitWriteAll; rw [List.foldl_append]

/-- The size and the high-water mark after writing bits at the cursor. -/
theorem bitWriteAll_mark {bbMax : Nat} : ∀ {b : BitBuffer} (bits : List Bool), BufferInv bbMax b →
    b.cursor.toNat + bits.length ≤ Config.lastPosition → bits ≠ [] →
    (b.cursor.toNat + bits.length - 1) / 8 < bbMax →
    GrownTo bbMax ((b.cursor.toNat + bits.length - 1) / 8) b.size (bitWriteAll bbMax b bits).size ∧
    (bitWriteAll bbMax b bits).hwmv = true ∧
    (bitWriteAll bbMax b bits).hwm =
      if b.hwmv = false ∨ (b.cursor.toNat + bits.length - 1) / 8 > b.hwm
      then (b.cursor.toNat + bits.length - 1) / 8 else b.hwm
  | _, [], _, _, hn, _ => absurd rfl hn
  | b, v :: rest, h, hc, _, hb => by
    rw [bitWriteAll_cons]
    simp only [List.length_cons] at hc hb ⊢
    have hb0 : b.cursor.toNat / 8 < bbMax := Nat.lt_of_le_of_lt (Nat.div_le_div_right (by omega)) hb
    have hcur := bitWriteNext_cursor (bbMax := bbMax) (show b.cursor.toNat ≠ Config.lastPosition by omega) v
    have hsz : (bitWriteNext bbMax b v).size = (grow bbMax (b.cursor.toNat / 8) b).size := bitWrite_size _ _ _ _
    have hg := grownTo_grow hb0 h.size_le
    have hm : (bitWriteNext bbMax b v).hwmv = true ∧ (bitWriteNext bbMax b v).hwm =
        if b.hwmv = false ∨ b.cursor.toNat / 8 > b.hwm then b.cursor.toNat / 8 else b.hwm := bitWrite_hwm _ _ _ _
    by_cases hr : rest = []
    · subst hr
      rw [show b.cursor.toNat + (([] : List Bool).length + 1) - 1 = b.cursor.toNat by simp]
      refine ⟨?_, hm⟩
      show GrownTo _ _ _ (bitWriteNext bbMax b v).size
      rw [hsz]; exact hg
    · have e : (bitWriteNext bbMax b v).cursor.toNat + rest.length - 1 = b.cursor.toNat + (rest.length + 1) - 1 := by
        rw [hcur]; omega
      obtain ⟨i1, i2, i3⟩ := bitWriteAll_mark rest (h.bitWriteNext hb0 v) (by rw [hcur]; omega) hr (by rw [e]; exact hb)
      rw [e] at i1 i3
      have hle : b.cursor.toNat / 8 ≤ (b.cursor.toNat + (rest.length + 1) - 1) / 8 := Nat.div_le_div_right (by omega)
      refine ⟨(hsz ▸ hg).trans i1 hle, i2, ?_⟩
      rw [i3, hm.1, hm.2]
      generalize (b.cursor.toNat + (rest.length + 1) - 1) / 8 = L at *
      generalize b.cursor.toNat / 8 = p at *
      cases b.hwmv with
      | false => simp; omega
      | true =>
        simp only [Bool.true_eq_false, false_or]
        by_cases h1 : p > b.hwm
        · rw [if_pos h1]; split <;> split <;> omega
        · rw [if_neg h1]

/-- What writing bits one after the other does (41_vlc.md R165). -/
theorem bitsWritten_bitWriteAll {bbMax : Nat} {b : BitBuffer} (bits : List Bool) (h : BufferInv bbMax b)
    (hc : b.cursor.toNat + bits.length ≤ Config.lastPosition)
    (hb : bits ≠ [] → (b.cursor.toNat + bits.length - 1) / 8 < bbMax) :
    BitsWritten bbMax bits b (bitWriteAll bbMax b bits) := by
  obtain ⟨_, h2, h3, h4, h5⟩ := bitWriteAll_spec bits h hc hb
  refine ⟨h2, ?_, ?_, ?_, ?_, ?_, ?_⟩
  · intro i hi
    have hne : bits ≠ [] := by intro e; subst e; simp at hi
    have hlt : (b.cursor.toNat + i) / 8 < (bitWriteAll bbMax b bits).size :=
      Nat.lt_of_le_of_lt (Nat.div_le_div_right (by omega)) (h5 hne)
    rw [h4 _ hlt, if_pos (by omega)]
    congr 2
    omega
  · intro q hq hs
    rw [h4 q (by omega), if_neg (by omega)]
    unfold bitRead
    rw [if_neg (by omega)]
    rfl
  · intro q hq hs hs2
    rw [h4 q hs2, if_neg (by omega)]
    unfold bitRead
    rw [if_pos (by omega)]
    rfl
  · intro e; subst e; rfl
  · intro hn; exact (bitWriteAll_mark bits h hc hn (hb hn)).1
  · intro hn; exact (bitWriteAll_mark bits h hc hn (hb hn)).2

end Sys2Proof.Machine
end

