-- ==== Sys2Proof/Laws/Codec.lean ====
section
/-! SUPPORT. What the pipelines can do: where each can end, and what it keeps. -/

namespace Sys2Proof.Machine

/-! ### ENCODE -/

/-- The errors of `TR.ENC` and of the steps of `ENCODE` after it (44_codec.md R231). -/
def EncodeError (e : Status) : Prop := e = .encodingOverflow ∨ e = .symbolNotFound ∨ e = .capacityExceeded

theorem EncodeError.ne_ok {e : Status} (h : EncodeError e) : e ≠ .ok := by
  rcases h with rfl | rfl | rfl <;> decide

/-- Step 3 of `ENCODE` touches the buffer only, and keeps its invariant. -/
theorem encodeSymbols_cases : ∀ (text : List Byte) (s : State), BufferInv s.caps.bbMax s.bb →
    ∃ b, (encodeSymbols text s).state = s.setBb b ∧ BufferInv s.caps.bbMax b ∧
      (((encodeSymbols text s).status = .ok ∧ (encodeSymbols text s).data = 0) ∨
       (EncodeError (encodeSymbols text s).status ∧ (encodeSymbols text s).data = 0))
  | [], s, h => ⟨s.bb, rfl, h, .inl ⟨rfl, rfl⟩⟩
  | x :: rest, s, h => by
    unfold encodeSymbols
    rcases doTrEnc_cases x s with ⟨e, he, h1⟩ | ⟨c, _, hfit, h1⟩
    · rw [h1, andThen_error (show (raise e s).status ≠ .ok from EncodeError.ne_ok he)]
      exact ⟨s.bb, rfl, h, .inr ⟨he, rfl⟩⟩
    · rw [h1, andThen_respond]
      exact encodeSymbols_cases rest _ (hfit.bufferInv h)

/-- The state in which step 3 of `ENCODE` starts. -/
theorem encodeSetup_eq (s : State) : encodeSetup s =
    (installTree ((s.setObuf []).setFreq (countBytes (s.ibuf ++ [Config.eosByte])))
      (treeify (countBytes (s.ibuf ++ [Config.eosByte])))).setBb BitBuffer.fresh := rfl

theorem doTrSer_cases (s : State) :
    (s.obuf.length + (serialize s.tree).length > s.caps.obufMax ∧ doTrSer s = raise .capacityExceeded s) ∨
    (s.obuf.length + (serialize s.tree).length ≤ s.caps.obufMax ∧ doTrSer s =
      respond (lengthWord (serialize s.tree).length) (s.setObuf (s.obuf ++ serialize s.tree))) := by
  unfold doTrSer
  simp only
  split
  · next h => exact .inl ⟨h, rfl⟩
  · next h => exact .inr ⟨by omega, rfl⟩

theorem doBbOut_cases (s : State) :
    (s.obuf.length + s.bb.size > s.caps.obufMax ∧ doBbOut s = raise .capacityExceeded s) ∨
    (s.obuf.length + s.bb.size ≤ s.caps.obufMax ∧ doBbOut s =
      respond (lengthWord s.bb.size) (s.setObuf (s.obuf ++ bufferBytes s.bb))) := by
  unfold doBbOut
  split
  · next h => exact .inl ⟨h, rfl⟩
  · next h => exact .inr ⟨by omega, rfl⟩

/-- Where `ENCODE` ends (44_codec.md R231): with the serialized tree and the bytes of the buffer, or in an error with
no output. -/
theorem doEncode_cases (s : State) :
    ∃ b, BufferInv s.caps.bbMax b ∧
      ((∃ e, EncodeError e ∧ doEncode s = raise e (((encodeSetup s).setBb b).setObuf [])) ∨
       (∃ o, o = serialize (encodeSetup s).tree ++ bufferBytes b ∧ o.length ≤ s.caps.obufMax ∧
          doEncode s = respond (lengthWord o.length) (((encodeSetup s).setBb b).setObuf o))) := by
  obtain ⟨b, h1, hb, h2⟩ := encodeSymbols_cases (s.ibuf ++ [Config.eosByte]) (encodeSetup s) (bufferInv_fresh _)
  have hfail : ∀ (g : Finished), EncodeError g.status →
      (match g.status with
        | .ok => respond (lengthWord g.state.obuf.length) g.state
        | .encodingOverflow | .symbolNotFound | .unexpectedEndOfStream | .unexpectedNullChild
        | .indexOutOfRange | .illegalCommand | .capacityExceeded => raise g.status (g.state.setObuf [])) =
      raise g.status (g.state.setObuf []) := by
    rintro ⟨st, e, d⟩ (h | h | h) <;> simp only at h <;> subst h <;> rfl
  unfold doEncode
  rcases h2 with ⟨hok, _⟩ | ⟨herr, _⟩
  · have hs : (encodeSymbols (s.ibuf ++ [Config.eosByte]) (encodeSetup s)).state = (encodeSetup s).setBb b := h1
    rw [andThen_ok hok, hs, doBbFin_eq, andThen_respond]
    rw [show ((encodeSetup s).setBb b).bb = b from rfl]
    refine ⟨finalBuffer b, bufferInv_final hb, ?_⟩
    rcases doTrSer_cases (((encodeSetup s).setBb b).setBb (finalBuffer b)) with ⟨_, h3⟩ | ⟨_, h3⟩
    · refine .inl ⟨.capacityExceeded, .inr (.inr rfl), ?_⟩
      rw [h3, andThen_error (show (raise _ _).status ≠ .ok by simp)]
      rfl
    · rw [h3, andThen_respond, show (((encodeSetup s).setBb b).setBb (finalBuffer b)).obuf = [] from rfl,
        show (((encodeSetup s).setBb b).setBb (finalBuffer b)).tree = (encodeSetup s).tree from rfl]
      rcases doBbOut_cases ((((encodeSetup s).setBb b).setBb (finalBuffer b)).setObuf
        ([] ++ serialize (encodeSetup s).tree)) with ⟨_, h4⟩ | ⟨hle, h4⟩
      · refine .inl ⟨.capacityExceeded, .inr (.inr rfl), ?_⟩
        rw [h4]
        rfl
      · refine .inr ⟨_, rfl, ?_, ?_⟩
        · have h5 : ([] ++ serialize (encodeSetup s).tree).length + (finalBuffer b).size ≤ s.caps.obufMax := hle
          simp only [List.length_append, bufferBytes_length, List.length_nil] at h5 ⊢
          omega
        · rw [h4]
          rfl
  · refine ⟨b, hb, .inl ⟨_, herr, ?_⟩⟩
    rw [andThen_error (f := encodeSymbols _ _) herr.ne_ok, andThen_error (f := encodeSymbols _ _) herr.ne_ok,
      andThen_error (f := encodeSymbols _ _) herr.ne_ok]
    exact (hfail _ herr).trans (by rw [h1])

/-- The text with its sentinel can be counted: the counters sum to two more than its length (44_codec.md R232). -/
theorem counterSum_text {s : State} (h : s.Inv) :
    counterSum (countBytes (s.ibuf ++ [Config.eosByte])) = s.ibuf.length + 2 := by
  have := h.text_lt
  rw [counterSum_countBytes _ (by simp; omega)]
  simp

theorem inv_encodeSetup {s : State} (h : s.Inv) : (encodeSetup s).Inv := by
  have hlt := h.text_lt
  have hsum := counterSum_text h
  have hsum' : counterSum (countBytes (s.ibuf ++ [Config.eosByte])) < 2 ^ 32 := by omega
  have hsz := treeify_size hsum'
  rw [encodeSetup_eq]
  exact (((h.setObuf (o := []) (Nat.zero_le _)).setFreq _).install (fitsStore_treeify h.caps hsum') (by omega)).setBb
    (bufferInv_fresh _)

theorem inv_doEncode {s : State} (h : s.Inv) : (doEncode s).state.Inv := by
  obtain ⟨b, hb, ⟨e, _, h1⟩ | ⟨o, _, ho, h1⟩⟩ := doEncode_cases s
  · rw [h1]; exact ((inv_encodeSetup h).setBb hb).setObuf (Nat.zero_le _)
  · rw [h1]; exact ((inv_encodeSetup h).setBb hb).setObuf ho

/-! ### DECODE -/

/-- The errors of the walk (44_codec.md R240). -/
def DecodeError (e : Status) : Prop :=
  e = .unexpectedEndOfStream ∨ e = .unexpectedNullChild ∨ e = .capacityExceeded

theorem DecodeError.ne_ok {e : Status} (h : DecodeError e) : e ≠ .ok := by
  rcases h with rfl | rfl | rfl <;> decide

theorem DecodeError.ne_illegal {e : Status} (h : DecodeError e) : e ≠ .illegalCommand := by
  rcases h with rfl | rfl | rfl <;> decide

/-- Where one step of a running walk ends: it failed, or it is done, or it goes on with at most one symbol more
(44_codec.md R243). -/
theorem doDecStep_run {s : State} (hr : s.dstate = .run) :
    (∃ e c, DecodeError e ∧ doDecStep s =
      raise e (((s.setBb { s.bb with cursor := c }).setObuf []).setWalk .fail [])) ∨
    (bitRead s.bb s.bb.cursor.toNat ≠ none ∧ s.bb.cursor.toNat ≠ Config.lastPosition ∧
      ((doDecStep s = respond (dstateWord .done) ((s.setBb (advanceCursor s.bb)).setWalk .done [])) ∨
       ∃ o p, s.obuf.length ≤ o.length ∧ (s.obuf.length ≤ s.caps.obufMax → o.length ≤ s.caps.obufMax) ∧
        (s.Inv → isAbsent (nodeAt s.tree p) = false ∧ isLeaf (nodeAt s.tree p) = false) ∧
        doDecStep s = respond (dstateWord .run) (((s.setBb (advanceCursor s.bb)).setObuf o).setWalk .run p))) := by
  rcases doDecStep_cases s with ⟨h, _⟩ | ⟨_, _, h⟩ | ⟨_, _, _, h⟩ | ⟨_, hne, v, hv, h⟩
  · exact absurd hr h
  · exact .inl ⟨_, s.bb.cursor, .inr (.inr rfl), h⟩
  · exact .inl ⟨_, s.bb.cursor + 1, .inl rfl, h⟩
  · rcases walkTo_cases v (s.setBb (advanceCursor s.bb)) with ⟨e, he, h1⟩ | h1 | ⟨x, n, hn, hl, h1⟩ | ⟨ha, hl, h1⟩
    · refine .inl ⟨e, s.bb.cursor + 1, ?_, h.trans h1⟩
      rcases he with rfl | rfl
      · exact .inr (.inl rfl)
      · exact .inr (.inr rfl)
    · exact .inr ⟨by rw [hv]; simp, hne, .inl (h.trans h1)⟩
    · refine .inr ⟨by rw [hv]; simp, hne, .inr ⟨s.obuf ++ [x], [], by simp, ?_, ?_, h.trans h1⟩⟩
      · intro ho
        have hl' : s.obuf.length ≠ s.caps.obufMax := hl
        simp only [List.length_append, List.length_singleton]
        omega
      · intro _
        exact nodeAt_prefix_of_leaf (p := []) (q := s.wpath ++ [v]) (by simp) hn
    · exact .inr ⟨by rw [hv]; simp, hne, .inr ⟨s.obuf, s.wpath ++ [v], Nat.le_refl _, id, fun _ => ⟨ha, hl⟩,
        h.trans h1⟩⟩

/-- Where the loop of `DECODE` ends: in an error with no output, or with the walk no longer running, or out of rounds. -/
theorem decodeLoop_cases : ∀ (fuel : Nat) (s : State),
    ∃ c o d p, (s.obuf.length ≤ s.caps.obufMax → o.length ≤ s.caps.obufMax) ∧
      (decodeLoop fuel s).state = ((s.setBb { s.bb with cursor := c }).setObuf o).setWalk d p ∧
      ((DecodeError (decodeLoop fuel s).status ∧ (decodeLoop fuel s).data = 0 ∧ o = [] ∧ d = .fail ∧ p = []) ∨
       ((decodeLoop fuel s).status = .ok ∧ (decodeLoop fuel s).data = lengthWord o.length))
  | 0, s => ⟨s.bb.cursor, s.obuf, s.dstate, s.wpath, id, rfl, .inr ⟨rfl, rfl⟩⟩
  | fuel + 1, s => by
    unfold decodeLoop
    by_cases hr : s.dstate = .run
    · rw [if_pos hr]
      rcases doDecStep_run hr with ⟨e, c, he, h⟩ | ⟨_, _, h | ⟨o, p, _, ho, _, h⟩⟩
      · rw [h, andThen_error (show (raise e _).status ≠ .ok from he.ne_ok)]
        exact ⟨c, [], .fail, [], fun _ => Nat.zero_le _, rfl, .inl ⟨he, rfl, rfl, rfl, rfl⟩⟩
      · rw [h, andThen_respond]
        obtain ⟨c', o', d', p', h1, h2, h3⟩ :=
          decodeLoop_cases fuel ((s.setBb (advanceCursor s.bb)).setWalk .done [])
        exact ⟨c', o', d', p', h1, by rw [h2]; rfl, h3⟩
      · rw [h, andThen_respond]
        obtain ⟨c', o', d', p', h1, h2, h3⟩ :=
          decodeLoop_cases fuel (((s.setBb (advanceCursor s.bb)).setObuf o).setWalk .run p)
        exact ⟨c', o', d', p', fun hle => h1 (ho hle), by rw [h2]; rfl, h3⟩
    · rw [if_neg hr]
      exact ⟨s.bb.cursor, s.obuf, s.dstate, s.wpath, id, rfl, .inr ⟨rfl, rfl⟩⟩

theorem inv_doDecStep {s : State} (h : s.Inv) : (doDecStep s).state.Inv := by
  by_cases hr : s.dstate = .run
  · rcases doDecStep_run hr with ⟨e, c, _, h1⟩ | ⟨_, _, h1 | ⟨o, p, _, ho, hp, h1⟩⟩
    · rw [h1]
      exact ((h.setBb (h.buffer.setCursor c)).setObuf (Nat.zero_le _)).rest (by decide)
    · rw [h1]; exact (h.setBb h.buffer.advanceCursor).rest (by decide)
    · rw [h1]
      exact ((h.setBb h.buffer.advanceCursor).setObuf (ho h.olen)).walkOn (hp h).1 (hp h).2
  · rcases doDecStep_cases s with ⟨_, h1⟩ | ⟨h1, _⟩ | ⟨h1, _⟩ | ⟨h1, _⟩
    · rw [h1]; exact h
    all_goals exact absurd h1 hr

theorem inv_decodeLoop : ∀ (fuel : Nat) {s : State}, s.Inv → (decodeLoop fuel s).state.Inv
  | 0, _, h => h
  | fuel + 1, s, h => by
    unfold decodeLoop
    split
    · exact andThen_state_induction (inv_doDecStep h) fun _ ht => inv_decodeLoop fuel ht
    · exact h

theorem inv_doTrDes {s : State} (h : s.Inv) : (doTrDes s).state.Inv := by
  rcases doTrDes_cases s with ⟨e, _, h1⟩ | ⟨t, rest, hb, _, _, hf, h1⟩
  · rw [h1]; exact h
  · rw [h1]
    have hip := ipos_after_tree h.ipos hb
    have hlen := serialize_length t
    have := h.text_lt
    exact (h.install hf (by omega)).setIpos hip

/-- What `BB.LOAD` can do (40_bitbuffer.md R140). -/
theorem doBbLoad_cases (s : State) :
    ((s.ibuf.drop s.ipos).length > s.caps.bbMax ∧ doBbLoad s = raise .capacityExceeded s) ∨
    ((s.ibuf.drop s.ipos).length ≤ s.caps.bbMax ∧ doBbLoad s =
      respond (lengthWord (s.ibuf.drop s.ipos).length) (s.setBb (loadedBuffer (s.ibuf.drop s.ipos)))) := by
  unfold doBbLoad
  simp only
  split
  · next h => exact .inl ⟨h, rfl⟩
  · next h => exact .inr ⟨by omega, rfl⟩

theorem inv_doBbLoad {s : State} (h : s.Inv) : (doBbLoad s).state.Inv := by
  rcases doBbLoad_cases s with ⟨_, h1⟩ | ⟨hl, h1⟩
  · rw [h1]; exact h
  · rw [h1]; exact h.setBb (bufferInv_loaded hl)

theorem inv_doDecStart {s : State} (h : s.Inv) : (doDecStart s).state.Inv := by
  have h0 := h.setObuf (o := []) (Nat.zero_le _)
  rcases doDecStart_cases s with ⟨e, _, h1⟩ | h1 | ⟨ha, hl, h1⟩
  · rw [h1]; exact h0.rest (by decide)
  · rw [h1]; exact h0.rest (by decide)
  · rw [h1]; exact h0.walkOn ha hl

theorem inv_doDecode {s : State} (h : s.Inv) : (doDecode s).state.Inv := by
  unfold doDecode
  have h0 : ((s.setObuf []).setIpos 0).Inv := (h.setObuf (Nat.zero_le _)).setIpos (Nat.zero_le _)
  exact andThen_state_induction
    (andThen_state_induction (andThen_state_induction (inv_doTrDes h0) fun _ => inv_doBbLoad) fun _ => inv_doDecStart)
    fun _ ht => inv_decodeLoop _ ht

/-- The four places where `DECODE` can end (44_codec.md R240): in `TR.DES`, in `BB.LOAD`, in `DEC.START`, or in the
loop. -/
theorem doDecode_cases (s : State) :
    (∃ e, (e = .unexpectedEndOfStream ∨ e = .capacityExceeded) ∧
      doDecode s = raise e ((s.setObuf []).setIpos 0)) ∨
    (∃ t rest, s.ibuf = serialize t ++ rest ∧ noNullSymbol t = true ∧ zeroCounts t = t ∧ fitsStore s.caps t = true ∧
      ((doDecode s = raise .capacityExceeded
          ((installTree (s.setObuf []) t).setIpos (serialize t).length)) ∨
       (rest.length ≤ s.caps.bbMax ∧ ∃ u, u = ((installTree (s.setObuf []) t).setIpos (serialize t).length).setBb
          (loadedBuffer rest) ∧
        ((∃ e, (e = .unexpectedNullChild ∨ e = .unexpectedEndOfStream) ∧
            doDecode s = raise e (u.setWalk .fail [])) ∨
         (∃ d, (d = .done ∨ (d = .run ∧ isAbsent t = false ∧ isLeaf t = false)) ∧
            doDecode s = decodeLoop (8 * rest.length + 1) (u.setWalk d [])))))) := by
  unfold doDecode
  rcases doTrDes_cases ((s.setObuf []).setIpos 0) with ⟨e, he, h1⟩ | ⟨t, rest, hb, hn, hz, hf, h1⟩
  · refine .inl ⟨e, he, ?_⟩
    have hne : e ≠ .ok := by rcases he with rfl | rfl <;> decide
    rw [h1, andThen_error (show (raise e _).status ≠ .ok from hne), andThen_error (show (raise e _).status ≠ .ok from hne),
      andThen_error (show (raise e _).status ≠ .ok from hne)]
  · refine .inr ⟨t, rest, hb, hn, hz, hf, ?_⟩
    rw [h1, andThen_respond]
    have e0 : (installTree ((s.setObuf []).setIpos 0) t).setIpos (((s.setObuf []).setIpos 0).ipos + (serialize t).length) =
        (installTree (s.setObuf []) t).setIpos (serialize t).length := by
      show (installTree ((s.setObuf []).setIpos 0) t).setIpos (0 + (serialize t).length) = _
      rw [Nat.zero_add]; rfl
    rw [e0]
    have hd : List.drop ((installTree (s.setObuf []) t).setIpos (serialize t).length).ipos
        ((installTree (s.setObuf []) t).setIpos (serialize t).length).ibuf = rest := by
      show List.drop (serialize t).length s.ibuf = rest
      rw [show s.ibuf = serialize t ++ rest from hb]; simp
    rcases doBbLoad_cases ((installTree (s.setObuf []) t).setIpos (serialize t).length) with ⟨_, h2⟩ | ⟨hl, h2⟩
    · refine .inl ?_
      rw [h2, andThen_error (show (raise _ _).status ≠ .ok by simp), andThen_error (show (raise _ _).status ≠ .ok by simp)]
    · rw [hd] at h2 hl
      refine .inr ⟨hl, _, rfl, ?_⟩
      rw [h2, andThen_respond]
      rcases doDecStart_cases
          (((installTree (s.setObuf []) t).setIpos (serialize t).length).setBb (loadedBuffer rest)) with
        ⟨e, he, h3⟩ | h3 | ⟨ha, hlf, h3⟩
      · have hne : e ≠ .ok := by rcases he with rfl | rfl <;> decide
        refine .inl ⟨e, he, ?_⟩
        rw [h3, andThen_error (show (raise e _).status ≠ .ok from hne)]
        rfl
      · refine .inr ⟨.done, .inl rfl, ?_⟩
        rw [h3, andThen_respond]; rfl
      · refine .inr ⟨.run, .inr ⟨rfl, ha, hlf⟩, ?_⟩
        rw [h3, andThen_respond]; rfl

end Sys2Proof.Machine
end

