-- ==== Sys2Proof/Laws/Walk.lean ====
section
/-! SUPPORT. The walk, edge by edge and leaf by leaf: what one step does on each kind of child, and where the loop of
`DECODE` stands after the path of a leaf. -/

namespace Sys2Proof.Machine

/-! ### One edge -/

theorem isLeaf_iff {t : HuffTree} : isLeaf t = true ↔ ∃ x n, t = .node x n .absent .absent := by
  cases t with
  | absent => simp [isLeaf]
  | node x n l r =>
    cases l <;> cases r <;> simp [isLeaf]

theorem walkTo_absent {v : Bool} {s : State} (h : nodeAt s.tree (s.wpath ++ [v]) = .absent) :
    walkTo v s = decFail .unexpectedNullChild s := by
  rw [nodeAt_snoc] at h
  unfold walkTo; rw [h]

theorem walkTo_sentinel {v : Bool} {s : State} {n : Word}
    (h : nodeAt s.tree (s.wpath ++ [v]) = .node Config.eosByte n .absent .absent) :
    walkTo v s = respond (dstateWord .done) (s.setWalk .done []) := by
  rw [nodeAt_snoc] at h
  unfold walkTo; rw [h]; simp

theorem walkTo_full {v : Bool} {s : State} {x : Byte} {n : Word} (hx : x ≠ Config.eosByte)
    (h : nodeAt s.tree (s.wpath ++ [v]) = .node x n .absent .absent) (hf : s.obuf.length = s.caps.obufMax) :
    walkTo v s = decFail .capacityExceeded s := by
  rw [nodeAt_snoc] at h
  unfold walkTo; rw [h]; simp [hx, hf]

theorem walkTo_symbol {v : Bool} {s : State} {x : Byte} {n : Word} (hx : x ≠ Config.eosByte)
    (h : nodeAt s.tree (s.wpath ++ [v]) = .node x n .absent .absent) (hf : s.obuf.length ≠ s.caps.obufMax) :
    walkTo v s = respond (dstateWord .run) ((s.setObuf (s.obuf ++ [x])).setWalk .run []) := by
  rw [nodeAt_snoc] at h
  unfold walkTo; rw [h]; simp [hx, hf]

theorem walkTo_inner {v : Bool} {s : State} (ha : isAbsent (nodeAt s.tree (s.wpath ++ [v])) = false)
    (hl : isLeaf (nodeAt s.tree (s.wpath ++ [v])) = false) :
    walkTo v s = respond (dstateWord .run) (s.setWalk .run (s.wpath ++ [v])) := by
  rw [nodeAt_snoc] at ha hl
  unfold walkTo
  cases h : childOf (nodeAt s.tree s.wpath) v with
  | absent => rw [h] at ha; cases ha
  | node x n l r =>
    rw [h] at hl
    simp only [isLeaf, Bool.and_eq_false_iff] at hl
    simp only
    rw [if_neg (by rintro ⟨h1, h2⟩; rcases hl with hl | hl <;> simp_all)]

theorem doDecStep_bit {s : State} {v : Bool} (hr : s.dstate = .run) (hc : s.bb.cursor.toNat ≠ Config.lastPosition)
    (hv : bitRead s.bb s.bb.cursor.toNat = some v) : doDecStep s = walkTo v (s.setBb (advanceCursor s.bb)) := by
  rcases doDecStep_cases s with ⟨h, _⟩ | ⟨_, h, _⟩ | ⟨_, _, h, _⟩ | ⟨_, _, w, h, h1⟩
  · exact absurd hr h
  · exact absurd h hc
  · rw [hv] at h; cases h
  · rw [hv] at h; cases h; exact h1

/-! ### One leaf -/

/-- The state with its cursor moved on over some bits. -/
def skipBits (s : State) (n : Nat) : State := s.setBb { s.bb with cursor := s.bb.cursor + BitVec.ofNat 32 n }

/-- Where the walk stands once it has reached a leaf (44_codec.md R243). -/
def atLeaf (x : Byte) (s : State) : State :=
  if x = Config.eosByte then s.setWalk .done [] else (s.setObuf (s.obuf ++ [x])).setWalk .run []

theorem decodeLoop_succ (n : Nat) (s : State) : decodeLoop (n + 1) s =
    if s.dstate = .run then andThen (doDecStep s) (decodeLoop n) else respond (lengthWord s.obuf.length) s := rfl

/-- The loop of `DECODE` over the bits of the rest of a leaf's path. -/
theorem decodeLoop_leaf {x : Byte} {n : Word} (fuel : Nat) : ∀ (q : List Bool) (s : State), q ≠ [] → s.dstate = .run →
    nodeAt s.tree (s.wpath ++ q) = .node x n .absent .absent →
    s.bb.cursor.toNat + q.length ≤ Config.lastPosition →
    (∀ i, i < q.length → bitRead s.bb (s.bb.cursor.toNat + i) = some (q.getD i false)) →
    (x ≠ Config.eosByte → s.obuf.length < s.caps.obufMax) →
    decodeLoop (fuel + q.length) s = decodeLoop fuel (atLeaf x (skipBits s q.length))
  | [], _, h, _, _, _, _, _ => absurd rfl h
  | v :: q, s, _, hr, hn, hc, hb, ho => by
    have hc1 : s.bb.cursor.toNat ≠ Config.lastPosition := by simp only [List.length_cons] at hc; omega
    have hv : bitRead s.bb s.bb.cursor.toNat = some v := by simpa using hb 0 (by simp)
    have hstep := doDecStep_bit hr hc1 hv
    rw [List.length_cons, ← Nat.add_assoc, decodeLoop_succ, if_pos hr, hstep]
    cases q with
    | nil =>
      by_cases hx : x = Config.eosByte
      · subst hx
        rw [walkTo_sentinel (s := s.setBb (advanceCursor s.bb)) (n := n) hn, andThen_respond]
        unfold atLeaf skipBits; rw [if_pos rfl]; rfl
      · rw [walkTo_symbol (s := s.setBb (advanceCursor s.bb)) hx (n := n) hn (Nat.ne_of_lt (ho hx)), andThen_respond]
        unfold atLeaf skipBits; rw [if_neg hx]; rfl
    | cons w q =>
      have hin := nodeAt_prefix_of_leaf (t := s.tree) (p := s.wpath ++ [v]) (q := w :: q) (by simp)
        (by rw [List.append_assoc]; exact hn)
      rw [walkTo_inner (s := s.setBb (advanceCursor s.bb)) hin.1 hin.2, andThen_respond]
      have hadd := cursor_add_one hc1
      have hlen : (w :: q).length + 1 = (v :: w :: q).length := rfl
      have ih := decodeLoop_leaf fuel (w :: q)
        ((s.setBb (advanceCursor s.bb)).setWalk .run (s.wpath ++ [v])) (by simp) rfl
        (by show nodeAt s.tree ((s.wpath ++ [v]) ++ (w :: q)) = _; rw [List.append_assoc]; exact hn)
        (by show (s.bb.cursor + 1).toNat + _ ≤ _; rw [hadd]; omega)
        (by
          intro i hi
          show bitRead (advanceCursor s.bb) ((s.bb.cursor + 1).toNat + i) = _
          have := hb (i + 1) (by rw [← hlen]; omega)
          rw [hadd, show s.bb.cursor.toNat + 1 + i = s.bb.cursor.toNat + (i + 1) by omega]
          exact this)
        ho
      refine ih.trans (congrArg (decodeLoop fuel) ?_)
      have hcur : s.bb.cursor + 1 + BitVec.ofNat 32 (w :: q).length = s.bb.cursor + BitVec.ofNat 32 ((w :: q).length + 1) := by
        rw [BitVec.add_assoc, BitVec.ofNat_add, BitVec.add_comm 1]; rfl
      unfold atLeaf skipBits
      simp only [State.setBb, State.setWalk, State.setObuf, advanceCursor, hcur]

theorem decodeLoop_stopped {s : State} (fuel : Nat) (h : s.dstate ≠ .run) :
    decodeLoop fuel s = respond (lengthWord s.obuf.length) s := by
  cases fuel with
  | zero => rfl
  | succ n => unfold decodeLoop; rw [if_neg h]

/-! ### A text -/

/-- The loop of `DECODE` over the paths of leaves and then the path of the sentinel's leaf, from the root
(44_codec.md R239). -/
theorem decodeLoop_walk (last : List Bool) (hlast : last ≠ []) (fuel : Nat) : ∀ (walk : List (List Bool × Byte)) (s : State),
    s.dstate = .run → s.wpath = [] →
    (∀ p ∈ walk, p ∈ leafPaths s.tree ∧ p.1 ≠ [] ∧ p.2 ≠ Config.eosByte) → (last, Config.eosByte) ∈ leafPaths s.tree →
    s.obuf.length + walk.length ≤ s.caps.obufMax →
    s.bb.cursor.toNat + (walk.flatMap Prod.fst ++ last).length ≤ Config.lastPosition →
    (∀ i, i < (walk.flatMap Prod.fst ++ last).length →
      bitRead s.bb (s.bb.cursor.toNat + i) = some ((walk.flatMap Prod.fst ++ last).getD i false)) →
    decodeLoop (fuel + (walk.flatMap Prod.fst ++ last).length) s =
      respond (lengthWord (s.obuf.length + walk.length))
        (((skipBits s (walk.flatMap Prod.fst ++ last).length).setObuf (s.obuf ++ walk.map Prod.snd)).setWalk .done [])
  | [], s, hr, hw, _, hl, _, hc, hb => by
    obtain ⟨n, hn⟩ := nodeAt_of_mem_leafPaths hl
    simp only [List.flatMap_nil, List.nil_append] at hc hb ⊢
    rw [decodeLoop_leaf fuel last s hlast hr (n := n) (by rw [hw]; exact hn) hc hb (fun h => absurd rfl h)]
    unfold atLeaf
    rw [if_pos rfl, decodeLoop_stopped _ (by simp [State.setWalk])]
    simp [skipBits, State.setBb, State.setWalk, State.setObuf]
  | (q, x) :: walk, s, hr, hw, hp, hl, ho, hc, hb => by
    obtain ⟨hq, hqn, hx⟩ := hp (q, x) (by simp)
    obtain ⟨n, hn⟩ := nodeAt_of_mem_leafPaths hq
    have e : ((q, x) :: walk).flatMap Prod.fst ++ last = q ++ (walk.flatMap Prod.fst ++ last) := by simp
    rw [e] at hc hb ⊢
    generalize hrest : walk.flatMap Prod.fst ++ last = rest at hc hb ⊢
    rw [List.length_append] at hc
    simp only [List.length_cons] at ho
    rw [List.length_append, Nat.add_comm q.length, ← Nat.add_assoc]
    rw [decodeLoop_leaf (fuel + rest.length) q s hqn hr (n := n) (by rw [hw]; exact hn) (by omega)
      (by
        intro i hi
        rw [hb i (by rw [List.length_append]; omega), List.getD_append _ _ _ _ hi])
      (fun _ => by omega)]
    have hcur : (s.bb.cursor + BitVec.ofNat 32 q.length).toNat = s.bb.cursor.toNat + q.length := by
      simp only [Config.lastPosition] at hc
      rw [BitVec.toNat_add, BitVec.toNat_ofNat]
      rw [Nat.mod_eq_of_lt (a := q.length) (by omega), Nat.mod_eq_of_lt (by omega)]
    unfold atLeaf
    rw [if_neg hx]
    have ih := decodeLoop_walk last hlast fuel walk
      (((skipBits s q.length).setObuf (s.obuf ++ [x])).setWalk .run []) rfl rfl
      (fun p hm => hp p (by simp [hm])) hl
      (by
        show (s.obuf ++ [x]).length + walk.length ≤ _
        simp only [List.length_append, List.length_singleton]
        exact (by omega : s.obuf.length + 1 + walk.length ≤ s.caps.obufMax))
      (by
        show (s.bb.cursor + BitVec.ofNat 32 q.length).toNat + _ ≤ _
        rw [hcur, hrest]; omega)
      (by
        intro i hi
        rw [hrest] at hi ⊢
        show bitRead s.bb ((s.bb.cursor + BitVec.ofNat 32 q.length).toNat + i) = _
        have := hb (q.length + i) (by rw [List.length_append]; omega)
        rw [hcur, Nat.add_assoc, this, List.getD_append_right _ _ _ _ (by omega), Nat.add_sub_cancel_left])
    rw [hrest] at ih
    refine ih.trans ?_
    have hcc : s.bb.cursor + BitVec.ofNat 32 q.length + BitVec.ofNat 32 rest.length =
        s.bb.cursor + BitVec.ofNat 32 (rest.length + q.length) := by
      rw [BitVec.add_assoc, BitVec.ofNat_add, BitVec.add_comm (BitVec.ofNat 32 q.length)]
    rw [Nat.add_comm rest.length] at hcc ⊢
    simp only [skipBits, State.setBb, State.setWalk, State.setObuf, hcc, List.length_append,
      List.append_assoc, List.map_cons, List.singleton_append, List.length_cons, List.length_nil, Nat.zero_add, Nat.add_assoc, Nat.add_comm 1]

end Sys2Proof.Machine
end

