-- ==== Sys2Proof/Laws/Blind.lean ====
section
/-! SUPPORT. What the shared operations do does not depend on `STATUS` or on the answers given before: the same
operation from a state that differs in these alone ends in a state that differs in these alone. -/

namespace Sys2Proof.Machine

/-- The state with another `STATUS` and other answers given before. -/
def State.reAnswer (e : Status) (rs : List Response) (s : State) : State := { s with status := e, responses := rs }

/-- The same for the end of an operation. -/
def Finished.reAnswer (e : Status) (rs : List Response) (f : Finished) : Finished :=
  ⟨f.state.reAnswer e rs, f.status, f.data⟩

theorem sameBlock_reAnswer (e : Status) (rs : List Response) (s : State) : SameBlock s (s.reAnswer e rs) :=
  ⟨rfl, rfl, rfl, rfl, rfl, rfl, rfl, rfl, rfl, rfl, rfl⟩

theorem complete_reAnswer (e : Status) (rs : List Response) (f : Finished) :
    complete (f.reAnswer e rs) = .next (f.state.reAnswer f.status (rs ++ [⟨f.status, f.data⟩])) := rfl

/-- With the answers given before unchanged, the completed operation is the same state. -/
theorem complete_status {e : Status} {s : State} {g : State → Finished}
    (h : g (s.reAnswer e s.responses) = (g s).reAnswer e s.responses) (hr : (g s).state.responses = s.responses) :
    complete (g (s.reAnswer e s.responses)) = complete (g s) := by
  rw [h]
  show Host.Outcome.next _ = Host.Outcome.next _
  unfold Finished.reAnswer State.reAnswer State.answer
  simp only [hr]

section
variable (e : Status) (rs : List Response)

theorem andThen_reAnswer (f : Finished) {g : State → Finished} (hg : ∀ s, g (s.reAnswer e rs) = (g s).reAnswer e rs) :
    andThen (f.reAnswer e rs) g = (andThen f g).reAnswer e rs := by
  rcases f with ⟨s, st, d⟩
  cases st <;> first | exact hg s | rfl

theorem doWriteCode_reAnswer (c : Code) (s : State) : doWriteCode c (s.reAnswer e rs) = (doWriteCode c s).reAnswer e rs := by
  unfold doWriteCode
  simp only [apply_ite (Finished.reAnswer e rs)]
  rfl

theorem doTrEnc_reAnswer (x : Byte) (s : State) : doTrEnc x (s.reAnswer e rs) = (doTrEnc x s).reAnswer e rs := by
  unfold doTrEnc
  rw [show (s.reAnswer e rs).tree = s.tree from rfl]
  cases findSymbol s.tree x <;> first | rfl | exact doWriteCode_reAnswer e rs _ _

theorem encodeSymbols_reAnswer : ∀ (l : List Byte) (s : State),
    encodeSymbols l (s.reAnswer e rs) = (encodeSymbols l s).reAnswer e rs
  | [], _ => rfl
  | x :: l, s => by
    unfold encodeSymbols
    rw [doTrEnc_reAnswer]
    exact andThen_reAnswer e rs _ (encodeSymbols_reAnswer l)

theorem doTrSer_reAnswer (s : State) : doTrSer (s.reAnswer e rs) = (doTrSer s).reAnswer e rs := by
  unfold doTrSer
  simp only [apply_ite (Finished.reAnswer e rs)]
  rfl

theorem doBbOut_reAnswer (s : State) : doBbOut (s.reAnswer e rs) = (doBbOut s).reAnswer e rs := by
  unfold doBbOut
  simp only [apply_ite (Finished.reAnswer e rs)]
  rfl

theorem doEncode_reAnswer (s : State) : doEncode (s.reAnswer e rs) = (doEncode s).reAnswer e rs := by
  unfold doEncode
  rw [show encodeSetup (s.reAnswer e rs) = (encodeSetup s).reAnswer e rs from rfl, encodeSymbols_reAnswer,
    andThen_reAnswer e rs _ (fun _ => rfl), andThen_reAnswer e rs _ (doTrSer_reAnswer e rs),
    andThen_reAnswer e rs _ (doBbOut_reAnswer e rs)]
  simp only [show (s.reAnswer e rs).ibuf = s.ibuf from rfl]
  generalize andThen _ doBbOut = f
  rcases f with ⟨s, st, d⟩
  cases st <;> rfl

theorem doTrDes_reAnswer (s : State) : doTrDes (s.reAnswer e rs) = (doTrDes s).reAnswer e rs := by
  cases h : deserialize (s.ibuf.drop s.ipos) with
  | none =>
    rw [doTrDes_none h, doTrDes_none (s := s.reAnswer e rs) h]
    simp only [apply_ite (Finished.reAnswer e rs)]
    rfl
  | some p =>
    rw [doTrDes_some h, doTrDes_some (s := s.reAnswer e rs) h]
    simp only [apply_ite (Finished.reAnswer e rs)]
    rfl

theorem doBbLoad_reAnswer (s : State) : doBbLoad (s.reAnswer e rs) = (doBbLoad s).reAnswer e rs := by
  unfold doBbLoad
  simp only [apply_ite (Finished.reAnswer e rs)]
  rfl

theorem doDecStart_reAnswer (s : State) : doDecStart (s.reAnswer e rs) = (doDecStart s).reAnswer e rs := by
  unfold doDecStart
  rw [show (s.reAnswer e rs).tree = s.tree from rfl]
  cases s.tree with
  | absent => rfl
  | node x n l r => simp only [apply_ite (Finished.reAnswer e rs)]; rfl

theorem walkTo_reAnswer (v : Bool) (s : State) : walkTo v (s.reAnswer e rs) = (walkTo v s).reAnswer e rs := by
  unfold walkTo
  rw [show nodeAt (s.reAnswer e rs).tree (s.reAnswer e rs).wpath = nodeAt s.tree s.wpath from rfl]
  cases childOf (nodeAt s.tree s.wpath) v with
  | absent => rfl
  | node x n l r => simp only [apply_ite (Finished.reAnswer e rs)]; rfl

theorem doDecStep_reAnswer (s : State) : doDecStep (s.reAnswer e rs) = (doDecStep s).reAnswer e rs := by
  unfold doDecStep
  rw [show (s.reAnswer e rs).dstate = s.dstate from rfl, show (s.reAnswer e rs).bb = s.bb from rfl]
  split_ifs
  · rfl
  · rfl
  · cases bitRead s.bb s.bb.cursor.toNat with
    | none => rfl
    | some v => exact walkTo_reAnswer e rs v (s.setBb (advanceCursor s.bb))

theorem decodeLoop_reAnswer : ∀ (n : Nat) (s : State), decodeLoop n (s.reAnswer e rs) = (decodeLoop n s).reAnswer e rs
  | 0, _ => rfl
  | n + 1, s => by
    unfold decodeLoop
    rw [show (s.reAnswer e rs).dstate = s.dstate from rfl, doDecStep_reAnswer]
    split_ifs
    · exact andThen_reAnswer e rs _ (decodeLoop_reAnswer n)
    · rfl

theorem doDecode_reAnswer (s : State) : doDecode (s.reAnswer e rs) = (doDecode s).reAnswer e rs := by
  unfold doDecode
  rw [show ((s.reAnswer e rs).setObuf []).setIpos 0 = ((s.setObuf []).setIpos 0).reAnswer e rs from rfl,
    doTrDes_reAnswer, andThen_reAnswer e rs _ (doBbLoad_reAnswer e rs), andThen_reAnswer e rs _ (doDecStart_reAnswer e rs),
    andThen_reAnswer]
  exact fun s => decodeLoop_reAnswer e rs _ s

end

/-! ### The loop of `DECODE` as commands -/

theorem execUntilError_ok {i : Instr} {s t : State} (rest : List Instr) (h : exec i s = .next t) (ht : t.status = .ok) :
    execUntilError (i :: rest) s = execUntilError rest t := by
  rw [execUntilError, h]
  exact if_pos ht

theorem execUntilError_error {i : Instr} {s t : State} (rest : List Instr) (h : exec i s = .next t)
    (ht : t.status ≠ .ok) : execUntilError (i :: rest) s = some t := by
  rw [execUntilError, h]
  exact if_neg ht

/-- The loop of `DECODE` is a run of `DEC.STEP` commands up to the first error or the end of the walk
(44_codec.md R240; 30_encoding.md R109). -/
theorem decodeLoop_commands : ∀ (fuel : Nat) (s : State), ∃ k, k ≤ fuel ∧ ∀ rs, ∃ rs',
    execUntilError (List.replicate k .decStep) (s.reAnswer .ok rs) =
      some ((decodeLoop fuel s).state.reAnswer (decodeLoop fuel s).status rs')
  | 0, s => ⟨0, Nat.le_refl 0, fun rs => ⟨rs, rfl⟩⟩
  | fuel + 1, s => by
    rw [decodeLoop_succ]
    by_cases hr : s.dstate = .run
    · rw [if_pos hr]
      have hx : ∀ rs, exec .decStep (s.reAnswer .ok rs) = .next ((doDecStep s).state.reAnswer (doDecStep s).status
          (rs ++ [⟨(doDecStep s).status, (doDecStep s).data⟩])) := fun rs =>
        (congrArg complete (doDecStep_reAnswer .ok rs s)).trans (complete_reAnswer _ _ _)
      rcases andThen_cases (doDecStep s) (decodeLoop fuel) with ⟨h1, h2⟩ | ⟨h1, h2⟩
      · refine ⟨1, by omega, fun rs => ⟨rs ++ [⟨(doDecStep s).status, (doDecStep s).data⟩], ?_⟩⟩
        rw [h2, List.replicate_one]
        exact execUntilError_error [] (hx rs) h1
      · obtain ⟨k, hk, ih⟩ := decodeLoop_commands fuel (doDecStep s).state
        refine ⟨k + 1, by omega, fun rs => ?_⟩
        obtain ⟨rs', h3⟩ := ih (rs ++ [⟨(doDecStep s).status, (doDecStep s).data⟩])
        refine ⟨rs', ?_⟩
        rw [h2, List.replicate_succ, execUntilError_ok _ (hx rs) h1, h1]
        rw [h1] at h3
        exact h3
    · rw [if_neg hr]
      exact ⟨0, Nat.zero_le _, fun rs => ⟨rs, rfl⟩⟩

/-- The loop of `DECODE` has rounds enough: it ends with the walk done or failed (44_codec.md R240). -/
theorem decodeLoop_ends : ∀ (fuel : Nat) (s : State), s.bb.cursor.toNat ≤ 8 * s.bb.size →
    8 * s.bb.size + 1 ≤ fuel + s.bb.cursor.toNat → s.dstate = .run ∨ s.dstate = .done →
    ((decodeLoop fuel s).status = .ok → (decodeLoop fuel s).state.dstate = .done)
  | 0, s, h1, h2, _ => by omega
  | fuel + 1, s, h1, h2, hd => by
    rw [decodeLoop_succ]
    by_cases hr : s.dstate = .run
    · rw [if_pos hr]
      rcases doDecStep_run hr with ⟨e, c, he, h⟩ | ⟨hb, hc, h⟩
      · rw [h, andThen_error (show (raise e _).status ≠ .ok from he.ne_ok)]
        exact fun h => absurd h he.ne_ok
      · have hsz : s.bb.cursor.toNat / 8 < s.bb.size := by
          unfold bitRead at hb
          by_contra hn
          rw [if_pos (by omega)] at hb
          exact hb rfl
        have hadd := cursor_add_one hc
        rcases h with h | ⟨o, p, _, _, _, h⟩
        · rw [h, andThen_respond, decodeLoop_stopped _ (by simp [State.setWalk])]
          exact fun _ => rfl
        · rw [h, andThen_respond]
          refine decodeLoop_ends fuel _ ?_ ?_ (.inl rfl)
          · show (s.bb.cursor + 1).toNat ≤ 8 * s.bb.size
            omega
          · show 8 * s.bb.size + 1 ≤ fuel + (s.bb.cursor + 1).toNat
            omega
    · rw [if_neg hr]
      rcases hd with hd | hd
      · exact absurd hd hr
      · exact fun _ => hd

end Sys2Proof.Machine
end

