-- ==== Sys2Proof/Laws/Encoding.lean ====
section
/-! SUPPORT. The fields of a word and the word of the fields are the same thing (30_encoding.md R100). -/

namespace Sys2Proof

theorem extract_joinWord (f : Fields) (s n : Nat) : BitVec.extractLsb' s n (joinWord f) =
    BitVec.extractLsb' s n (f.imm ++ f.z3 ++ f.sym ++ f.z2 ++ f.rs ++ f.z1 ++ f.rd ++ f.val ++ f.op) := rfl

/-- The fields of a word made of fields. -/
@[simp] theorem splitWord_joinWord (f : Fields) : splitWord (joinWord f) = f := by
  unfold splitWord
  simp only [extract_joinWord]
  simp (disch := omega) only [BitVec.extractLsb'_append_eq_of_le, BitVec.extractLsb'_append_eq_of_add_le,
    Nat.reduceSub, Nat.sub_self, BitVec.extractLsb'_eq_self]

/-- The word made of a word's fields. -/
@[simp] theorem joinWord_splitWord (w : CommandWord) : joinWord (splitWord w) = w := by
  have h : joinWord (splitWord w) = w.extractLsb' 32 32 ++ w.extractLsb' 24 8 ++ w.extractLsb' 16 8 ++
      w.extractLsb' 14 2 ++ w.extractLsb' 12 2 ++ w.extractLsb' 10 2 ++ w.extractLsb' 8 2 ++ w.extractLsb' 7 1 ++
      w.extractLsb' 0 7 := rfl
  rw [h]
  simp (disch := omega) only [BitVec.extractLsb'_append_extractLsb'_eq_extractLsb']
  exact BitVec.extractLsb'_eq_self

theorem joinWord_injective {f g : Fields} (h : joinWord f = joinWord g) : f = g := by
  rw [← splitWord_joinWord f, h, splitWord_joinWord]

/-- Masking a word is masking its fields. -/
theorem joinWord_and (f g : Fields) : joinWord f &&& joinWord g =
    joinWord ⟨f.imm &&& g.imm, f.z3 &&& g.z3, f.sym &&& g.sym, f.z2 &&& g.z2, f.rs &&& g.rs, f.z1 &&& g.z1,
      f.rd &&& g.rd, f.val &&& g.val, f.op &&& g.op⟩ := by
  have h : joinWord f &&& joinWord g = (f.imm ++ f.z3 ++ f.sym ++ f.z2 ++ f.rs ++ f.z1 ++ f.rd ++ f.val ++ f.op) &&&
      (g.imm ++ g.z3 ++ g.sym ++ g.z2 ++ g.rs ++ g.z1 ++ g.rd ++ g.val ++ g.op) := rfl
  rw [h]
  simp only [BitVec.and_append]
  rfl

end Sys2Proof
end

