-- ==== Sys2Proof/Laws/PerInstr.lean ====
section
/-! SUPPORT. What holds of every command as syntax, command by command. -/

namespace Sys2Proof.Laws

/-- A word with ones at every bit that is not in a field the format uses (30_encoding.md R102). -/
def maskFields (k : Format) : Fields where
  imm := if k.usesImm then 0 else 0xFFFFFFFF
  z3  := 0xFF
  sym := if k.usesSym then 0 else 0xFF
  z2  := 3
  rs  := if k.usesRs then 0 else 3
  z1  := 3
  rd  := if k.usesRd then 0 else 3
  val := if k.usesVal then 0 else 1
  op  := 0x7F

/-- The command has a row in the opcode table whose mask has "a 1 at every bit that is not in a used field" of the
command's format and whose match has "the opcode in bits 6:0 and 0 elsewhere" (30_encoding.md R102, R103). -/
def HasItsRow.Statement (i : Instr) : Prop :=
  ∃ r ∈ opcodeTable, r.mnemonic = mnemonicOf i ∧ r.fixedMask = joinWord (maskFields (formatOf i)) ∧
    r.fixedBits = joinWord (blankFields (opcodeOf i))

theorem HasItsRow.of_row {i : Instr} (r : OpcodeRow) (k : Format) (op : BitVec 7) (hk : formatOf i = k)
    (ho : opcodeOf i = op) (hm : r.mnemonic = mnemonicOf i)
    (h : r ∈ opcodeTable ∧ r.fixedMask = joinWord (maskFields k) ∧ r.fixedBits = joinWord (blankFields op)) :
    HasItsRow.Statement i :=
  ⟨r, h.1, hm, by rw [hk]; exact h.2.1, by rw [ho]; exact h.2.2⟩

theorem HasItsRow.reset : HasItsRow.Statement (.reset) :=
  of_row ⟨"RESET", 0xFFFFFFFFFFFFFFFF, 0x0000000000000001⟩ .Z 0x01 rfl rfl rfl (by decide)

theorem HasItsRow.csrr (num : Byte) : HasItsRow.Statement (.csrr num) :=
  of_row ⟨"CSRR", 0xFFFFFFFFFF00FFFF, 0x0000000000000002⟩ .S 0x02 rfl rfl rfl (by decide)

theorem HasItsRow.ibClr : HasItsRow.Statement (.ibClr) :=
  of_row ⟨"IB.CLR", 0xFFFFFFFFFFFFFFFF, 0x0000000000000003⟩ .Z 0x03 rfl rfl rfl (by decide)

theorem HasItsRow.ibPut (sym : Byte) : HasItsRow.Statement (.ibPut sym) :=
  of_row ⟨"IB.PUT", 0xFFFFFFFFFF00FFFF, 0x0000000000000004⟩ .S 0x04 rfl rfl rfl (by decide)

theorem HasItsRow.ibSeek (pos : Word) : HasItsRow.Statement (.ibSeek pos) :=
  of_row ⟨"IB.SEEK", 0x00000000FFFFFFFF, 0x0000000000000005⟩ .P 0x05 rfl rfl rfl (by decide)

theorem HasItsRow.obClr : HasItsRow.Statement (.obClr) :=
  of_row ⟨"OB.CLR", 0xFFFFFFFFFFFFFFFF, 0x0000000000000006⟩ .Z 0x06 rfl rfl rfl (by decide)

theorem HasItsRow.obGet (idx : Word) : HasItsRow.Statement (.obGet idx) :=
  of_row ⟨"OB.GET", 0x00000000FFFFFFFF, 0x0000000000000007⟩ .P 0x07 rfl rfl rfl (by decide)

theorem HasItsRow.fqSet (sym : Byte) (value : Word) : HasItsRow.Statement (.fqSet sym value) :=
  of_row ⟨"FQ.SET", 0x00000000FF00FFFF, 0x0000000000000008⟩ .SP 0x08 rfl rfl rfl (by decide)

theorem HasItsRow.fqGet (sym : Byte) : HasItsRow.Statement (.fqGet sym) :=
  of_row ⟨"FQ.GET", 0xFFFFFFFFFF00FFFF, 0x0000000000000009⟩ .S 0x09 rfl rfl rfl (by decide)

theorem HasItsRow.bbNew : HasItsRow.Statement (.bbNew) :=
  of_row ⟨"BB.NEW", 0xFFFFFFFFFFFFFFFF, 0x0000000000000010⟩ .Z 0x10 rfl rfl rfl (by decide)

theorem HasItsRow.bbWr (val : Bool) (pos : Word) : HasItsRow.Statement (.bbWr val pos) :=
  of_row ⟨"BB.WR", 0x00000000FFFFFF7F, 0x0000000000000011⟩ .VP 0x11 rfl rfl rfl (by decide)

theorem HasItsRow.bbWrn (val : Bool) : HasItsRow.Statement (.bbWrn val) :=
  of_row ⟨"BB.WRN", 0xFFFFFFFFFFFFFF7F, 0x0000000000000012⟩ .V 0x12 rfl rfl rfl (by decide)

theorem HasItsRow.bbRd (pos : Word) : HasItsRow.Statement (.bbRd pos) :=
  of_row ⟨"BB.RD", 0x00000000FFFFFFFF, 0x0000000000000013⟩ .P 0x13 rfl rfl rfl (by decide)

theorem HasItsRow.bbRdn : HasItsRow.Statement (.bbRdn) :=
  of_row ⟨"BB.RDN", 0xFFFFFFFFFFFFFFFF, 0x0000000000000014⟩ .Z 0x14 rfl rfl rfl (by decide)

theorem HasItsRow.bbMore : HasItsRow.Statement (.bbMore) :=
  of_row ⟨"BB.MORE", 0xFFFFFFFFFFFFFFFF, 0x0000000000000015⟩ .Z 0x15 rfl rfl rfl (by decide)

theorem HasItsRow.bbFin : HasItsRow.Statement (.bbFin) :=
  of_row ⟨"BB.FIN", 0xFFFFFFFFFFFFFFFF, 0x0000000000000016⟩ .Z 0x16 rfl rfl rfl (by decide)

theorem HasItsRow.bbLoad : HasItsRow.Statement (.bbLoad) :=
  of_row ⟨"BB.LOAD", 0xFFFFFFFFFFFFFFFF, 0x0000000000000017⟩ .Z 0x17 rfl rfl rfl (by decide)

theorem HasItsRow.bbOut : HasItsRow.Statement (.bbOut) :=
  of_row ⟨"BB.OUT", 0xFFFFFFFFFFFFFFFF, 0x0000000000000018⟩ .Z 0x18 rfl rfl rfl (by decide)

theorem HasItsRow.vcNew (rd : CodeReg) : HasItsRow.Statement (.vcNew rd) :=
  of_row ⟨"VC.NEW", 0xFFFFFFFFFFFFFCFF, 0x0000000000000020⟩ .D 0x20 rfl rfl rfl (by decide)

theorem HasItsRow.vcApp (rd : CodeReg) (val : Bool) : HasItsRow.Statement (.vcApp rd val) :=
  of_row ⟨"VC.APP", 0xFFFFFFFFFFFFFC7F, 0x0000000000000021⟩ .DV 0x21 rfl rfl rfl (by decide)

theorem HasItsRow.vcBit (rs : CodeReg) (idx : Word) : HasItsRow.Statement (.vcBit rs idx) :=
  of_row ⟨"VC.BIT", 0x00000000FFFFCFFF, 0x0000000000000022⟩ .RP 0x22 rfl rfl rfl (by decide)

theorem HasItsRow.vcExt (rd rs : CodeReg) (val : Bool) : HasItsRow.Statement (.vcExt rd rs val) :=
  of_row ⟨"VC.EXT", 0xFFFFFFFFFFFFCC7F, 0x0000000000000023⟩ .DRV 0x23 rfl rfl rfl (by decide)

theorem HasItsRow.vcWr (rs : CodeReg) : HasItsRow.Statement (.vcWr rs) :=
  of_row ⟨"VC.WR", 0xFFFFFFFFFFFFCFFF, 0x0000000000000024⟩ .R 0x24 rfl rfl rfl (by decide)

theorem HasItsRow.trCount : HasItsRow.Statement (.trCount) :=
  of_row ⟨"TR.COUNT", 0xFFFFFFFFFFFFFFFF, 0x0000000000000030⟩ .Z 0x30 rfl rfl rfl (by decide)

theorem HasItsRow.trBuild : HasItsRow.Statement (.trBuild) :=
  of_row ⟨"TR.BUILD", 0xFFFFFFFFFFFFFFFF, 0x0000000000000031⟩ .Z 0x31 rfl rfl rfl (by decide)

theorem HasItsRow.trFind (rd : CodeReg) (sym : Byte) : HasItsRow.Statement (.trFind rd sym) :=
  of_row ⟨"TR.FIND", 0xFFFFFFFFFF00FCFF, 0x0000000000000032⟩ .DS 0x32 rfl rfl rfl (by decide)

theorem HasItsRow.trEnc (sym : Byte) : HasItsRow.Statement (.trEnc sym) :=
  of_row ⟨"TR.ENC", 0xFFFFFFFFFF00FFFF, 0x0000000000000033⟩ .S 0x33 rfl rfl rfl (by decide)

theorem HasItsRow.trSer : HasItsRow.Statement (.trSer) :=
  of_row ⟨"TR.SER", 0xFFFFFFFFFFFFFFFF, 0x0000000000000034⟩ .Z 0x34 rfl rfl rfl (by decide)

theorem HasItsRow.trDes : HasItsRow.Statement (.trDes) :=
  of_row ⟨"TR.DES", 0xFFFFFFFFFFFFFFFF, 0x0000000000000035⟩ .Z 0x35 rfl rfl rfl (by decide)

theorem HasItsRow.codecEncode : HasItsRow.Statement (.codecEncode) :=
  of_row ⟨"ENCODE", 0xFFFFFFFFFFFFFFFF, 0x0000000000000040⟩ .Z 0x40 rfl rfl rfl (by decide)

theorem HasItsRow.codecDecode : HasItsRow.Statement (.codecDecode) :=
  of_row ⟨"DECODE", 0xFFFFFFFFFFFFFFFF, 0x0000000000000041⟩ .Z 0x41 rfl rfl rfl (by decide)

theorem HasItsRow.decStart : HasItsRow.Statement (.decStart) :=
  of_row ⟨"DEC.START", 0xFFFFFFFFFFFFFFFF, 0x0000000000000042⟩ .Z 0x42 rfl rfl rfl (by decide)

theorem HasItsRow.decStep : HasItsRow.Statement (.decStep) :=
  of_row ⟨"DEC.STEP", 0xFFFFFFFFFFFFFFFF, 0x0000000000000043⟩ .Z 0x43 rfl rfl rfl (by decide)

end Sys2Proof.Laws
end

