-- ==== Sys2Proof/Laws/Text.lean ====
section
/-! SUPPORT. A whole text: the leaves of the tree built from its counts, the bits `ENCODE` writes for it, and the bytes
it leaves. -/

namespace Sys2Proof.Machine

/-! ### Leaves by symbol -/

theorem leafPaths_symbols : ∀ t : HuffTree, (leafPaths t).map Prod.snd = (leafCounts t).map Prod.fst
  | .absent => rfl
  | .node x n l r => by
    unfold leafPaths leafCounts
    split
    · rfl
    · simp only [List.map_append, List.map_map, ← leafPaths_symbols l, ← leafPaths_symbols r]
      rfl

theorem mem_nonzeroCounts (f : Vector Word 256) (x : Byte) (n : Word) :
    (x, n) ∈ nonzeroCounts f ↔ n = readFreq f x ∧ n ≠ 0 := by
  unfold nonzeroCounts
  simp only [List.mem_filter, List.mem_map, List.mem_range, bne_iff_ne, Prod.mk.injEq]
  constructor
  · rintro ⟨⟨i, _, rfl, rfl⟩, h⟩
    exact ⟨rfl, h⟩
  · rintro ⟨rfl, h⟩
    refine ⟨⟨x.toNat, x.isLt, ?_, ?_⟩, h⟩ <;> simp

/-- Every byte of a text, and no other, has a nonzero counter (42_tree.md R180). -/
theorem counted_iff {text : List Byte} (h : text.length + 1 < 2 ^ 32) (x : Byte) :
    readFreq (countBytes text) x ≠ 0 ↔ x ∈ text ∨ x = Config.eosByte := by
  have hc := readFreq_countBytes text x h
  rw [Ne, ← BitVec.toNat_inj, show (0 : Word).toNat = 0 from rfl, hc]
  have : x ∈ text ↔ 0 < text.count x := List.count_pos_iff.symm
  rw [this]
  by_cases hx : x = Config.eosByte
  · rw [if_pos hx]; simp [hx]
  · simp only [hx, if_false, or_false]; omega

/-- The leaves of the tree of a text are its bytes and the sentinel (42_tree.md R183, R186). -/
theorem leaf_of_text {text : List Byte} (h : text.length + 1 < 2 ^ 32) {x : Byte} :
    x ∈ (leafPaths (treeify (countBytes text))).map Prod.snd ↔ x ∈ text ∨ x = Config.eosByte := by
  have hs : counterSum (countBytes text) < 2 ^ 32 := by rw [counterSum_countBytes text h]; exact h
  have hne : nonzeroCounts (countBytes text) ≠ [] := by
    intro h0
    have := (mem_nonzeroCounts (countBytes text) Config.eosByte _).mpr ⟨rfl, (counted_iff h _).mpr (.inr rfl)⟩
    rw [h0] at this
    cases this
  rw [leafPaths_symbols, ((treeify_spec hs hne).2.2.map Prod.fst).mem_iff, ← counted_iff h, List.mem_map]
  constructor
  · rintro ⟨⟨y, n⟩, hm, rfl⟩
    obtain ⟨rfl, h0⟩ := (mem_nonzeroCounts _ _ _).mp hm
    exact h0
  · exact fun h0 => ⟨(x, _), (mem_nonzeroCounts _ _ _).mpr ⟨rfl, h0⟩, rfl⟩

theorem builtShape_of_text {text : List Byte} (h : text.length + 1 < 2 ^ 32) :
    builtShape (treeify (countBytes text)) := by
  have hs : counterSum (countBytes text) < 2 ^ 32 := by rw [counterSum_countBytes text h]; exact h
  refine (treeify_spec hs ?_).1
  intro h0
  have := (mem_nonzeroCounts (countBytes text) Config.eosByte _).mpr ⟨rfl, (counted_iff h _).mpr (.inr rfl)⟩
  rw [h0] at this
  cases this

/-- A symbol that some leaf has, has a code (42_tree.md R190 (a)). -/
theorem codePath_of_mem {t : HuffTree} {x : Byte} (h : x ∈ (leafPaths t).map Prod.snd) :
    ∃ p, codePath t x = some p ∧ (p, x) ∈ leafPaths t := by
  obtain ⟨⟨p, y⟩, hm, rfl⟩ := List.mem_map.mp h
  unfold codePath
  cases hf : (leafPaths t).find? fun q => q.2 == y with
  | none => exact absurd (List.find?_eq_none.mp hf _ hm) (by simp)
  | some q =>
    have hq := List.mem_of_find?_eq_some hf
    have he := List.find?_some hf
    simp only [beq_iff_eq] at he
    exact ⟨q.1, rfl, by rw [← he]; exact hq⟩

/-- A built tree has no `NULL_BYTE` at a node unless a leaf has it (43_serdes.md R214). -/
theorem noNullSymbol_of_builtShape : ∀ {t : HuffTree}, builtShape t →
    Config.nullByte ∉ (leafPaths t).map Prod.snd → noNullSymbol t = true
  | .absent, _, _ => rfl
  | .node x n l r, hs, hm => by
    unfold leafPaths at hm
    unfold builtShape at hs
    unfold noNullSymbol
    simp only [Bool.and_eq_true, bne_iff_ne]
    rcases hs with ⟨hl, hr⟩ | ⟨hl, hr, hx, _⟩
    · rw [if_pos ⟨hl, hr⟩] at hm
      rw [isAbsent_iff] at hl hr
      subst hl hr
      exact ⟨⟨fun h => hm (by simp [h]), rfl⟩, rfl⟩
    · rw [if_neg (by rw [isAbsent_of_builtShape hl]; simp)] at hm
      simp only [List.map_append, List.map_map, List.mem_append, not_or] at hm
      refine ⟨⟨by rw [hx]; decide, noNullSymbol_of_builtShape hl ?_⟩, noNullSymbol_of_builtShape hr ?_⟩
      · exact hm.1
      · exact hm.2

/-! ### The bits of a text -/

/-- Step 3 of `ENCODE` when it ends without an error (44_codec.md R231): for each byte the path of a leaf with it has
been written, one after the other. -/
theorem encodeSymbols_written : ∀ (text : List Byte) (s : State), BufferInv s.caps.bbMax s.bb →
    (encodeSymbols text s).status = .ok → ∃ walk : List (List Bool × Byte), walk.map Prod.snd = text ∧
      (∀ p ∈ walk, p ∈ leafPaths s.tree) ∧ BitsFit s (walk.flatMap Prod.fst).length ∧
      encodeSymbols text s = respond 0 (s.setBb (bitWriteAll s.caps.bbMax s.bb (walk.flatMap Prod.fst)))
  | [], s, _, _ => ⟨[], rfl, by simp, .inl rfl, rfl⟩
  | x :: rest, s, h, hok => by
    unfold encodeSymbols at hok ⊢
    rcases doTrEnc_cases x s with ⟨e, he, h1⟩ | ⟨c, hc, hfit, h1⟩
    · rw [h1, andThen_error (show (raise e s).status ≠ .ok from EncodeError.ne_ok he)] at hok
      exact absurd hok (EncodeError.ne_ok he)
    · rw [h1, andThen_respond] at hok ⊢
      obtain ⟨_, hm⟩ := findSymbol_found hc
      have hspec : BufferInv s.caps.bbMax (bitWriteAll s.caps.bbMax s.bb (codeBits c)) ∧
          (bitWriteAll s.caps.bbMax s.bb (codeBits c)).cursor.toNat = s.bb.cursor.toNat + (codeBits c).length := by
        rcases hfit with h0 | ⟨h2, h3⟩
        · have e0 : codeBits c = [] := List.eq_nil_of_length_eq_zero (by simpa using h0)
          rw [e0]
          exact ⟨h, rfl⟩
        · have := bitWriteAll_spec (codeBits c) h (by simpa [Config.lastPosition] using h2) (fun _ => by simpa using h3)
          exact ⟨this.1, this.2.1⟩
      obtain ⟨walk, w1, w2, w3, w4⟩ :=
        encodeSymbols_written rest (s.setBb (bitWriteAll s.caps.bbMax s.bb (codeBits c))) hspec.1 hok
      refine ⟨(codeBits c, x) :: walk, by simp [w1], ?_, ?_, ?_⟩
      · intro p hp
        rcases List.mem_cons.mp hp with rfl | hp
        · exact hm
        · exact w2 p hp
      · have hcur : (s.setBb (bitWriteAll s.caps.bbMax s.bb (codeBits c))).bb.cursor.toNat =
            s.bb.cursor.toNat + c.len := by rw [← codeBits_length]; exact hspec.2
        unfold BitsFit at hfit w3 ⊢
        rw [hcur] at w3
        simp only [List.flatMap_cons, List.length_append, codeBits_length]
        have hcap : (s.setBb (bitWriteAll s.caps.bbMax s.bb (codeBits c))).caps.bbMax = s.caps.bbMax := rfl
        rw [hcap] at w3
        rcases w3 with w3 | ⟨w5, w6⟩
        · rw [w3]; exact hfit
        · refine .inr ⟨by omega, ?_⟩
          rw [← Nat.add_assoc]; exact w6
      · rw [w4]
        simp only [List.flatMap_cons]
        rw [bitWriteAll_append]
        rfl

/-- Step 3 of `ENCODE` on a tree of at most 33 levels whose leaves have every byte of the text: it writes the codes of
the text (44_codec.md R231; 42_tree.md R190). -/
theorem encodeSymbols_shallow : ∀ (text : List Byte) (s : State), BufferInv s.caps.bbMax s.bb →
    levelCount s.tree ≤ 33 → (∀ x ∈ text, x ∈ (leafPaths s.tree).map Prod.snd) →
    BitsFit s (textBits s.tree text).length →
    encodeSymbols text s = respond 0 (s.setBb (bitWriteAll s.caps.bbMax s.bb (textBits s.tree text)))
  | [], s, _, _, _, _ => rfl
  | x :: rest, s, h, hl, hm, hfit => by
    obtain ⟨p, hp, _⟩ := codePath_of_mem (hm x (by simp))
    have hs := findSymbol_shallow hl x
    rw [hp] at hs
    obtain ⟨c, hc, _, hb⟩ := hs
    have htb : textBits s.tree (x :: rest) = p ++ textBits s.tree rest := by simp [textBits, hp]
    rw [htb] at hfit ⊢
    have hlen : c.len = p.length := by rw [← hb, codeBits_length]
    have hfit1 : BitsFit s c.len := by
      unfold BitsFit at hfit ⊢
      rw [List.length_append] at hfit
      rw [hlen]
      rcases hfit with h0 | ⟨h1, h2⟩
      · exact .inl (by omega)
      · exact .inr ⟨by omega, Nat.lt_of_le_of_lt (Nat.div_le_div_right (by omega)) h2⟩
    have henc : doTrEnc x s = respond (lengthWord c.len) (s.setBb (bitWriteAll s.caps.bbMax s.bb p)) := by
      unfold doTrEnc
      rw [hc]
      rcases doWriteCode_cases c s with ⟨h1, _⟩ | ⟨_, h1⟩
      · exact absurd hfit1 h1
      · simp only [h1, hb]
    have hspec : BufferInv s.caps.bbMax (bitWriteAll s.caps.bbMax s.bb p) ∧
        (bitWriteAll s.caps.bbMax s.bb p).cursor.toNat = s.bb.cursor.toNat + p.length := by
      rcases hfit1 with h0 | ⟨h2, h3⟩
      · have e0 : p = [] := List.eq_nil_of_length_eq_zero (by omega)
        rw [e0]
        exact ⟨h, rfl⟩
      · rw [hlen] at h2 h3
        have := bitWriteAll_spec p h h2 (fun _ => h3)
        exact ⟨this.1, this.2.1⟩
    unfold encodeSymbols
    rw [henc, andThen_respond, encodeSymbols_shallow rest (s.setBb (bitWriteAll s.caps.bbMax s.bb p)) hspec.1 hl (fun y hy => hm y (by simp [hy]))]
    · rw [bitWriteAll_append]
      rfl
    · unfold BitsFit at hfit ⊢
      rw [List.length_append] at hfit
      show _ ∨ ((bitWriteAll s.caps.bbMax s.bb p).cursor.toNat + (textBits s.tree rest).length ≤ _ ∧
        ((bitWriteAll s.caps.bbMax s.bb p).cursor.toNat + (textBits s.tree rest).length - 1) / 8 < s.caps.bbMax)
      rw [hspec.2]
      rcases hfit with h0 | ⟨h1, h2⟩
      · exact .inl (by show (textBits s.tree rest).length = 0; omega)
      · exact .inr ⟨by omega, by rw [Nat.add_assoc]; exact h2⟩

/-- What `BB.FIN` leaves of a fresh buffer into which bits were written: the bytes that pack them (30_encoding.md R90,
R93; 40_bitbuffer.md R139). -/
theorem packs_written {bbMax : Nat} (bits : List Bool) (hl : bits.length ≤ Config.lastPosition)
    (hb : bits ≠ [] → (bits.length - 1) / 8 < bbMax) :
    Packs bits (bufferBytes (finalBuffer (bitWriteAll bbMax BitBuffer.fresh bits))) ∧
    (finalBuffer (bitWriteAll bbMax BitBuffer.fresh bits)).cursor.toNat = bits.length := by
  have h0 : BitBuffer.fresh.cursor.toNat = 0 := rfl
  obtain ⟨s1, s2, _, s4, s5⟩ := bitWriteAll_spec bits (bufferInv_fresh bbMax) (by rw [h0]; omega)
    (fun h => by rw [h0, Nat.zero_add]; exact hb h)
  have hfin : finalSize (bitWriteAll bbMax BitBuffer.fresh bits) = (bits.length + 7) / 8 := by
    by_cases hn : bits = []
    · subst hn; rfl
    · have hpos : 0 < bits.length := List.length_pos_iff.mpr hn
      obtain ⟨_, m1, m2⟩ := bitWriteAll_mark bits (bufferInv_fresh bbMax) (by rw [h0]; omega) hn
        (by rw [h0, Nat.zero_add]; exact hb hn)
      unfold finalSize
      rw [if_pos m1, m2, h0, if_pos (.inl rfl)]
      omega
  have hle := s1.finalSize_le
  refine ⟨⟨by rw [bufferBytes_length]; exact hfin, ?_⟩, by show (bitWriteAll _ _ _).cursor.toNat = _; rw [s2, h0, Nat.zero_add]⟩
  intro k hk
  rw [bufferBytes_length] at hk
  have hk' : k / 8 < (finalBuffer (bitWriteAll bbMax BitBuffer.fresh bits)).size := by omega
  have hk2 : k / 8 < finalSize (bitWriteAll bbMax BitBuffer.fresh bits) := hk'
  have hr := bitRead_eq_payloadBit (finalBuffer (bitWriteAll bbMax BitBuffer.fresh bits)) k
  rw [if_pos hk'] at hr
  have hr2 := s4 k (Nat.lt_of_lt_of_le hk2 hle)
  have hsame : bitRead (finalBuffer (bitWriteAll bbMax BitBuffer.fresh bits)) k =
      bitRead (bitWriteAll bbMax BitBuffer.fresh bits) k := by
    unfold bitRead
    rw [if_neg (by omega), if_neg (by omega), readByte_final, if_pos hk2]
  rw [hsame, hr2, h0] at hr
  have := (Option.some.inj hr).symm
  rw [this]
  by_cases hlt : k < bits.length
  · rw [if_pos ⟨Nat.zero_le _, by omega⟩, Nat.sub_zero]
  · rw [if_neg (by omega), List.getD_eq_default _ _ (by omega)]
    have : bitRead BitBuffer.fresh k = none := by
      unfold bitRead
      exact if_pos (Nat.zero_le _)
    rw [this]
    rfl

/-- `ENCODE` once its symbols are written and its output fits (44_codec.md R231). -/
theorem doEncode_written {s : State} {b : BitBuffer}
    (h : encodeSymbols (s.ibuf ++ [Config.eosByte]) (encodeSetup s) = respond 0 ((encodeSetup s).setBb b))
    (hl : (serialize (encodeSetup s).tree).length + finalSize b ≤ s.caps.obufMax) :
    doEncode s = respond (lengthWord ((serialize (encodeSetup s).tree).length + finalSize b))
      (((encodeSetup s).setBb (finalBuffer b)).setObuf (serialize (encodeSetup s).tree ++ bufferBytes (finalBuffer b))) := by
  have hlen : (serialize (encodeSetup s).tree ++ bufferBytes (finalBuffer b)).length =
      (serialize (encodeSetup s).tree).length + finalSize b := by
    rw [List.length_append, bufferBytes_length]; rfl
  have hser : doTrSer (((encodeSetup s).setBb b).setBb (finalBuffer b)) =
      respond (lengthWord (serialize (encodeSetup s).tree).length)
        ((((encodeSetup s).setBb b).setBb (finalBuffer b)).setObuf ([] ++ serialize (encodeSetup s).tree)) := by
    rcases doTrSer_cases (((encodeSetup s).setBb b).setBb (finalBuffer b)) with ⟨h1, _⟩ | ⟨_, h1⟩
    · have h1' : 0 + (serialize (encodeSetup s).tree).length > s.caps.obufMax := h1
      omega
    · exact h1
  have hout : doBbOut ((((encodeSetup s).setBb b).setBb (finalBuffer b)).setObuf ([] ++ serialize (encodeSetup s).tree)) =
      respond (lengthWord (finalBuffer b).size) (((((encodeSetup s).setBb b).setBb (finalBuffer b)).setObuf
        ([] ++ serialize (encodeSetup s).tree)).setObuf
          ([] ++ serialize (encodeSetup s).tree ++ bufferBytes (finalBuffer b))) := by
    rcases doBbOut_cases ((((encodeSetup s).setBb b).setBb (finalBuffer b)).setObuf
        ([] ++ serialize (encodeSetup s).tree)) with ⟨h1, _⟩ | ⟨_, h1⟩
    · have h1' : ([] ++ serialize (encodeSetup s).tree).length + finalSize b > s.caps.obufMax := h1
      rw [List.nil_append] at h1'
      omega
    · exact h1
  unfold doEncode
  rw [h, andThen_respond, show doBbFin ((encodeSetup s).setBb b) =
    respond (lengthWord (finalSize b)) (((encodeSetup s).setBb b).setBb (finalBuffer b)) from rfl, andThen_respond,
    hser, andThen_respond, hout, ← hlen]
  rfl

theorem andThen_status_ok {f : Finished} {g : State → Finished} (h : (andThen f g).status = .ok) :
    f.status = .ok ∧ andThen f g = g f.state := by
  rcases andThen_cases f g with ⟨h1, h2⟩ | ⟨h1, h2⟩
  · rw [h2] at h; exact absurd h h1
  · exact ⟨h1, h2⟩

theorem doEncode_status (s : State) : (doEncode s).status =
    (andThen (andThen (andThen (encodeSymbols (s.ibuf ++ [Config.eosByte]) (encodeSetup s)) doBbFin) doTrSer)
      doBbOut).status := by
  unfold doEncode
  simp only
  generalize andThen _ doBbOut = f
  rcases f with ⟨_, st, _⟩
  cases st <;> rfl

/-- An `ENCODE` that answered `OK` has written the path of a leaf for each byte of the text and for the sentinel, and
its output fitted (44_codec.md R231). -/
theorem doEncode_ok {s : State} (h : (doEncode s).status = .ok) :
    ∃ walk : List (List Bool × Byte), walk.map Prod.snd = s.ibuf ++ [Config.eosByte] ∧
      (∀ p ∈ walk, p ∈ leafPaths (encodeSetup s).tree) ∧ (walk.flatMap Prod.fst).length ≤ Config.lastPosition ∧
      ∃ payload, payload.length ≤ s.caps.bbMax ∧ Packs (walk.flatMap Prod.fst) payload ∧
        doEncode s = respond (lengthWord ((serialize (encodeSetup s).tree).length + payload.length))
          (((encodeSetup s).setBb (finalBuffer (bitWriteAll s.caps.bbMax BitBuffer.fresh (walk.flatMap Prod.fst)))).setObuf
            (serialize (encodeSetup s).tree ++ payload)) := by
  rw [doEncode_status] at h
  obtain ⟨h3, e3⟩ := andThen_status_ok h
  rw [e3] at h
  obtain ⟨h2, e2⟩ := andThen_status_ok h3
  obtain ⟨h1, e1⟩ := andThen_status_ok h2
  obtain ⟨walk, w1, w2, w3, w4⟩ := encodeSymbols_written _ _ (bufferInv_fresh _) h1
  rw [e2, e1, w4] at h h3
  have hfit : (walk.flatMap Prod.fst).length = 0 ∨ ((walk.flatMap Prod.fst).length ≤ Config.lastPosition ∧
      ((walk.flatMap Prod.fst).length - 1) / 8 < s.caps.bbMax) := by
    rcases w3 with w | ⟨a, b⟩
    · exact .inl w
    · have a' : 0 + (walk.flatMap Prod.fst).length ≤ 2 ^ 32 - 1 := a
      have b' : (0 + (walk.flatMap Prod.fst).length - 1) / 8 < s.caps.bbMax := b
      rw [Nat.zero_add] at a' b'
      exact .inr ⟨a', b'⟩
  have hlen : (walk.flatMap Prod.fst).length ≤ Config.lastPosition := by
    rcases hfit with w | ⟨w, _⟩ <;> omega
  obtain ⟨hp, _⟩ := packs_written (bbMax := s.caps.bbMax) (walk.flatMap Prod.fst) hlen (fun hn => by
    have : 0 < (walk.flatMap Prod.fst).length := List.length_pos_iff.mpr hn
    rcases hfit with w | ⟨_, w⟩
    · omega
    · exact w)
  have hlb : (bufferBytes (finalBuffer (bitWriteAll s.caps.bbMax BitBuffer.fresh (walk.flatMap Prod.fst)))).length =
      finalSize (bitWriteAll s.caps.bbMax BitBuffer.fresh (walk.flatMap Prod.fst)) := bufferBytes_length _
  refine ⟨walk, w1, w2, hlen, _, ?_, hp, ?_⟩
  · rw [hp.1]
    rcases hfit with w | ⟨_, w⟩ <;> omega
  · rw [hlb]
    refine doEncode_written w4 ?_
    rcases doTrSer_cases (((encodeSetup s).setBb (bitWriteAll s.caps.bbMax BitBuffer.fresh (walk.flatMap Prod.fst))).setBb
      (finalBuffer (bitWriteAll s.caps.bbMax BitBuffer.fresh (walk.flatMap Prod.fst)))) with ⟨_, h4⟩ | ⟨_, h4⟩
    · exact absurd (h3.symm.trans (congrArg Finished.status h4)) (by simp [raise, raiseWith])
    · rcases doBbOut_cases ((((encodeSetup s).setBb (bitWriteAll s.caps.bbMax BitBuffer.fresh (walk.flatMap Prod.fst))).setBb
        (finalBuffer (bitWriteAll s.caps.bbMax BitBuffer.fresh (walk.flatMap Prod.fst)))).setObuf
          ([] ++ serialize (encodeSetup s).tree)) with ⟨_, h5⟩ | ⟨h5, _⟩
      · have e5 := (congrArg (fun f : Finished => doBbOut f.state) h4).trans h5
        exact absurd (h.symm.trans (congrArg Finished.status e5)) (by simp [raise, raiseWith])
      · have h6 : ([] ++ serialize (encodeSetup s).tree).length +
            finalSize (bitWriteAll s.caps.bbMax BitBuffer.fresh (walk.flatMap Prod.fst)) ≤ s.caps.obufMax := h5
        rw [List.nil_append] at h6
        exact h6

/-! ### Streams -/

theorem isLeaf_zeroCounts (t : HuffTree) : isLeaf (zeroCounts t) = isLeaf t := by
  cases t <;> simp [zeroCounts, isLeaf]

theorem leafPaths_of_isLeaf {t : HuffTree} (h : isLeaf t = true) : ∃ x, leafPaths t = [([], x)] := by
  obtain ⟨x, n, rfl⟩ := isLeaf_iff.mp h
  exact ⟨x, by simp [leafPaths]⟩

theorem leafPath_ne_nil {t : HuffTree} (h : isLeaf t = false) {p : List Bool} {x : Byte} (hp : (p, x) ∈ leafPaths t) :
    p ≠ [] := by
  rintro rfl
  obtain ⟨n, hn⟩ := nodeAt_of_mem_leafPaths hp
  rw [nodeAt_nil] at hn
  rw [hn] at h
  simp [isLeaf] at h

/-- `DECODE` up to its `DEC.START`, on a stream whose tree and payload can be stored (44_codec.md R240). -/
theorem doDecode_load {s : State} {tree : HuffTree} {rest : List Byte} (hb : s.ibuf = serialize tree ++ rest)
    (hn : noNullSymbol tree = true) (hf : fitsStore s.caps tree = true) (hl : rest.length ≤ s.caps.bbMax) :
    doDecode s = andThen (doDecStart (((installTree (s.setObuf []) (zeroCounts tree)).setIpos
      (serialize tree).length).setBb (loadedBuffer rest))) (fun t => decodeLoop (8 * t.bb.size + 1) t) := by
  unfold doDecode
  have h1 := doTrDes_serialize (s := (s.setObuf []).setIpos 0) (t := tree) (rest := rest) hb hn hf
  have e0 : (installTree ((s.setObuf []).setIpos 0) (zeroCounts tree)).setIpos
      (((s.setObuf []).setIpos 0).ipos + (serialize tree).length) =
        (installTree (s.setObuf []) (zeroCounts tree)).setIpos (serialize tree).length := by
      show (installTree ((s.setObuf []).setIpos 0) _).setIpos (0 + (serialize tree).length) = _
      rw [Nat.zero_add]; rfl
  rw [h1, andThen_respond, e0]
  have hd : List.drop ((installTree (s.setObuf []) (zeroCounts tree)).setIpos (serialize tree).length).ipos
        ((installTree (s.setObuf []) (zeroCounts tree)).setIpos (serialize tree).length).ibuf = rest := by
      show List.drop (serialize tree).length s.ibuf = rest
      rw [hb]; simp
  rcases doBbLoad_cases ((installTree (s.setObuf []) (zeroCounts tree)).setIpos (serialize tree).length) with
    ⟨h, _⟩ | ⟨_, h2⟩
  · rw [hd] at h; exact absurd hl (by exact Nat.not_le.mpr h)
  · rw [h2, andThen_respond, hd]

theorem execAll_next {i : Instr} {s t : State} (rest : List Instr) (h : exec i s = .next t) :
    execAll (i :: rest) s = execAll rest t := by
  rw [execAll, h]

end Sys2Proof.Machine
end

