-- ==== Sys2Proof/Laws/Step.lean ====
section
/-! SUPPORT. Everything one command can do, said once for all 33: the pseudocode it ends, the units it may write, and
what has changed when it fails. -/

namespace Sys2Proof.Machine

/-- The units a command writes, by its rule. -/
def writes : Instr → List BlockUnit
  | .reset => [.bb, .codes, .freq, .tree, .walk, .ibuf, .ipos, .obuf]
  | .csrr _ | .obGet _ | .fqGet _ | .bbRd _ | .bbMore | .vcBit _ _ => []
  | .ibClr => [.ibuf, .ipos]
  | .ibPut _ => [.ibuf]
  | .ibSeek _ => [.ipos]
  | .obClr | .bbOut | .trSer => [.obuf]
  | .fqSet _ _ | .trCount => [.freq]
  | .bbNew | .bbWr _ _ | .bbWrn _ | .bbRdn | .bbFin | .bbLoad | .vcWr _ | .trEnc _ => [.bb]
  | .vcNew _ | .vcApp _ _ | .vcExt _ _ _ | .trFind _ _ => [.codes]
  | .trBuild => [.tree, .walk]
  | .trDes => [.tree, .walk, .ipos]
  | .codecEncode => [.bb, .freq, .tree, .walk, .obuf]
  | .codecDecode => [.bb, .tree, .walk, .ipos, .obuf]
  | .decStart => [.walk, .obuf]
  | .decStep => [.bb, .walk, .obuf]

/-- What the end of a command's pseudocode can be (60_exceptions.md R300). -/
structure Shape (i : Instr) (s : State) (f : Finished) : Prop where
  ex : exec i s = complete f
  resp : f.state.responses = s.responses
  keeps : KeepsAllBut (writes i) s f.state
  fail : f.status ≠ .ok → mnemonicOf i ∉ failsLate → f.state = s
  illegal : f.status = .illegalCommand → f.state = s
  data : f.status ≠ .ok → f.data = 0 ∨ (f.status = .indexOutOfRange ∧ f.data = 2 ∧ mnemonicOf i ∈ ["BB.RD", "BB.RDN"])
  noout : mnemonicOf i ∈ ["ENCODE", "DECODE", "DEC.START", "DEC.STEP"] → f.status ≠ .ok →
    f.status ≠ .illegalCommand → f.state.obuf = []

/-- A command that raises before any change. -/
theorem Shape.err {i : Instr} {s : State} {e : Status} (h : exec i s = complete (raise e s))
    (hm : mnemonicOf i ∉ ["ENCODE", "DECODE", "DEC.START", "DEC.STEP"]) : ∃ f, Shape i s f :=
  ⟨_, h, rfl, keeps_refl _ _, fun _ _ => rfl, fun _ => rfl, fun _ => .inl rfl, fun x => absurd x hm⟩

/-- A command that completes. -/
theorem Shape.good {i : Instr} {s u : State} {d : Word} (h : exec i s = complete (respond d u))
    (hr : u.responses = s.responses) (hk : KeepsAllBut (writes i) s u) : ∃ f, Shape i s f :=
  ⟨_, h, hr, hk, fun x => absurd rfl x, (fun x => by simp at x), fun x => absurd rfl x, fun _ x => absurd rfl x⟩

/-- A command that raises after a change (60_exceptions.md R300). -/
theorem Shape.late {i : Instr} {s u : State} {e : Status} (h : exec i s = complete (raise e u))
    (hr : u.responses = s.responses) (hk : KeepsAllBut (writes i) s u)
    (hm : mnemonicOf i ∈ failsLate) (he : e ≠ .illegalCommand) (ho : u.obuf = []) : ∃ f, Shape i s f :=
  ⟨_, h, hr, hk, fun _ x => absurd hm x, fun x => absurd x he, fun _ => .inl rfl, fun _ _ _ => ho⟩

/-- Every command ends as `Shape` says. -/
theorem exec_shape (i : Instr) (s : State) : ∃ f, Shape i s f := by
  cases i with
  | reset =>
    exact Shape.good (d := 0) rfl rfl ⟨fun h => absurd (by simp [writes]) h, fun h => absurd (by simp [writes]) h,
      fun h => absurd (by simp [writes]) h, fun h => absurd (by simp [writes]) h, fun h => absurd (by simp [writes]) h,
      fun h => absurd (by simp [writes]) h, fun h => absurd (by simp [writes]) h, fun h => absurd (by simp [writes]) h,
      rfl, rfl⟩
  | csrr n =>
    cases h : readCsr s n with
    | none => exact Shape.err (e := .illegalCommand) (by show execCsrr n s = _; unfold execCsrr; rw [h])
                (by simp [mnemonicOf])
    | some v => exact Shape.good (d := v) (by show execCsrr n s = _; unfold execCsrr; rw [h]) rfl (keeps_refl _ _)
  | ibClr => exact Shape.good (d := 0) rfl rfl (by simp [writes])
  | ibPut x =>
    by_cases h : s.ibuf.length = s.caps.ibufMax
    · exact Shape.err (by show execIbPut x s = _; unfold execIbPut; exact if_pos h) (by simp [mnemonicOf])
    · have e : execIbPut x s = _ := if_neg h
      exact Shape.good e rfl (by simp [writes])
  | ibSeek p =>
    by_cases h : p.toNat > s.ibuf.length
    · exact Shape.err (by show execIbSeek p s = _; unfold execIbSeek; exact if_pos h) (by simp [mnemonicOf])
    · have e : execIbSeek p s = _ := if_neg h
      exact Shape.good e rfl (by simp [writes])
  | obClr => exact Shape.good (d := 0) rfl rfl (by simp [writes])
  | obGet k =>
    cases h : s.obuf[k.toNat]? with
    | none => exact Shape.err (e := .indexOutOfRange) (by show execObGet k s = _; unfold execObGet; rw [h])
                (by simp [mnemonicOf])
    | some v => exact Shape.good (by show execObGet k s = _; unfold execObGet; rw [h]) rfl (keeps_refl _ _)
  | fqSet x v => exact Shape.good (d := 0) rfl rfl (by simp [writes])
  | fqGet x => exact Shape.good rfl rfl (keeps_refl _ _)
  | bbNew => exact Shape.good rfl rfl (by simp [writes])
  | bbWr v p =>
    by_cases h : p.toNat / 8 ≥ s.caps.bbMax
    · exact Shape.err (by show complete (doBbWr v p s) = _; unfold doBbWr; rw [if_pos h]) (by simp [mnemonicOf])
    · have e : exec (.bbWr v p) s = complete (doBbWr v p s) := rfl
      unfold doBbWr at e; rw [if_neg h] at e; exact Shape.good e rfl (by simp [writes])
  | bbWrn v =>
    by_cases h : s.bb.cursor.toNat = Config.lastPosition
    · exact Shape.err (by show complete (doBbWrn v s) = _; unfold doBbWrn; rw [if_pos h]) (by simp [mnemonicOf])
    · by_cases h2 : s.bb.cursor.toNat / 8 ≥ s.caps.bbMax
      · exact Shape.err (by show complete (doBbWrn v s) = _; unfold doBbWrn; rw [if_neg h, if_pos h2])
            (by simp [mnemonicOf])
      · have e : exec (.bbWrn v) s = complete (doBbWrn v s) := rfl
        unfold doBbWrn at e; rw [if_neg h, if_neg h2] at e; exact Shape.good e rfl (by simp [writes])
  | bbRd p =>
    have e : exec (.bbRd p) s = complete (doBbRd p s) := rfl
    unfold doBbRd at e
    cases h : bitRead s.bb p.toNat with
    | none => rw [h] at e; exact ⟨_, e, rfl, keeps_refl _ _, fun _ _ => rfl, fun _ => rfl,
                fun _ => .inr ⟨rfl, rfl, by simp [mnemonicOf]⟩, fun x => by simp [mnemonicOf] at x⟩
    | some v => rw [h] at e; exact Shape.good e rfl (keeps_refl _ _)
  | bbRdn =>
    have e : exec .bbRdn s = complete (doBbRdn s) := rfl
    unfold doBbRdn at e
    by_cases hc : s.bb.cursor.toNat = Config.lastPosition
    · rw [if_pos hc] at e; exact Shape.err e (by simp [mnemonicOf])
    rw [if_neg hc] at e
    cases h : bitRead s.bb s.bb.cursor.toNat with
    | none => rw [h] at e; exact ⟨_, e, rfl, (by simp [writes]), fun _ x => absurd (by decide) x,
                (fun x => by simp at x), fun _ => .inr ⟨rfl, rfl, by simp [mnemonicOf]⟩, fun x => by simp [mnemonicOf] at x⟩
    | some v => rw [h] at e; exact Shape.good e rfl (by simp [writes])
  | bbMore => exact Shape.good rfl rfl (keeps_refl _ _)
  | bbFin => exact Shape.good rfl rfl (by simp [writes])
  | bbLoad =>
    have e : exec .bbLoad s = complete (doBbLoad s) := rfl
    rcases doBbLoad_cases s with ⟨_, h⟩ | ⟨_, h⟩ <;> rw [h] at e
    · exact Shape.err e (by simp [mnemonicOf])
    · exact Shape.good e rfl (by simp [writes])
  | bbOut =>
    have e : exec .bbOut s = complete (doBbOut s) := rfl
    rcases doBbOut_cases s with ⟨_, h⟩ | ⟨_, h⟩ <;> rw [h] at e
    · exact Shape.err e (by simp [mnemonicOf])
    · exact Shape.good e rfl (by simp [writes])
  | vcNew d => exact Shape.good (d := 0) rfl rfl (by simp [writes])
  | vcApp d v =>
    by_cases h : (readCode s d).len = Config.codeMax
    · exact Shape.err (by show execVcApp d v s = _; unfold execVcApp; exact if_pos h) (by simp [mnemonicOf])
    · have e : execVcApp d v s = _ := if_neg h
      exact Shape.good e rfl (by simp [writes])
  | vcBit r k =>
    by_cases h : k.toNat ≥ (readCode s r).len
    · exact Shape.err (by show execVcBit r k s = _; unfold execVcBit; exact if_pos h) (by simp [mnemonicOf])
    · have e : execVcBit r k s = _ := if_neg h
      exact Shape.good e rfl (keeps_refl _ _)
  | vcExt d r v =>
    by_cases h : (readCode s r).len = Config.codeMax
    · exact Shape.err (by show execVcExt d r v s = _; unfold execVcExt; exact if_pos h) (by simp [mnemonicOf])
    · have e : execVcExt d r v s = _ := if_neg h
      exact Shape.good e rfl (by simp [writes])
  | vcWr r =>
    have e : exec (.vcWr r) s = complete (doWriteCode (readCode s r) s) := rfl
    rcases doWriteCode_cases (readCode s r) s with ⟨_, h⟩ | ⟨_, h⟩ <;> rw [h] at e
    · exact Shape.err e (by simp [mnemonicOf])
    · exact Shape.good e rfl (by simp [writes])
  | trCount => exact Shape.good rfl rfl (by simp [writes])
  | trBuild =>
    by_cases h : counterSum s.freq ≥ 2 ^ 32
    · exact Shape.err (by show execTrBuild s = _; unfold execTrBuild; exact if_pos h) (by simp [mnemonicOf])
    · have e : execTrBuild s = _ := if_neg h
      exact Shape.good e rfl (by simp [writes])
  | trFind d x =>
    cases h : findSymbol s.tree x with
    | overflow => exact Shape.err (e := .encodingOverflow) (by show execTrFind d x s = _; unfold execTrFind; rw [h])
                    (by simp [mnemonicOf])
    | notFound => exact Shape.err (e := .symbolNotFound) (by show execTrFind d x s = _; unfold execTrFind; rw [h])
                    (by simp [mnemonicOf])
    | found c => 
      have e : exec (.trFind d x) s = execTrFind d x s := rfl
      unfold execTrFind at e; rw [h] at e; exact Shape.good e rfl (by simp [writes])
  | trEnc x =>
    have e : exec (.trEnc x) s = complete (doTrEnc x s) := rfl
    rcases doTrEnc_cases x s with ⟨_, _, h⟩ | ⟨c, _, hl, h⟩ <;> rw [h] at e
    · exact Shape.err e (by simp [mnemonicOf])
    · exact Shape.good e rfl (by simp [writes])
  | trSer =>
    have e : exec .trSer s = complete (doTrSer s) := rfl
    rcases doTrSer_cases s with ⟨_, h⟩ | ⟨_, h⟩ <;> rw [h] at e
    · exact Shape.err e (by simp [mnemonicOf])
    · exact Shape.good e rfl (by simp [writes])
  | trDes =>
    have e : exec .trDes s = complete (doTrDes s) := rfl
    rcases doTrDes_cases s with ⟨_, _, h⟩ | ⟨_, _, _, _, _, _, h⟩ <;> rw [h] at e
    · exact Shape.err e (by simp [mnemonicOf])
    · exact Shape.good e rfl (by simp [writes])
  | codecEncode =>
    have e : exec .codecEncode s = complete (doEncode s) := rfl
    obtain ⟨b, _, ⟨er, he, h⟩ | ⟨o, _, _, h⟩⟩ := doEncode_cases s <;> rw [h] at e
    · exact Shape.late e rfl (by simp [writes, encodeSetup_eq]) (by decide)
          (by rcases he with rfl | rfl | rfl <;> decide) rfl
    · exact Shape.good e rfl (by simp [writes, encodeSetup_eq])
  | codecDecode =>
    have e : exec .codecDecode s = complete (doDecode s) := rfl
    rcases doDecode_cases s with ⟨er, he, h⟩ | ⟨t, rest, _, _, _, _, h | ⟨_, u, rfl, ⟨er, he, h⟩ | ⟨d, _, h⟩⟩⟩ <;>
      rw [h] at e
    · exact Shape.late e rfl (by simp [writes]) (by decide) (by rcases he with rfl | rfl <;> decide) rfl
    · exact Shape.late e rfl (by simp [writes]) (by decide) (by decide) rfl
    · exact Shape.late e rfl (by simp [writes]) (by decide) (by rcases he with rfl | rfl <;> decide) rfl
    · obtain ⟨c, o, d', p, _, h1, h2⟩ := decodeLoop_cases (8 * rest.length + 1)
        (State.setWalk (State.setBb ((installTree (s.setObuf []) t).setIpos (serialize t).length) (loadedBuffer rest)) d [])
      refine ⟨_, e, ?_, ?_, fun _ x => absurd (by decide) x, fun x => ?_, fun x => ?_, fun _ x y => ?_⟩
      · rw [h1]; rfl
      · rw [h1]; simp [writes]
      · rcases h2 with ⟨h3, _⟩ | ⟨h3, _⟩
        · exact absurd x h3.ne_illegal
        · rw [h3] at x; cases x
      · rcases h2 with ⟨h3, h4, _⟩ | ⟨h3, _⟩
        · exact .inl h4
        · exact absurd h3 x
      · rcases h2 with ⟨h3, h4, h5, _⟩ | ⟨h3, _⟩
        · rw [h1, h5]; rfl
        · exact absurd h3 x
  | decStart =>
    have e : exec .decStart s = complete (doDecStart s) := rfl
    rcases doDecStart_cases s with ⟨er, he, h⟩ | h | ⟨_, _, h⟩ <;> rw [h] at e
    · exact Shape.late e rfl (by simp [writes]) (by decide) (by rcases he with rfl | rfl <;> decide) rfl
    · exact Shape.good e rfl (by simp [writes])
    · exact Shape.good e rfl (by simp [writes])
  | decStep =>
    have e : exec .decStep s = complete (doDecStep s) := rfl
    by_cases hr : s.dstate = .run
    · rcases doDecStep_run hr with ⟨er, c, he, h⟩ | ⟨_, _, h | ⟨o, p, _, _, _, h⟩⟩ <;> rw [h] at e
      · exact Shape.late e rfl (by simp [writes]) (by decide) he.ne_illegal rfl
      · exact Shape.good e rfl (by simp [writes])
      · exact Shape.good e rfl (by simp [writes])
    · rcases doDecStep_cases s with ⟨_, h⟩ | ⟨h, _⟩ | ⟨h, _⟩ | ⟨h, _⟩
      · rw [h] at e
        exact ⟨_, e, rfl, keeps_refl _ _, fun _ _ => rfl, fun _ => rfl, fun _ => .inl rfl, fun _ _ x => absurd rfl x⟩
      all_goals exact absurd h hr

/-- The next state is the answered end of the pseudocode. -/
theorem Shape.next {i : Instr} {s t : State} {f : Finished} (h : Shape i s f) (ht : exec i s = .next t) :
    t = f.state.answer ⟨f.status, f.data⟩ := by
  rw [h.ex] at ht
  exact complete_next ht

end Sys2Proof.Machine
end

