-- ==== Sys2Proof/Tests/Slice0.lean ====
section
/-! SUPPORT. The model's own tests: the smoke test of WellFormed, decoding against words written out from
30_encoding.md, one step of each command against the vectors of 95_test_vectors.md and the examples of the command
rules, and for every obligation with hypotheses a state and operands that meet them. -/

namespace Sys2Proof.Tests

-- Each kernel evaluation would wait in a thread of its own for the ones before it.
set_option Elab.async false

open Sys2Proof.Machine

/-! ### Helpers -/

/-- A small state: a block with room for two buffer bytes, three input bytes and three output bytes. -/
def small : State := { State.reset with caps := ⟨2, 3, 3, 511, 255⟩ }

/-- What is seen of the state after a step. -/
def after {α : Type} (o : Host.Outcome State Fault Refusal) (see : State → α) : Option α :=
  match o with
  | .next t => some (see t)
  | .fault _ => none
  | .refused _ => none

/-- The answer to a command: the code of its status, and its data. -/
def answer (o : Host.Outcome State Fault Refusal) : Option (Nat × Nat) :=
  after o fun t =>
    match t.responses.getLast? with
    | none => (256, 0)
    | some r => ((statusCode r.status).toNat, r.data.toNat)

/-- The bytes of the bit buffer as numbers. -/
def bytesOf (s : State) : List Nat := (bufferBytes s.bb).map BitVec.toNat

/-- The bit buffer that holds the bytes, with its cursor at a position. -/
def buffer (bytes : List Byte) (cursor : BitVec 32) : BitBuffer := { loadedBuffer bytes with cursor := cursor }

/-- A leaf. -/
def leaf (x : Byte) : HuffTree := .node x 0 .absent .absent

/-- The tree of 44_codec.md R243: the sentinel to the left, `a` to the right. -/
def pair : HuffTree := .node 0x01 0 (leaf 0x04) (leaf 0x61)

/-- A tree of one child a level, with a leaf of the symbol at the depth. -/
def chain (x : Byte) : Nat → HuffTree
  | 0 => leaf x
  | n + 1 => .node 0x01 0 (chain x n) .absent

/-- What `State.Inv` asks of a state, computed. -/
def checks (s : State) : Bool :=
  decide (s.caps.bbMax ≤ 2 ^ 29) && decide (s.caps.ibufMax ≤ 2 ^ 32 - 3) && decide (s.caps.obufMax ≤ 2 ^ 32 - 1) &&
  decide (511 ≤ s.caps.nodeMax) && decide (255 ≤ s.caps.depthMax) &&
  Memory.wf s.bb.mem && decide (s.bb.size ≤ s.caps.bbMax) && (!s.bb.hwmv || decide (s.bb.hwm < s.bb.size)) &&
  (s.bb.hwmv || decide (s.bb.hwm = 0)) && decide (truncateBytes s.bb.mem (finalSize s.bb) = s.bb.mem) &&
  decide (∀ r : CodeReg, codeWf (readCode s r) = true) && decide (s.ibuf.length ≤ s.caps.ibufMax) &&
  decide (s.ipos ≤ s.ibuf.length) && decide (s.obuf.length ≤ s.caps.obufMax) && fitsStore s.caps s.tree &&
  decide (nodeCount s.tree < 2 ^ 32) &&
  (decide (s.dstate ≠ .run) || (!isAbsent (nodeAt s.tree s.wpath) && !isLeaf (nodeAt s.tree s.wpath))) &&
  (decide (s.dstate = .run) || decide (s.wpath = []))

theorem inv_of_checks {s : State} (h : checks s = true) : s.Inv := by
  simp only [checks, Bool.and_eq_true, decide_eq_true_eq, Bool.or_eq_true, Bool.not_eq_true'] at h
  obtain ⟨⟨⟨⟨⟨⟨⟨⟨⟨⟨⟨⟨⟨⟨⟨⟨⟨h1, h2⟩, h3⟩, h4⟩, h5⟩, b1⟩, b2⟩, b3⟩, b4⟩, b5⟩, c⟩, i1⟩, i2⟩, o⟩, t1⟩, t2⟩, w1⟩, w2⟩ := h
  refine ⟨⟨h1, h2, h3, h4, h5⟩, ⟨b1, b2, fun hv => ?_, fun hv => ?_, fun a ha => ?_⟩, c, i1, i2, o, t1, t2, fun hr => ?_,
    fun hr => ?_⟩
  · rcases b3 with b3 | b3
    · rw [hv] at b3; cases b3
    · exact b3
  · rcases b4 with b4 | b4
    · rw [hv] at b4; cases b4
    · exact b4
  · rw [← b5, readByte_truncateBytes, if_neg (by omega)]
  · rcases w1 with w1 | w1
    · exact absurd hr w1
    · exact w1
  · rcases w2 with w2 | w2
    · exact absurd w2 hr
    · exact w2

/-! ### WellFormed -/

/-- 10_state.md R38: 0x0C, 0x0F, 0x18, 0x24 and 0xFF are reserved register numbers. -/
theorem test_wellFormed_refuses_reserved_registers :
    [(0x0C : Byte), 0x0F, 0x18, 0x24, 0xFF].all (fun n => !(Instr.csrr n).wellFormed) = true := by decide

/-- 10_state.md R38: the last number of each run of the register map. -/
theorem test_wellFormed_accepts_the_map :
    [(0x00 : Byte), 0x0B, 0x10, 0x17, 0x20, 0x23].all (fun n => (Instr.csrr n).wellFormed) = true := by decide

/-! ### Decoding -/

/-- The words of 30_encoding.md R108 bit by bit, in the fields of R100: `imm`, `z3`, `sym`, `z2`, `rs`, `z1`, `rd`,
`val`, `op`. -/
theorem test_decode_bit_by_bit :
    decode (9#32 ++ 0#8 ++ 0#8 ++ 0b00#2 ++ 0b00#2 ++ 0b00#2 ++ 0b00#2 ++ 0b1#1 ++ 0b0010001#7) =
      .command (.bbWr true 9) ∧
    decode (0#32 ++ 0#8 ++ 0#8 ++ 0b00#2 ++ 0b00#2 ++ 0b00#2 ++ 0b01#2 ++ 0b1#1 ++ 0b0100011#7) =
      .command (.vcExt 1 0 true) ∧
    decode (0#32 ++ 0#8 ++ 0b01100001#8 ++ 0b00#2 ++ 0b00#2 ++ 0b00#2 ++ 0b10#2 ++ 0b0#1 ++ 0b0110010#7) =
      .command (.trFind 2 0x61) ∧
    decode (0#32 ++ 0#8 ++ 0b00000111#8 ++ 0b00#2 ++ 0b00#2 ++ 0b00#2 ++ 0b00#2 ++ 0b0#1 ++ 0b0000010#7) =
      .command (.csrr 7) ∧
    decode (0#32 ++ 0#8 ++ 0#8 ++ 0b00#2 ++ 0b00#2 ++ 0b00#2 ++ 0b00#2 ++ 0b0#1 ++ 0b1000011#7) =
      .command .decStep := by decide

/-- System commands: the words of 45_system.md R261 to R269. -/
theorem test_decode_system :
    decode 0x0000000000000001 = .command .reset ∧ decode 0x0000000000000002 = .command (.csrr 0) ∧
    decode 0x0000000000000003 = .command .ibClr ∧ decode 0x0000000000610004 = .command (.ibPut 0x61) ∧
    decode 0x0000000300000005 = .command (.ibSeek 3) ∧ decode 0x0000000000000006 = .command .obClr ∧
    decode 0x0000000700000007 = .command (.obGet 7) ∧ decode 0x8000000000410008 = .command (.fqSet 0x41 0x80000000) ∧
    decode 0x0000000000040009 = .command (.fqGet 4) := by decide

/-- Bit buffer commands: the words of 40_bitbuffer.md and of V1 to V9. -/
theorem test_decode_bitBuffer :
    decode 0x0000000000000010 = .command .bbNew ∧ decode 0x0000000700000011 = .command (.bbWr false 7) ∧
    decode 0x0000000000000092 = .command (.bbWrn true) ∧ decode 0x0000000000000012 = .command (.bbWrn false) ∧
    decode 0x0000001000000013 = .command (.bbRd 16) ∧ decode 0x0000000000000014 = .command .bbRdn ∧
    decode 0x0000000000000015 = .command .bbMore ∧ decode 0x0000000000000016 = .command .bbFin ∧
    decode 0x0000000000000017 = .command .bbLoad ∧ decode 0x0000000000000018 = .command .bbOut := by decide

/-- Code register commands: the words of 41_vlc.md and of V10 to V14, P5. -/
theorem test_decode_codeRegister :
    decode 0x0000000000000120 = .command (.vcNew 1) ∧ decode 0x0000000000000321 = .command (.vcApp 3 false) ∧
    decode 0x00000000000003A1 = .command (.vcApp 3 true) ∧ decode 0x0000001F00003022 = .command (.vcBit 3 31) ∧
    decode 0x00000000000011A3 = .command (.vcExt 1 1 true) ∧ decode 0x0000000000002024 = .command (.vcWr 2) := by decide

/-- Tree commands: the words of 42_tree.md, 43_serdes.md and of P2. -/
theorem test_decode_tree :
    decode 0x0000000000000030 = .command .trCount ∧ decode 0x0000000000000031 = .command .trBuild ∧
    decode 0x0000000000620132 = .command (.trFind 1 0x62) ∧ decode 0x0000000000040033 = .command (.trEnc 4) ∧
    decode 0x0000000000000034 = .command .trSer ∧ decode 0x0000000000000035 = .command .trDes := by decide

/-- Codec commands: the words of 44_codec.md. -/
theorem test_decode_codec :
    decode 0x0000000000000040 = .command .codecEncode ∧ decode 0x0000000000000041 = .command .codecDecode ∧
    decode 0x0000000000000042 = .command .decStart ∧ decode 0x0000000000000043 = .command .decStep := by decide

/-- The illegal words of V48, by the three cases of 30_encoding.md R106. -/
theorem test_decode_illegal :
    [0x00, 0x44, 0x7F, 0x0A, 0x19, 0x36].all (fun w => decide (decode w = .illegal .unknownOpcode)) = true ∧
    [0x412, 0x1000002, 0x4020, 0xFF000001, 0x8092].all (fun w => decide (decode w = .illegal .reservedBits)) = true ∧
    [0x0000000100000010, 0x90].all (fun w => decide (decode w = .illegal .unusedOperand)) = true := by decide

/-- No word selects two rows of the opcode table: two rows differ in a bit both masks fix (30_encoding.md R102). -/
theorem test_opcodeTable_no_overlap :
    opcodeTable.Pairwise fun r q => r.fixedBits &&& q.fixedMask ≠ q.fixedBits &&& r.fixedMask := by decide +kernel

/-- 30_encoding.md R103: 33 rows. -/
theorem test_opcodeTable_length : opcodeTable.length = 33 := by decide

theorem test_decodeTableWord : decodeTableWord 64 0x0000000000610232 = some (.trFind 2 0x61) ∧
    decodeTableWord 64 0 = none := by decide

/-- A placed word is the one the next step runs. -/
theorem test_withFetchWord_runs : answer (step (small.withFetchWord 64 0x0000000000220002)) = some (0, 4) := by
  decide +kernel

/-! ### System commands -/

/-- 45_system.md R261: `RESET` after a failed command. -/
theorem test_reset : after (exec .reset { small with status := .capacityExceeded, ibuf := [0x61], dstate := .fail })
    (fun t => (t.status, t.ibuf, t.dstate)) = some (.ok, [], .idle) := by decide +kernel

/-- V49: the constants, and `STATUS` before the read. -/
theorem test_csrr_reads : answer (exec (.csrr 0x23) small) = some (0, 32) ∧
    answer (exec (.csrr 0x00) { small with status := .illegalCommand }) = some (0, 6) := by decide +kernel

/-- V48: a reserved number. -/
theorem test_csrr_reserved : answer (exec (.csrr 0x0C) small) = some (6, 0) := by decide +kernel

theorem test_ibClr : after (exec .ibClr { small with ibuf := [0x61], ipos := 1 }) (fun t => (t.ibuf, t.ipos)) =
    some ([], 0) := by decide +kernel

/-- 45_system.md R264: the example, and a full buffer. -/
theorem test_ibPut : answer (exec (.ibPut 0x61) small) = some (0, 1) ∧
    answer (exec (.ibPut 0x61) { small with ibuf := [0, 0, 0] }) = some (7, 0) := by decide +kernel

/-- V47: `IB.SEEK` to a position above the length. -/
theorem test_ibSeek : answer (exec (.ibSeek 3) { small with ibuf := [1, 2, 3] }) = some (0, 3) ∧
    answer (exec (.ibSeek 4) { small with ibuf := [1, 2, 3] }) = some (5, 0) := by decide +kernel

theorem test_obClr : after (exec .obClr { small with obuf := [1], dstate := .done }) (fun t => (t.obuf, t.dstate)) =
    some ([], .done) := by decide +kernel

/-- P3: a byte of the output, and the index behind it. -/
theorem test_obGet : answer (exec (.obGet 1) { small with obuf := [0x04, 0x61] }) = some (0, 97) ∧
    answer (exec (.obGet 2) { small with obuf := [0x04, 0x61] }) = some (5, 0) := by decide +kernel

/-- 45_system.md R268: one counter, and not its neighbour. -/
theorem test_fqSet : after (exec (.fqSet 0x61 5) small) (fun t => (readFreq t.freq 0x61, readFreq t.freq 0x62)) =
    some (5, 0) := by decide +kernel

theorem test_fqGet : answer (exec (.fqGet 0x04) { small with freq := writeFreq small.freq 0x04 2 }) = some (0, 2) := by
  decide +kernel

/-! ### Bit buffer -/

theorem test_bbNew : after (exec .bbNew { small with bb := buffer [0xFF] 8 }) (fun t => (bytesOf t, t.bb.cursor)) =
    some ([], 0) := by decide +kernel

/-- V3: growth 0, 1, 2. -/
theorem test_bbWr_grows : after (exec (.bbWr true 9) State.reset) (fun t => (bytesOf t, t.bb.hwm, t.bb.cursor)) =
    some ([0x00, 0x02], 1, 0) := by decide +kernel

/-- V5: ten growth steps to size 14. -/
theorem test_bbWr_far : after (exec (.bbWr true 100) State.reset) (fun t => (t.bb.size, t.bb.hwm)) = some (14, 12) := by
  decide +kernel

/-- V4: the write after eight ones, and the end of the capacity. -/
theorem test_bbWrn : after (exec (.bbWrn true) { small with bb := buffer [0xFF] 9 }) bytesOf = some [0xFF, 0x02] ∧
    answer (exec (.bbWrn true) { small with bb := buffer [0xFF] 16 }) = some (7, 0) := by decide +kernel

/-- The last position: the increment would not fit (40_bitbuffer.md R134). -/
theorem test_bbWrn_last : answer (exec (.bbWrn true) { State.reset with bb := buffer [] 0xFFFFFFFF }) = some (7, 0) := by
  decide +kernel

/-- 40_bitbuffer.md R135: the example. -/
theorem test_bbRd : answer (exec (.bbRd 9) { small with bb := buffer [0x00, 0x02] 0 }) = some (0, 1) ∧
    answer (exec (.bbRd 16) { small with bb := buffer [0x00, 0x02] 0 }) = some (5, 2) := by decide +kernel

/-- V8: the ninth read of one byte answers `IndexOutOfRange` and still advances. -/
theorem test_bbRdn_out_of_range : answer (exec .bbRdn { small with bb := buffer [0x0F] 8 }) = some (5, 2) ∧
    after (exec .bbRdn { small with bb := buffer [0x0F] 8 }) (fun t => t.bb.cursor) = some 9 := by decide +kernel

/-- P1: bit 3 of `04`. -/
theorem test_bbRdn : answer (exec .bbRdn { small with bb := buffer [0x08] 3 }) = some (0, 1) := by decide +kernel

/-- 40_bitbuffer.md R137: the example. -/
theorem test_bbMore : answer (exec .bbMore { small with bb := buffer [0x0F] 7 }) = some (0, 1) ∧
    answer (exec .bbMore { small with bb := buffer [0x0F] 8 }) = some (0, 0) := by decide +kernel

/-- V9: size 7 trimmed to 6. -/
theorem test_bbFin : after (exec .bbFin { State.reset with bb := ⟨[(5, 0x01)], 7, 0, true, 5⟩ }) bytesOf =
    some [0, 0, 0, 0, 0, 1] := by decide +kernel

/-- V8: the payload behind a tree of seven bytes. -/
theorem test_bbLoad : after (exec .bbLoad { State.reset with ibuf := [1, 4, 0, 0, 0x61, 0, 0, 0x0F], ipos := 7 })
    (fun t => (bytesOf t, t.bb.hwmv, t.ipos)) = some ([0x0F], true, 7) := by decide +kernel

/-- V9: over-allocated bytes are put out. -/
theorem test_bbOut : after (exec .bbOut { State.reset with bb := ⟨[(1, 0x01)], 3, 0, true, 1⟩, obuf := [7] })
    (fun t => t.obuf) = some [7, 0, 1, 0] := by decide +kernel

/-! ### Code registers -/

theorem test_vcNew : after (exec (.vcNew 1) ((small.setCode 1 ⟨5, 3⟩).setCode 2 ⟨1, 1⟩))
    (fun t => (readCode t 1, readCode t 2)) = some (⟨0, 0⟩, ⟨1, 1⟩) := by decide +kernel

/-- V13: `VC.APP c1, 1` on the code 01. -/
theorem test_vcApp : after (exec (.vcApp 1 true) (small.setCode 1 ⟨2, 2⟩)) (fun t => readCode t 1) = some ⟨6, 3⟩ := by
  decide +kernel

/-- V10: the 33rd bit. -/
theorem test_vcApp_full : answer (exec (.vcApp 3 false) (small.setCode 3 ⟨0xFFFFFFFF, 32⟩)) = some (1, 0) := by
  decide +kernel

/-- V10: index 31 and index 32 of a full code. -/
theorem test_vcBit : answer (exec (.vcBit 3 31) (small.setCode 3 ⟨0xFFFFFFFF, 32⟩)) = some (0, 1) ∧
    answer (exec (.vcBit 3 32) (small.setCode 3 ⟨0xFFFFFFFF, 32⟩)) = some (5, 0) := by decide +kernel

/-- 41_vlc.md R164: the example. -/
theorem test_vcExt : after (exec (.vcExt 1 0 true) (small.setCode 0 ⟨5, 3⟩)) (fun t => (readCode t 1, readCode t 0)) =
    some (⟨0xD, 4⟩, ⟨5, 3⟩) := by decide +kernel

/-- V13: source and destination the same. -/
theorem test_vcExt_same : after (exec (.vcExt 1 1 true) (small.setCode 1 ⟨0, 1⟩)) (fun t => readCode t 1) =
    some ⟨2, 2⟩ := by decide +kernel

/-- V14: across a byte boundary. -/
theorem test_vcWr : after (exec (.vcWr 0) { small.setCode 0 ⟨0xB, 4⟩ with bb := ⟨[], 1, 6, true, 0⟩ })
    (fun t => (bytesOf t, t.bb.cursor)) = some ([0xC0, 0x02], 10) := by decide +kernel

/-- 41_vlc.md R165: all or nothing. -/
theorem test_vcWr_full : answer (exec (.vcWr 0) { small.setCode 0 ⟨0xB, 4⟩ with bb := ⟨[], 2, 13, true, 1⟩ }) =
    some (7, 0) := by decide +kernel

/-! ### Counting, building, finding, encoding one symbol -/

/-- V17. -/
theorem test_trCount : after (exec .trCount { small with ibuf := [0x61, 0x04, 0x61] })
    (fun t => (readFreq t.freq 0x04, readFreq t.freq 0x61, readFreq t.freq 0x62)) = some (2, 2, 0) := by decide +kernel

/-- V22: three equal counts. -/
theorem test_trBuild : after (exec .trBuild { small with
      freq := writeFreq (writeFreq (writeFreq small.freq 0x41 1) 0x42 1) 0x43 1 }) (fun t => serialize t.tree) =
    some [0x01, 0x43, 0, 0, 0x01, 0x41, 0, 0, 0x42, 0, 0] := by decide +kernel

/-- V26: the counters sum to `2^32`. -/
theorem test_trBuild_sum : answer (exec .trBuild { small with
      freq := writeFreq (writeFreq small.freq 0x41 0x80000000) 0x42 0x80000000 }) = some (7, 0) := by decide +kernel

/-- 42_tree.md R191: the examples, the root's own symbol among them. -/
theorem test_trFind : after (exec (.trFind 2 0x61) { small with tree := pair }) (fun t => readCode t 2) = some ⟨1, 1⟩ ∧
    answer (exec (.trFind 2 0x01) { small with tree := pair }) = some (2, 0) := by decide +kernel

/-- 42_tree.md R190 (b): depth 32 is found, depth 33 is an overflow. -/
theorem test_trFind_deep : answer (exec (.trFind 0 0x61) { small with tree := chain 0x61 32 }) = some (0, 32) ∧
    answer (exec (.trFind 0 0x61) { small with tree := chain 0x61 33 }) = some (1, 0) := by decide +kernel

/-- 42_tree.md R195: the example, after four ones. -/
theorem test_trEnc : after (exec (.trEnc 0x04) { small with tree := pair, bb := buffer [0x0F] 4 })
    (fun t => (bytesOf t, t.bb.cursor)) = some ([0x0F], 5) := by decide +kernel

/-- 60_exceptions.md R303: the lookup comes before the capacity tests. -/
theorem test_trEnc_not_found : answer (exec (.trEnc 0x62) { small with tree := pair, bb := buffer [0, 0] 16 }) =
    some (2, 0) := by decide +kernel

/-! ### The serializer and the deserializer -/

/-- V44. -/
theorem test_trSer : after (exec .trSer { small with tree := leaf 0x61 }) (fun t => t.obuf) = some [0x61, 0, 0] := by
  decide +kernel

/-- V45: a node with one child. -/
theorem test_trDes : after (exec .trDes { State.reset with ibuf := [0x01, 0x61, 0, 0, 0] })
    (fun t => (t.tree, t.ipos)) = some (.node 0x01 0 (leaf 0x61) .absent, 5) := by decide +kernel

/-- V46: a truncated tree. -/
theorem test_trDes_truncated : answer (exec .trDes { State.reset with ibuf := [0x01, 0x04, 0, 0, 0x61, 0] }) =
    some (3, 0) := by decide +kernel

/-! ### The walk and the pipelines -/

/-- V43, 44_codec.md R242: an absent tree, the sentinel's leaf. -/
theorem test_decStart : answer (exec .decStart small) = some (4, 0) ∧
    answer (exec .decStart { small with tree := leaf 0x04 }) = some (0, 2) := by decide +kernel

/-- 44_codec.md R243: the example. -/
theorem test_decStep : after (exec .decStep { small with tree := pair, dstate := .run, bb := buffer [0x0F] 0 })
    (fun t => (t.obuf, t.bb.cursor, t.dstate, t.wpath)) = some ([0x61], 1, .run, []) := by decide +kernel

/-- 60_exceptions.md R303: the bit is read before the child is looked at. -/
theorem test_decStep_end : answer (exec .decStep { small with tree := .node 1 0 .absent (leaf 4), dstate := .run }) =
    some (3, 0) := by decide +kernel

/-- 44_codec.md R233: "aaaa". -/
theorem test_encode : after (exec .codecEncode { State.reset with ibuf := [0x61, 0x61, 0x61, 0x61] })
    (fun t => t.obuf) = some [0x01, 0x04, 0, 0, 0x61, 0, 0, 0x0F] := by decide +kernel

/-- V37: a text of sentinels. -/
theorem test_encode_sentinels : after (exec .codecEncode { State.reset with ibuf := [0x04, 0x04, 0x04] })
    (fun t => t.obuf) = some [0x04, 0, 0] := by decide +kernel

/-- V40: trailing bytes are not read. -/
theorem test_decode : after (exec .codecDecode { State.reset with ibuf := [0x01, 0x04, 0, 0, 0x61, 0, 0, 0x0F, 0xFF] })
    (fun t => (t.obuf, t.bb.cursor)) = some ([0x61, 0x61, 0x61, 0x61], 5) := by decide +kernel

/-- V42: the NULL limitation. -/
theorem test_decode_null : answer (exec .codecDecode { State.reset with
      ibuf := [0x01, 0x04, 0, 0, 0x01, 0, 0, 0, 0x61, 0, 0, 0x07] }) = some (0, 0) := by decide +kernel

/-! ### What meets the hypotheses of the obligations

One theorem for each obligation that has hypotheses, with a state and operands for each of its clauses, at the values
where the clauses meet. -/

theorem next_of_after {o : Host.Outcome State Fault Refusal} {p : State → Prop} [DecidablePred p]
    (h : after o (fun t => decide (p t)) = some true) : ∃ t, o = .next t ∧ p t := by
  cases o with
  | next t => exact ⟨t, rfl, of_decide_eq_true (Option.some.inj h)⟩
  | fault e => cases h
  | refused e => cases h

/-- A full tree of the depth: `2^(n+1) - 1` nodes. -/
def full (x : Byte) : Nat → HuffTree
  | 0 => leaf x
  | n + 1 => .node 0x01 0 (full x n) (full x n)

/-- The tightest stores 00_scope.md R8 allows for a tree. -/
def tight : State := { State.reset with caps := ⟨2, 4096, 3, 511, 255⟩ }

theorem witness_DecodeThenEncodeIsIdentity : decode 0xFFFFFFFF00000091 = .command (.bbWr true 0xFFFFFFFF) := by decide

theorem witness_DecoderAgreesWithOpcodeTable :
    (decode 0xFFFFFFFF00000091 = .command (.bbWr true 0xFFFFFFFF) ∧ mnemonicOf (.bbWr true 0xFFFFFFFF) = "BB.WR") ∧
    ∃ r ∈ opcodeTable, r.mnemonic = "BB.WR" ∧ r.selects 0xFFFFFFFF00000091 = true := by decide +kernel

theorem witness_IllegalWordsAreAnswered :
    (({ small with commands := [0x44, 0x03] } : State).commands = 0x44 :: [0x03] ∧ IllegalBits 0x44) ∧
    IllegalBits 0x0410 ∧ IllegalBits 0x0000000100000010 ∧ ¬ IllegalBits 0x10 := by
  refine ⟨⟨rfl, .inl fun i => ?_⟩, .inr (.inl (by decide)), .inr (.inr ⟨.bbNew, by decide, .inl (by decide)⟩), ?_⟩
  · cases i <;> simp [opcodeOf]
  · rintro (h | h | ⟨i, hi, h⟩)
    · exact h .bbNew (by decide)
    · revert h
      decide
    · cases i <;> simp [opcodeOf, formatOf, Format.usesImm, Format.usesSym, Format.usesRs, Format.usesRd,
        Format.usesVal] at hi h

theorem witness_StepRunsTheNextCommand :
    (({ small with commands := [0x0000000000000003, 0x40] } : State).commands = 0x0000000000000003 :: [0x40] ∧
      decode 0x0000000000000003 = .command .ibClr) ∧ small.commands = [] := by decide +kernel

theorem witness_ResetLeavesTheSpecsValues :
    ∃ t, exec .reset { small with ibuf := [1], tree := pair, dstate := .run } = .next t ∧
      ∃ u, u = State.reset ∨ u = t := ⟨_, rfl, State.reset, .inl rfl⟩

/-- A legal word, an illegal word, and no word. -/
theorem witness_EveryStepKeepsTheInvariant :
    let s : State := { small with commands := [0x0000000000610004, 0], tree := pair, dstate := .run }
    (s.Inv ∧ ∃ t, step s = .next t ∧ t.ibuf = [0x61]) ∧
    (s.setCommands [0]).Inv ∧ (∃ t, step (s.setCommands [0]) = .next t ∧ t.status = .illegalCommand) ∧
    (s.setCommands []).Inv ∧ step (s.setCommands []) = .next (s.setCommands []) :=
  ⟨⟨inv_of_checks (by decide +kernel), next_of_after (by decide +kernel)⟩, inv_of_checks (by decide +kernel),
    next_of_after (by decide +kernel), inv_of_checks (by decide +kernel), rfl⟩

theorem witness_StatusIsReadOnlyByCsrr : Instr.csrr 0x01 ≠ .csrr 0x00 ∧ Instr.decStep ≠ .csrr 0x00 := by decide

/-- The last number of a run of the map, and the first behind it. -/
theorem witness_CsrrReadsTheRegisterMap :
    small.Inv ∧ (0x0B, 32, 0) ∈ csrTable small ∧ (0x23, 6, 32) ∈ csrTable small ∧
    ¬ (∃ width value, (0x0C, width, value) ∈ csrTable small) ∧
    ¬ ∃ width value, (0x24, width, value) ∈ csrTable small :=
  ⟨inv_of_checks (by decide +kernel), by decide +kernel, by decide +kernel, by simp [csrTable], by simp [csrTable]⟩

theorem witness_SequencingErrorsAreIllegalCommands :
    (0x0C : Byte) ∉ csrNumbers ∧ (0x24 : Byte) ∉ csrNumbers ∧ small.dstate ≠ .run := by decide +kernel

/-- A full input buffer, and one with room for one byte. -/
theorem witness_InputBytesAreAppended :
    let s : State := { small with ibuf := [1, 2, 3] }
    let t : State := { small with ibuf := [1, 2] }
    (s.Inv ∧ s.ibuf.length = s.caps.ibufMax) ∧ t.Inv ∧ t.ibuf.length ≠ t.caps.ibufMax :=
  ⟨⟨inv_of_checks (by decide +kernel), by decide⟩, inv_of_checks (by decide +kernel), by decide⟩

theorem witness_IbSeekMovesTheInputCursor :
    let s : State := { small with ibuf := [1, 2, 3] }
    (4 : Word).toNat > s.ibuf.length ∧ (3 : Word).toNat ≤ s.ibuf.length := by decide

theorem witness_OutputBytesAreRead :
    let s : State := { small with obuf := [1, 2, 3] }
    (3 : Word).toNat ≥ s.obuf.length ∧ (2 : Word).toNat < s.obuf.length := by decide

/-- The last byte of a capacity of two, not allocated and allocated. -/
theorem witness_GrowthReachesTheByte :
    (BufferInv 2 small.bb ∧ 1 < 2) ∧ BufferInv 2 (buffer [0xFF, 0x01] 0) ∧ 1 < (buffer [0xFF, 0x01] 0).size :=
  ⟨⟨(inv_of_checks (s := small) (by decide +kernel)).buffer, by decide⟩,
    (inv_of_checks (s := { small with bb := buffer [0xFF, 0x01] 0 }) (by decide +kernel)).buffer, by decide⟩

theorem witness_BbWrWritesTheBit :
    small.Inv ∧ (16 : Word).toNat / 8 ≥ small.caps.bbMax ∧ (15 : Word).toNat / 8 < small.caps.bbMax :=
  ⟨inv_of_checks (by decide +kernel), by decide, by decide⟩

/-- The last position, the first position beyond the capacity, the last within it. -/
theorem witness_BbWrnWritesAtTheCursor :
    let s : State := { State.reset with bb := buffer [0xFF] 0xFFFFFFFF }
    let t : State := { small with bb := buffer [0xFF] 16 }
    let u : State := { small with bb := buffer [0xFF] 15 }
    (s.Inv ∧ s.bb.cursor.toNat = 2 ^ 32 - 1) ∧ (t.Inv ∧ t.bb.cursor.toNat / 8 ≥ t.caps.bbMax) ∧
    u.Inv ∧ u.bb.cursor.toNat ≠ 2 ^ 32 - 1 ∧ u.bb.cursor.toNat / 8 < u.caps.bbMax :=
  ⟨⟨inv_of_checks (by decide +kernel), by decide⟩, ⟨inv_of_checks (by decide +kernel), by decide⟩,
    inv_of_checks (by decide +kernel), by decide, by decide⟩

theorem witness_BbRdReadsTheBit :
    let s : State := { small with bb := buffer [0xFF] 0 }
    (8 : Word).toNat / 8 ≥ s.bb.size ∧ (bufferBytes s.bb)[(7 : Word).toNat / 8]? = some 0xFF ∧
    (7 : Word).toNat / 8 < s.bb.size := by decide

theorem witness_BbRdnReadsAtTheCursor :
    let s : State := { small with bb := buffer [0xFF] 0xFFFFFFFF }
    let t : State := { small with bb := buffer [0xFF] 0xFFFFFFFE }
    let u : State := { small with bb := buffer [0xFF] 7 }
    s.bb.cursor.toNat = 2 ^ 32 - 1 ∧ (t.bb.cursor.toNat ≠ 2 ^ 32 - 1 ∧ t.bb.cursor.toNat / 8 ≥ t.bb.size) ∧
    u.bb.cursor.toNat ≠ 2 ^ 32 - 1 ∧ (bufferBytes u.bb)[u.bb.cursor.toNat / 8]? = some 0xFF ∧
    u.bb.cursor.toNat / 8 < u.bb.size := by decide

theorem witness_BbMoreTestsTheCursor :
    ({ small with bb := buffer [0xFF] 0xFFFFFFFE } : State).bb.cursor.toNat ≠ 2 ^ 32 - 1 := by decide

/-- A buffer with bytes past the high-water mark, and one never written. -/
theorem witness_BbFinTrimsTheBuffer :
    let s : State := { State.reset with bb := ⟨[(5, 0x01)], 7, 0, true, 5⟩ }
    (s.Inv ∧ 6 = if s.bb.hwmv then s.bb.hwm + 1 else 0) ∧ small.Inv ∧
    0 = if small.bb.hwmv then small.bb.hwm + 1 else 0 :=
  ⟨⟨inv_of_checks (by decide +kernel), by decide⟩, inv_of_checks (by decide +kernel), by decide⟩

/-- One byte more than the capacity, and as many as it. -/
theorem witness_BbLoadTakesTheUnreadInput :
    let s : State := { small with ibuf := [1, 2, 3] }
    let t : State := { small with ibuf := [1, 2, 3], ipos := 1 }
    (s.Inv ∧ 3 = s.ibuf.length - s.ipos ∧ 3 > s.caps.bbMax) ∧ t.Inv ∧ 2 = t.ibuf.length - t.ipos ∧ 2 ≤ t.caps.bbMax :=
  ⟨⟨inv_of_checks (by decide +kernel), by decide, by decide⟩, inv_of_checks (by decide +kernel), by decide, by decide⟩

theorem witness_BbOutAppendsTheBytes :
    let s : State := { small with bb := buffer [1, 2] 0, obuf := [1, 2] }
    let t : State := { small with bb := buffer [1, 2] 0, obuf := [1] }
    (s.Inv ∧ s.obuf.length + s.bb.size > s.caps.obufMax) ∧ t.Inv ∧ t.obuf.length + t.bb.size ≤ t.caps.obufMax :=
  ⟨⟨inv_of_checks (by decide +kernel), by decide⟩, inv_of_checks (by decide +kernel), by decide⟩

/-- The position read is the one written, another bit of an old byte, a bit of a byte the write brought into being. -/
theorem witness_WrittenBitsAreReadBack :
    let s : State := { small with bb := buffer [0xFF] 0 }
    (s.Inv ∧ (15 : Word).toNat / 8 < s.caps.bbMax) ∧ ((7 : Word) ≠ 15 ∧ (7 : Word).toNat / 8 < s.bb.size) ∧
    (8 : Word) ≠ 15 ∧ s.bb.size ≤ (8 : Word).toNat / 8 ∧
    ∃ t, exec (.bbWr true 15) s = .next t ∧ (8 : Word).toNat / 8 < t.bb.size :=
  ⟨⟨inv_of_checks (by decide +kernel), by decide⟩, by decide, by decide, by decide, next_of_after (by decide +kernel)⟩

theorem witness_VcAppAppendsOneBit :
    let s : State := small.setCode 3 ⟨0xFFFFFFFF, 32⟩
    let t : State := small.setCode 3 ⟨0x7FFFFFFF, 31⟩
    (s.Inv ∧ (readCode s 3).len = 32) ∧ t.Inv ∧ (readCode t 3).len ≠ 32 :=
  ⟨⟨inv_of_checks (by decide +kernel), by decide⟩, inv_of_checks (by decide +kernel), by decide⟩

theorem witness_VcBitReadsOneBit :
    let s : State := small.setCode 3 ⟨0xFFFFFFFF, 32⟩
    (32 : Word).toNat ≥ (readCode s 3).len ∧ (31 : Word).toNat < (readCode s 3).len := by decide

theorem witness_VcExtExtendsTheSource :
    let s : State := small.setCode 3 ⟨0xFFFFFFFF, 32⟩
    let t : State := small.setCode 3 ⟨0x7FFFFFFF, 31⟩
    (s.Inv ∧ (readCode s 3).len = 32) ∧ t.Inv ∧ (readCode t 3).len ≠ 32 ∧ (1 : CodeReg) ≠ 3 :=
  ⟨⟨inv_of_checks (by decide +kernel), by decide⟩, inv_of_checks (by decide +kernel), by decide, by decide⟩

/-- One bit beyond the last byte, up to its last bit, beyond the last position, and an empty code. -/
theorem witness_VcWrWritesTheCode :
    let s : State := { small.setCode 0 ⟨0xB, 4⟩ with bb := buffer [0xFF] 13 }
    let t : State := { small.setCode 0 ⟨0xB, 4⟩ with bb := buffer [0xFF] 12 }
    let u : State := { small.setCode 0 ⟨0xB, 4⟩ with bb := buffer [0xFF] 0xFFFFFFFF }
    (s.Inv ∧ ¬ BitsFit s (readCode s 0).len) ∧ (t.Inv ∧ BitsFit t (readCode t 0).len) ∧
    u.Inv ∧ ¬ BitsFit u (readCode u 0).len ∧ BitsFit u (readCode u 1).len :=
  ⟨⟨inv_of_checks (by decide +kernel), by unfold BitsFit; decide⟩,
    ⟨inv_of_checks (by decide +kernel), by unfold BitsFit; decide⟩,
    inv_of_checks (by decide +kernel), by unfold BitsFit; decide, by unfold BitsFit; decide⟩

theorem witness_CompositionsAreTheirExpansions :
    let s : State := { small.setCode 0 ⟨0xB, 4⟩ with bb := buffer [0xFF] 12 }
    s.Inv ∧ s.bb.cursor.toNat ≠ 2 ^ 32 - 1 ∧ s.bb.cursor.toNat / 8 < s.caps.bbMax ∧ BitsFit s (readCode s 0).len :=
  ⟨inv_of_checks (by decide +kernel), by decide, by decide, by unfold BitsFit; decide⟩

theorem witness_ExtensionsAreIndependent :
    let s : State := small.setCode 3 ⟨0x7FFFFFFF, 31⟩
    s.Inv ∧ (0 : CodeReg) ≠ 3 ∧ (1 : CodeReg) ≠ 3 ∧ (0 : CodeReg) ≠ 1 ∧ (readCode s 3).len < 32 :=
  ⟨inv_of_checks (by decide +kernel), by decide, by decide, by decide, by decide⟩

theorem witness_TrCountCountsTheInput : ({ small with ibuf := [0x61, 0x04, 0x61] } : State).Inv :=
  inv_of_checks (by decide +kernel)

/-- A sum of `2^32`, a sum of one less, and no counter at all. -/
theorem witness_TrBuildBuildsTheTree :
    let s : State := small.setFreq (writeFreq (writeFreq small.freq 0x41 0x80000000) 0x42 0x80000000)
    let t : State := small.setFreq (writeFreq (writeFreq small.freq 0x41 0x80000000) 0x42 0x7FFFFFFF)
    counterSum s.freq ≥ 2 ^ 32 ∧ (counterSum t.freq < 2 ^ 32 ∧ nonzeroCounts t.freq ≠ []) ∧
    counterSum small.freq < 2 ^ 32 ∧ nonzeroCounts small.freq = [] := by decide +kernel

/-- No counter; two counters, with the working list turned round. -/
theorem witness_TreeifyIsTheGreedyMerge :
    let f := writeFreq (writeFreq small.freq 0x41 1) 0x42 1
    nonzeroCounts small.freq = [] ∧ nonzeroCounts f ≠ [] ∧ (leafEntries f).reverse.Perm (leafEntries f) :=
  ⟨by decide +kernel, by decide +kernel, List.reverse_perm _⟩

/-- Equal counts, told apart by the sequence numbers. -/
theorem witness_InsertionIsReSorting :
    let e : SortEntry := ⟨2, 256, leaf 0x01⟩
    let l : List SortEntry := [⟨2, 0x41, leaf 0x41⟩, ⟨3, 0x42, leaf 0x42⟩]
    ((e :: l).map SortEntry.seq).Nodup ∧ l.Pairwise (fun a b => entryBefore a b = true) ∧
    (l ++ [e]).Perm (e :: l) :=
  ⟨by decide, by decide, by decide⟩

/-- No such leaf; a leaf at depth 33; a leaf at depth 32. -/
theorem witness_TrFindGivesThePath :
    searchStop pair 0x62 = none ∧
    (searchStop (chain 0x61 33) 0x61 = some (List.replicate 33 false, 0x61) ∧ (List.replicate 33 false).length > 32) ∧
    searchStop (chain 0x61 32) 0x61 = some (List.replicate 32 false, 0x61) ∧ (List.replicate 32 false).length ≤ 32 := by
  decide +kernel

theorem witness_TrEncWritesThePath :
    let s : State := { small with tree := pair, bb := buffer [0xFF] 15 }
    let t : State := { small with tree := pair, bb := buffer [0xFF] 16 }
    let u : State := { small with tree := chain 0x61 33 }
    (s.Inv ∧ searchStop s.tree 0x62 = none) ∧
    (u.Inv ∧ searchStop u.tree 0x61 = some (List.replicate 33 false, 0x61) ∧ (List.replicate 33 false).length > 32) ∧
    (t.Inv ∧ searchStop t.tree 0x61 = some ([true], 0x61) ∧ [true].length ≤ 32 ∧ ¬ BitsFit t [true].length) ∧
    searchStop s.tree 0x61 = some ([true], 0x61) ∧ BitsFit s [true].length :=
  ⟨⟨inv_of_checks (by decide +kernel), by decide +kernel⟩,
    ⟨inv_of_checks (by decide +kernel), by decide +kernel, by decide⟩,
    ⟨inv_of_checks (by decide +kernel), by decide +kernel, by decide, by unfold BitsFit; decide⟩,
    by decide +kernel, by unfold BitsFit; decide⟩

theorem witness_TrSerAppendsTheTree :
    let s : State := { small with tree := leaf 0x61, obuf := [1] }
    let t : State := { small with tree := leaf 0x61 }
    (s.Inv ∧ s.obuf.length + (2 * nodeCount s.tree + 1) > s.caps.obufMax) ∧
    t.Inv ∧ t.obuf.length + (2 * nodeCount t.tree + 1) ≤ t.caps.obufMax :=
  ⟨⟨inv_of_checks (by decide +kernel), by decide⟩, inv_of_checks (by decide +kernel), by decide⟩

theorem witness_SerializedTreesReadBack : noNullSymbol pair = true := by decide

/-- What the third clause of `TR.DES` asks for: no tree stands at the front. -/
theorem no_tree_of_deserialize {b : List Byte} (h : deserialize b = none) :
    ¬ ∃ (tree : HuffTree) (rest : List Byte), b = serialize tree ++ rest ∧ noNullSymbol tree = true := by
  rintro ⟨tree, rest, rfl, ht⟩
  have e : deserialize (serialize tree ++ rest) = some (zeroCounts tree, rest) :=
    deserializeFrom_serialize tree _ rest ht (by simp)
  rw [h] at e
  cases e

/-- The deepest and the largest tree the tightest store holds, one edge deeper, one node more, a truncated tree. -/
theorem witness_TrDesReadsTheTree :
    let at' (tree : HuffTree) : State := { tight with ibuf := serialize tree ++ [0xFF] }
    let more : HuffTree := .node 0x02 0 (full 0x61 8) .absent
    let cut : State := { tight with ibuf := [0x01, 0x04, 0, 0, 0x61, 0] }
    ((at' (chain 0x61 255)).Inv ∧ noNullSymbol (chain 0x61 255) = true ∧ levelCount (chain 0x61 255) = 255 + 1) ∧
    ((at' (full 0x61 8)).Inv ∧ noNullSymbol (full 0x61 8) = true ∧ nodeCount (full 0x61 8) = 511) ∧
    ((at' (chain 0x61 256)).Inv ∧ levelCount (chain 0x61 256) > 255 + 1) ∧
    ((at' more).Inv ∧ noNullSymbol more = true ∧ nodeCount more > 511) ∧
    cut.Inv ∧ ¬ ∃ (tree : HuffTree) (rest : List Byte), cut.ibuf.drop cut.ipos = serialize tree ++ rest ∧
      noNullSymbol tree = true :=
  ⟨⟨inv_of_checks (by decide +kernel), by decide +kernel, by decide +kernel⟩,
    ⟨inv_of_checks (by decide +kernel), by decide +kernel, by decide +kernel⟩,
    ⟨inv_of_checks (by decide +kernel), by decide +kernel⟩,
    ⟨inv_of_checks (by decide +kernel), by decide +kernel, by decide +kernel⟩,
    inv_of_checks (by decide +kernel), no_tree_of_deserialize (by decide +kernel)⟩

/-- Input that runs out inside a tree at the depth the store allows, and one node deeper. -/
theorem witness_TruncatedTreesReportTheFirstLimit :
    (¬ ∃ (tree : HuffTree) (rest : List Byte), List.replicate 256 0x01 = serialize tree ++ rest ∧
      noNullSymbol tree = true) ∧
    (¬ ∃ (tree : HuffTree) (rest : List Byte), List.replicate 257 0x01 = serialize tree ++ rest ∧
      noNullSymbol tree = true) ∧
    answer (exec .trDes { tight with ibuf := List.replicate 256 0x01 }) = some (3, 0) ∧
    answer (exec .trDes { tight with ibuf := List.replicate 257 0x01 }) = some (7, 0) :=
  ⟨no_tree_of_deserialize (by decide +kernel), no_tree_of_deserialize (by decide +kernel), by decide +kernel,
    by decide +kernel⟩

theorem witness_DecStartStandsAtTheRoot :
    isAbsent small.tree = true ∧ ({ small with tree := leaf 0x04 } : State).tree = .node 0x04 0 .absent .absent ∧
    (({ small with tree := leaf 0x61 } : State).tree = .node 0x61 0 .absent .absent ∧ (0x61 : Byte) ≠ Config.eosByte) ∧
    isAbsent ({ small with tree := pair } : State).tree = false ∧ isLeaf ({ small with tree := pair } : State).tree = false := by
  decide

/-- Not in `D_RUN`; the last position; no bit left; an absent child, the sentinel, a full and a not full output, an
internal child. -/
theorem witness_DecStepWalksOneEdge :
    let s : State := { small with tree := .node 0x01 0 pair (leaf 0x62), dstate := .run, bb := buffer [0x02] 0 }
    let t : State := { s with wpath := [false], obuf := [1, 2, 3] }
    small.dstate ≠ .run ∧ ({ s with bb := buffer [0x02] 0xFFFFFFFF } : State).bb.cursor.toNat = 2 ^ 32 - 1 ∧
    (s.dstate = .run ∧ s.bb.cursor.toNat ≠ 2 ^ 32 - 1) ∧
    bitRead (buffer [0x02] 8) (buffer [0x02] 8).cursor.toNat = none ∧
    (bitRead s.bb s.bb.cursor.toNat = some false ∧ isAbsent (nodeAt s.tree (s.wpath ++ [false])) = false ∧
      isLeaf (nodeAt s.tree (s.wpath ++ [false])) = false) ∧
    (bitRead t.bb t.bb.cursor.toNat = some false ∧
      nodeAt t.tree (t.wpath ++ [false]) = .node 0x04 0 .absent .absent) ∧
    (nodeAt t.tree (t.wpath ++ [true]) = .node 0x61 0 .absent .absent ∧ (0x61 : Byte) ≠ Config.eosByte ∧
      bitRead (buffer [0x02] 1) (buffer [0x02] 1).cursor.toNat = some true ∧
      t.obuf.length = t.caps.obufMax ∧ s.obuf.length ≠ s.caps.obufMax) ∧
    isAbsent (nodeAt (.node 0x01 0 .absent (leaf 0x04)) ([] ++ [false])) = true := by decide

theorem witness_WalkFollowsItsStateDiagram :
    let s : State := { small with tree := pair, dstate := .run, bb := buffer [0x0F] 0 }
    s.Inv ∧ (∃ t, exec .decStep s = .next t ∧ t.status = .ok) ∧ small.Inv ∧
    (∃ t, exec .codecDecode small = .next t ∧ t.status ≠ .ok) ∧
    (∃ t, exec .codecDecode { small with ibuf := [0x04, 0, 0] } = .next t ∧ t.status = .ok) ∧
    ∃ t, exec .trBuild small = .next t ∧ t.status = .ok :=
  ⟨inv_of_checks (by decide +kernel), next_of_after (by decide +kernel), inv_of_checks (by decide +kernel),
    next_of_after (by decide +kernel), next_of_after (by decide +kernel), next_of_after (by decide +kernel)⟩

theorem witness_OnlyTheListedCommandsWrite :
    (∃ t, exec .bbMore small = .next t) ∧ (∃ t, exec (.ibPut 0x61) small = .next t ∧ t.ibuf ≠ small.ibuf) ∧
    (mnemonicOf .bbMore ∉ writersOfCodes ∧ mnemonicOf .bbMore ∉ writersOfFreq ∧ mnemonicOf .bbMore ∉ writersOfTree ∧
      mnemonicOf .bbMore ∉ writersOfWalk ∧ mnemonicOf .bbMore ∉ writersOfIbuf ∧ mnemonicOf .bbMore ∉ writersOfIpos ∧
      mnemonicOf .bbMore ∉ writersOfObuf ∧ mnemonicOf .bbMore ∉ writersOfBb) :=
  ⟨⟨_, rfl⟩, next_of_after (by decide +kernel), by decide +kernel⟩

theorem witness_FailedCommandsChangeNothing :
    (∃ t, exec (.obGet 0) small = .next t ∧ t.status ≠ .ok) ∧ mnemonicOf (.obGet 0) ∉ failsLate ∧
    ∃ t, exec .decStep small = .next t ∧ t.status = .illegalCommand :=
  ⟨next_of_after (by decide +kernel), by decide +kernel, next_of_after (by decide +kernel)⟩

theorem witness_FailedCodecsLeaveNoOutput :
    mnemonicOf .codecEncode ∈ ["ENCODE", "DECODE", "DEC.START", "DEC.STEP"] ∧
    (∃ t, exec .codecEncode { small with ibuf := [0x61], obuf := [1] } = .next t ∧ t.status ≠ .ok ∧
      t.status ≠ .illegalCommand) ∧
    ∃ t, exec .decStep { small with tree := pair, dstate := .run, obuf := [0x61] } = .next t ∧ t.status ≠ .ok ∧
      t.status ≠ .illegalCommand :=
  ⟨by decide +kernel, next_of_after (by decide +kernel), next_of_after (by decide +kernel)⟩

/-- 44_codec.md R233: "aaaa" in the smallest buffers that hold its stream. -/
theorem witness_EncodeWritesTheWireFormat :
    let s : State := { State.reset with ibuf := [0x61, 0x61, 0x61, 0x61], caps := ⟨1, 8, 8, 511, 255⟩ }
    let tree : HuffTree := .node 0x01 6 (.node 0x04 2 .absent .absent) (.node 0x61 4 .absent .absent)
    let bits : List Bool := [true, true, true, true, false]
    s.Inv ∧ tree = treeify (countBytes (s.ibuf ++ [Config.eosByte])) ∧ levelCount tree ≤ 33 ∧
    bits = textBits tree (s.ibuf ++ [Config.eosByte]) ∧ bits.length ≤ 2 ^ 32 - 1 ∧
    (bits.length + 7) / 8 ≤ s.caps.bbMax ∧ (serialize tree).length + (bits.length + 7) / 8 ≤ s.caps.obufMax :=
  ⟨inv_of_checks (by decide +kernel), by decide +kernel, by decide, by decide +kernel, by decide, by decide, by decide⟩

theorem witness_EncodeCountsTheSentinelTwice : ({ small with ibuf := [0x61, 0x04, 0x61] } : State).Inv :=
  inv_of_checks (by decide +kernel)

theorem witness_SentinelTextsEncodeToTheLoneLeaf :
    let s : State := { small with ibuf := [0x04, 0x04, 0x04] }
    (s.Inv ∧ (∀ x ∈ s.ibuf, x = Config.eosByte) ∧ 3 ≤ s.caps.obufMax) ∧
    small.Inv ∧ ∀ x ∈ small.ibuf, x = Config.eosByte :=
  ⟨⟨inv_of_checks (by decide +kernel), by decide, by decide⟩, inv_of_checks (by decide +kernel), by decide⟩

theorem witness_DecodeIsItsExpansion :
    let s : State := { State.reset with ibuf := [0x01, 0x04, 0, 0, 0x61, 0, 0, 0x0F] }
    (s.Inv ∧ ∃ t, exec .codecDecode s = .next t ∧ t.status = .ok) ∧
    small.Inv ∧ ∃ t, exec .codecDecode small = .next t ∧ t.status ≠ .ok :=
  ⟨⟨inv_of_checks (by decide +kernel), next_of_after (by decide +kernel)⟩, inv_of_checks (by decide +kernel),
    next_of_after (by decide +kernel)⟩

/-- V40: four `a`, the sentinel, and a further byte, in the smallest buffers that hold them. -/
theorem witness_DecodeInvertsTheWireFormat :
    let s : State := { State.reset with
      ibuf := [0x01, 0x04, 0, 0, 0x61, 0, 0, 0x0F, 0xFF], caps := ⟨2, 9, 4, 511, 255⟩ }
    let walk : List (List Bool × Byte) := List.replicate 4 ([true], 0x61)
    let bits : List Bool := [true, true, true, true, false]
    s.Inv ∧ s.ibuf = serialize pair ++ [0x0F, 0xFF] ∧ noNullSymbol pair = true ∧ fitsStore s.caps pair = true ∧
    [0x0F, 0xFF].length ≤ s.caps.bbMax ∧ walk.length ≤ s.caps.obufMax ∧ isAbsent pair = false ∧
    (∀ p ∈ walk, p ∈ leafPaths pair ∧ p.1 ≠ [] ∧ p.2 ≠ Config.eosByte) ∧
    ([false], Config.eosByte) ∈ leafPaths pair ∧ bits = walk.flatMap Prod.fst ++ [false] ∧
    bits.length ≤ 8 * [(0x0F : Byte), 0xFF].length ∧ bits.length ≤ 2 ^ 32 - 1 ∧
    ∀ k, k < bits.length → payloadBit [0x0F, 0xFF] k = bits.getD k false :=
  ⟨inv_of_checks (by decide +kernel), by decide, by decide, by decide, by decide, by decide, by decide, by decide,
    by decide, by decide, by decide, by decide, by decide⟩

/-- The stream of the empty text with as many further bytes as the buffer holds, a lone leaf of another symbol, an
absent tree, no stream. -/
theorem witness_DegenerateStreamsDecode :
    let s : State := { tight with ibuf := [0x04, 0, 0, 1, 2] }
    let t : State := { tight with ibuf := [0x61, 0, 0, 1, 2] }
    let u : State := { tight with ibuf := [0, 1, 2] }
    (s.Inv ∧ s.ibuf = Config.eosByte :: Config.nullByte :: Config.nullByte :: [1, 2]) ∧
    (t.Inv ∧ t.ibuf = 0x61 :: Config.nullByte :: Config.nullByte :: [1, 2]) ∧
    (u.Inv ∧ u.ibuf = Config.nullByte :: [1, 2]) ∧ [(1 : Byte), 2].length ≤ tight.caps.bbMax ∧
    tight.Inv ∧ tight.ibuf = [] :=
  ⟨⟨inv_of_checks (by decide +kernel), rfl⟩, ⟨inv_of_checks (by decide +kernel), rfl⟩,
    ⟨inv_of_checks (by decide +kernel), rfl⟩, by decide, inv_of_checks (by decide +kernel), rfl⟩

/-- "aaaa" in buffers its stream just fits. -/
theorem witness_DecodeOfEncodeIsTheText :
    let s : State := { State.reset with ibuf := [0x61, 0x61, 0x61, 0x61], caps := ⟨1, 8, 8, 511, 255⟩ }
    s.Inv ∧ Config.eosByte ∉ s.ibuf ∧ Config.nullByte ∉ s.ibuf ∧
    ∃ t, exec .codecEncode s = .next t ∧ t.status = .ok ∧ t.obuf.length ≤ s.caps.ibufMax ∧
      s.ibuf.length ≤ s.caps.obufMax :=
  ⟨inv_of_checks (by decide +kernel), by decide, by decide, next_of_after (by decide +kernel)⟩

end Sys2Proof.Tests
end

section
/-! SUPPORT. The words of the host (30_encoding.md R103, R106): which words decode to a command, that the others are
illegal in one of the three ways, and the commands answered like an illegal word (R107). -/

namespace Sys2Proof.Machine

/-! ### What the decoder makes of a word -/

/-- The command an opcode stands for has that opcode (30_encoding.md R103). -/
theorem opcodeOf_commandOf {f : Fields} {i : Instr} (h : commandOf f = some i) : opcodeOf i = f.op := by
  unfold commandOf at h
  split at h <;> cases h
  all_goals exact BitVec.eq_of_toNat_eq (Eq.symm ‹f.op.toNat = _›)

/-- The opcode of a command is in the map, and it alone fixes the format (30_encoding.md R103). -/
theorem commandOf_of_opcodeOf {f : Fields} {i : Instr} (h : opcodeOf i = f.op) :
    ∃ j, commandOf f = some j ∧ formatOf j = formatOf i := by
  obtain ⟨imm, z3, sym, z2, rs, z1, rd, val, op⟩ := f
  cases h
  cases i <;> exact ⟨_, rfl, rfl⟩

/-- A word is a command when its opcode is in the map, its reserved bits are zero and every operand field that the
format does not use is zero (30_encoding.md R106). -/
theorem decode_eq_command_iff {w : CommandWord} {i : Instr} : decode w = .command i ↔
    commandOf (splitWord w) = some i ∧ reservedZero (splitWord w) = true ∧
      unusedZero (formatOf i) (splitWord w) = true := by
  cases hc : commandOf (splitWord w) with
  | none => simp [decode, hc]
  | some j =>
    cases hr : reservedZero (splitWord w) with
    | false => simp [decode, hc, hr]
    | true =>
      cases hu : unusedZero (formatOf j) (splitWord w) with
      | false => simpa [decode, hc, hr, hu] using fun h : j = i => h ▸ hu
      | true => simpa [decode, hc, hr, hu] using fun h : j = i => h ▸ hu

/-- Every word is a command or illegal. -/
theorem decode_illegal_of_ne_command {w : CommandWord} (h : ∀ i, decode w ≠ .command i) :
    ∃ why, decode w = .illegal why := by
  cases hd : decode w with
  | command i => exact absurd hd (h i)
  | illegal why => exact ⟨why, rfl⟩

/-! ### The three ways in which a word is illegal -/

theorem reservedZero_eq_false_iff (f : Fields) :
    reservedZero f = false ↔ f.z1 ≠ 0 ∨ f.z2 ≠ 0 ∨ f.z3 ≠ 0 := by
  simp only [reservedZero, Bool.and_eq_false_iff, beq_eq_false_iff_ne, or_assoc]
  rfl

theorem unusedZero_eq_false_iff (k : Format) (f : Fields) : unusedZero k f = false ↔
    (k.usesImm = false ∧ f.imm ≠ 0) ∨ (k.usesSym = false ∧ f.sym ≠ 0) ∨ (k.usesRs = false ∧ f.rs ≠ 0) ∨
      (k.usesRd = false ∧ f.rd ≠ 0) ∨ (k.usesVal = false ∧ f.val ≠ 0) := by
  simp only [unusedZero, Bool.and_eq_false_iff, Bool.or_eq_false_iff, beq_eq_false_iff_ne, or_assoc]
  rfl

/-- The three ways, on the fields of the word. -/
theorem illegalBits_iff_fields (w : CommandWord) : IllegalBits w ↔
    (∀ i, opcodeOf i ≠ (splitWord w).op) ∨ reservedZero (splitWord w) = false ∨
      ∃ i, opcodeOf i = (splitWord w).op ∧ unusedZero (formatOf i) (splitWord w) = false := by
  simp only [reservedZero_eq_false_iff, unusedZero_eq_false_iff]
  rfl

/-- A word is illegal in one of the three ways exactly when the decoder makes no command of it. -/
theorem illegalBits_iff (w : CommandWord) : IllegalBits w ↔ ∀ i, decode w ≠ .command i := by
  simp only [illegalBits_iff_fields, ne_eq, decode_eq_command_iff]
  constructor
  · rintro (hop | hres | ⟨j, hj, hun⟩) i ⟨hc, hr, hu⟩
    · exact hop i (opcodeOf_commandOf hc)
    · exact absurd hr (by simp [hres])
    · obtain ⟨k, hk, hfmt⟩ := commandOf_of_opcodeOf hj
      obtain rfl : k = i := Option.some.inj (hk.symm.trans hc)
      rw [hfmt, hun] at hu
      cases hu
  · intro h
    by_contra! hn
    obtain ⟨⟨i, hi⟩, hres, hun⟩ := hn
    obtain ⟨j, hj, hfmt⟩ := commandOf_of_opcodeOf hi
    exact h j ⟨hj, by simpa using hres, by simpa using hun j (opcodeOf_commandOf hj)⟩

/-! ### The step on a word -/

/-- A step with a legal word waiting runs its command. -/
theorem step_of_command {s : State} {w : CommandWord} {rest : List CommandWord} {i : Instr}
    (hs : s.commands = w :: rest) (hd : decode w = .command i) : step s = exec i (s.setCommands rest) := by
  simp [step, takeCommand, hs, hd]

/-- A step with an illegal word waiting answers it. -/
theorem step_of_illegal {s : State} {w : CommandWord} {rest : List CommandWord} {why : IllegalWord}
    (hs : s.commands = w :: rest) (hd : decode w = .illegal why) :
    step s = .next ((s.setCommands rest).answer ⟨.illegalCommand, 0⟩) := by
  simp [step, takeCommand, hs, hd, answerIllegal]

/-- Settles O4: a word is illegal in one of the three ways exactly when the decoder refuses it, and a step answers a
refused word and runs any other. -/
theorem illegalWordsAreAnswered : Obligations.IllegalWordsAreAnswered := by
  intro s w rest hs
  rw [illegalBits_iff]
  constructor
  · intro hw
    obtain ⟨why, hd⟩ := decode_illegal_of_ne_command hw
    exact ⟨_, step_of_illegal hs hd, responded_answer s _ rfl _ _, keeps_answer _ _⟩
  · intro hw
    obtain ⟨i, hd⟩ := not_forall_not.mp hw
    exact ⟨i, opcodeOf_commandOf (decode_eq_command_iff.mp hd).1, hd, step_of_command hs hd⟩

/-! ### Commands answered like an illegal word -/

/-- A number outside the register map names no register (10_state.md R38). -/
theorem readCsr_eq_none {num : Byte} (h : num ∉ csrNumbers) (s : State) : readCsr s num = none := by
  have hnum : BitVec.ofNat 8 num.toNat = num := by simp
  unfold readCsr
  split
  case h_25 => rfl
  all_goals
    refine absurd ?_ h
    rw [← hnum, ‹num.toNat = _›]
    decide

/-- Raising `IllegalCommand` is being answered like an illegal word: `STATUS` and the response, and no more. -/
theorem complete_raise_illegalCommand (s : State) : ∃ t, complete (raise .illegalCommand s) = .next t ∧
    Responded s t .illegalCommand 0 ∧ KeepsAllBut [] s t :=
  ⟨_, complete_raise _ _, responded_answer s s rfl _ _, keeps_answer _ _⟩

theorem exec_csrr_of_none {s : State} {num : Byte} (h : readCsr s num = none) :
    exec (.csrr num) s = complete (raise .illegalCommand s) := by
  simp [exec, execCsrr, h]

theorem exec_decStep_of_ne_run {s : State} (h : s.dstate ≠ .run) :
    exec .decStep s = complete (raise .illegalCommand s) := by
  simp [exec, execDecStep, doDecStep, h]

/-- Settles O14: both commands raise `IllegalCommand` before they change anything. -/
theorem sequencingErrorsAreIllegalCommands : Obligations.SequencingErrorsAreIllegalCommands := by
  intro s
  constructor
  · intro num hnum
    refine ⟨by simpa [Instr.wellFormed] using hnum, ?_⟩
    rw [exec_csrr_of_none (readCsr_eq_none hnum s)]
    exact complete_raise_illegalCommand s
  · intro hrun
    rw [exec_decStep_of_ne_run hrun]
    exact complete_raise_illegalCommand s

end Sys2Proof.Machine
end

section
/-! SUPPORT. The bit buffer commands (40_bitbuffer.md): each as one equation per outcome, and the statements about
them. -/

namespace Sys2Proof.Machine

/-! ### How a bit buffer command ends -/

/-- A refusal changes nothing but `STATUS` and the responses (60_exceptions.md R300). -/
theorem complete_raise_unchanged (e : Status) (s : State) :
    ∃ t, complete (raise e s) = .next t ∧ Responded s t e 0 ∧ KeepsAllBut [] s t :=
  ⟨_, complete_raise _ _, responded_answer s s rfl _ _, keeps_answer _ _⟩

/-- A length within `BB_MAX` fits the 32 bits of the response data (00_scope.md R8: `BB_MAX` is at most `2^29`). -/
theorem State.Inv.lengthWord_toNat_of_le_bbMax {s : State} (h : s.Inv) {n : Nat} (hn : n ≤ s.caps.bbMax) :
    (lengthWord n).toNat = n := by
  have hcap := h.caps.bbMax
  exact lengthWord_toNat (by omega)

/-! ### Growth -/

/-- A byte that exists needs no growth (40_bitbuffer.md R132). -/
theorem grow_of_lt {a : Nat} {b : BitBuffer} (bbMax : Nat) (h : a < b.size) : grow bbMax a b = b :=
  if_neg (by omega)

/-- The bytes after growth: the old ones, then zeros up to the new size. -/
theorem bufferBytes_grow_getElem? {bbMax : Nat} {b : BitBuffer} (hb : b.size ≤ bbMax) (a k : Nat) :
    (bufferBytes (grow bbMax a b))[k]? =
      if k < b.size then (bufferBytes b)[k]? else if k < (grow bbMax a b).size then some 0 else none := by
  by_cases ha : a < b.size
  · rw [grow_of_lt bbMax ha]
    split
    · rfl
    · next hk => rw [bufferBytes_getElem?, if_neg hk]
  · have hle := le_grow_size a hb
    simp only [bufferBytes_getElem?, readByte_grow, ha, or_false]
    by_cases hk : k < b.size
    · simp [hk, show k < (grow bbMax a b).size by omega]
    · simp [hk]

/-- Settles O20: the loop of growth gives the first size that fits, and growth rewrites no byte that exists. -/
theorem growthReachesTheByte : Obligations.GrowthReachesTheByte := by
  refine ⟨?_, by decide⟩
  intro bbMax a b hb ha
  exact ⟨grownTo_grow ha hb.size_le, grow_size_le a hb.size_le, le_grow_size a hb.size_le, grow_of_lt bbMax,
    bufferBytes_grow_getElem? hb.size_le a, grow_cursor _ _ _, grow_hwmv _ _ _, grow_hwm _ _ _⟩

/-! ### BB.NEW -/

theorem exec_bbNew (s : State) : exec .bbNew s = .next ((s.setBb BitBuffer.fresh).answer ⟨.ok, 0⟩) := rfl

/-- Settles O19: the buffer left is the fresh one, whatever it was. -/
theorem bbNewMakesAnEmptyBuffer : Obligations.BbNewMakesAnEmptyBuffer :=
  ⟨⟨rfl, rfl⟩, by decide, fun s => ⟨_, exec_bbNew s, responded_answer s _ rfl _ _, keeps_setBb _ _ _,
    rfl, rfl, rfl, rfl, rfl⟩⟩

/-! ### BB.WR and BB.WRN -/

theorem exec_bbWr_refused {s : State} {pos : Word} (h : pos.toNat / 8 ≥ s.caps.bbMax) (v : Bool) :
    exec (.bbWr v pos) s = complete (raise .capacityExceeded s) := by
  simp only [exec, execBbWr, doBbWr, if_pos h]

theorem exec_bbWr {s : State} {pos : Word} (h : pos.toNat / 8 < s.caps.bbMax) (v : Bool) :
    exec (.bbWr v pos) s =
      .next ((s.setBb (bitWrite s.caps.bbMax s.bb pos.toNat v)).answer ⟨.ok, 0⟩) := by
  simp only [exec, execBbWr, doBbWr, if_neg (Nat.not_le.mpr h), complete_respond]

theorem exec_bbWrn_refused {s : State}
    (h : s.bb.cursor.toNat = Config.lastPosition ∨ s.bb.cursor.toNat / 8 ≥ s.caps.bbMax) (v : Bool) :
    exec (.bbWrn v) s = complete (raise .capacityExceeded s) := by
  simp only [exec, execBbWrn, doBbWrn]
  by_cases hlast : s.bb.cursor.toNat = Config.lastPosition
  · rw [if_pos hlast]
  · rw [if_neg hlast, if_pos (h.resolve_left hlast)]

theorem exec_bbWrn {s : State} (hlast : s.bb.cursor.toNat ≠ Config.lastPosition)
    (hcap : s.bb.cursor.toNat / 8 < s.caps.bbMax) (v : Bool) :
    exec (.bbWrn v) s = .next ((s.setBb (bitWriteNext s.caps.bbMax s.bb v)).answer ⟨.ok, 0⟩) := by
  simp only [exec, execBbWrn, doBbWrn, if_neg hlast, if_neg (Nat.not_le.mpr hcap), complete_respond]

/-- What is written depends on bytes, size and mark alone, so the moved cursor changes none of it. -/
theorem bitWritten_bitWriteNext {bbMax : Nat} {b : BitBuffer} (h : BufferInv bbMax b)
    (hp : b.cursor.toNat / 8 < bbMax) (v : Bool) :
    BitWritten bbMax b.cursor.toNat v b (bitWriteNext bbMax b v) := by
  obtain ⟨grown, written, otherBits, newBits, otherBytes, mark⟩ := bitWritten_bitWrite h hp v
  exact ⟨grown, written, otherBits, newBits, otherBytes, mark⟩

/-- Settles O21: within the capacity the buffer is the one `BitWrite` makes. -/
theorem bbWrWritesTheBit : Obligations.BbWrWritesTheBit := by
  intro s v pos hs
  refine ⟨⟨rfl, rfl⟩, ?_, ?_⟩
  · intro hcap
    rw [exec_bbWr_refused hcap]
    exact complete_raise_unchanged _ s
  · intro hcap
    exact ⟨_, exec_bbWr hcap v, responded_answer s _ rfl _ _, keeps_setBb _ _ _,
      bitWritten_bitWrite hs.buffer hcap v, bitWrite_cursor _ _ _ _⟩

/-- Settles O22: away from the last position and within the capacity it is a write at the cursor, which moves on. -/
theorem bbWrnWritesAtTheCursor : Obligations.BbWrnWritesAtTheCursor := by
  intro s v hs
  refine ⟨⟨rfl, rfl⟩, ?_, ?_⟩
  · intro hno
    rw [exec_bbWrn_refused hno]
    exact complete_raise_unchanged _ s
  · intro hlast hcap
    exact ⟨_, exec_bbWrn hlast hcap v, responded_answer s _ rfl _ _, keeps_setBb _ _ _,
      bitWritten_bitWriteNext hs.buffer hcap v, bitWriteNext_cursor hlast v⟩

/-! ### BB.RD and BB.RDN -/

/-- What a read at a position is answered with (40_bitbuffer.md R135, R136). -/
def readResponse (b : BitBuffer) (p : Nat) : Response :=
  match bitRead b p with
  | none => ⟨.indexOutOfRange, 2⟩
  | some v => ⟨.ok, bitWord v⟩

theorem exec_bbRd (s : State) (pos : Word) :
    exec (.bbRd pos) s = .next (s.answer (readResponse s.bb pos.toNat)) := by
  simp only [exec, execBbRd, doBbRd, readResponse]
  cases bitRead s.bb pos.toNat with
  | none => rfl
  | some v => rfl

theorem exec_bbRdn_refused {s : State} (h : s.bb.cursor.toNat = Config.lastPosition) :
    exec .bbRdn s = complete (raise .capacityExceeded s) := by
  simp only [exec, execBbRdn, doBbRdn, if_pos h]

theorem exec_bbRdn {s : State} (h : s.bb.cursor.toNat ≠ Config.lastPosition) :
    exec .bbRdn s = .next ((s.setBb (advanceCursor s.bb)).answer (readResponse s.bb s.bb.cursor.toNat)) := by
  simp only [exec, execBbRdn, doBbRdn, if_neg h, readResponse]
  cases bitRead s.bb s.bb.cursor.toNat with
  | none => rfl
  | some v => rfl

theorem readResponse_of_size_le {b : BitBuffer} {p : Nat} (h : p / 8 ≥ b.size) :
    readResponse b p = ⟨.indexOutOfRange, 2⟩ := by
  have hread : bitRead b p = none := if_pos h
  simp only [readResponse, hread]

theorem readResponse_of_byte {b : BitBuffer} {p : Nat} {x : Byte} (h : (bufferBytes b)[p / 8]? = some x) :
    readResponse b p = ⟨.ok, if x.getLsbD (p % 8) then 1 else 0⟩ := by
  simp only [readResponse, bitRead_eq_bytes, h, Option.map_some, bitWord]

theorem readResponse_status_of_lt {b : BitBuffer} {p : Nat} (h : p / 8 < b.size) :
    (readResponse b p).status = .ok := by
  have hbyte : (bufferBytes b)[p / 8]? = some (readByte b.mem (p / 8)) := by rw [bufferBytes_getElem?, if_pos h]
  rw [readResponse_of_byte hbyte]

/-- The answer of a read, clause by clause, from any state that has given no response yet for it. -/
theorem responded_readResponse {s t : State} (ht : t.responses = s.responses) (b : BitBuffer) (p : Nat) :
    (p / 8 ≥ b.size → Responded s (t.answer (readResponse b p)) .indexOutOfRange 2) ∧
    (∀ x, (bufferBytes b)[p / 8]? = some x →
      Responded s (t.answer (readResponse b p)) .ok (if x.getLsbD (p % 8) then 1 else 0)) ∧
    (p / 8 < b.size → (t.answer (readResponse b p)).status = .ok) := by
  refine ⟨?_, ?_, readResponse_status_of_lt⟩
  · intro hout
    rw [readResponse_of_size_le hout]
    exact responded_answer s t ht _ _
  · intro x hx
    rw [readResponse_of_byte hx]
    exact responded_answer s t ht _ _

/-- Settles O23: only the answer depends on the position; the state is left alone. -/
theorem bbRdReadsTheBit : Obligations.BbRdReadsTheBit := fun s pos =>
  ⟨⟨rfl, rfl⟩, _, exec_bbRd s pos, keeps_answer _ _, responded_readResponse rfl s.bb pos.toNat⟩

/-- Settles O24: away from the last position the read at the old cursor is answered as by `BB.RD`, and the cursor moves
on whatever the answer. -/
theorem bbRdnReadsAtTheCursor : Obligations.BbRdnReadsAtTheCursor := by
  refine ⟨⟨rfl, rfl⟩, by decide, fun s => ⟨?_, ?_⟩⟩
  · intro hlast
    rw [exec_bbRdn_refused hlast]
    exact complete_raise_unchanged _ s
  · intro hlast
    exact ⟨_, exec_bbRdn hlast, keeps_setBb _ _ _, cursor_add_one hlast, rfl, rfl, rfl, rfl,
      responded_readResponse rfl s.bb s.bb.cursor.toNat⟩

/-! ### BB.FIN -/

theorem exec_bbFin (s : State) :
    exec .bbFin s = .next ((s.setBb (finalBuffer s.bb)).answer ⟨.ok, lengthWord (finalSize s.bb)⟩) := rfl

/-- The bytes `BB.FIN` keeps are the first ones (40_bitbuffer.md R139). -/
theorem bufferBytes_finalBuffer {b : BitBuffer} (h : finalSize b ≤ b.size) :
    bufferBytes (finalBuffer b) = (bufferBytes b).take (finalSize b) := by
  apply List.ext_getElem?
  intro k
  have hsize : (finalBuffer b).size = finalSize b := rfl
  rw [List.getElem?_take, bufferBytes_getElem?, bufferBytes_getElem?, readByte_final, hsize]
  by_cases hk : k < finalSize b
  · simp only [if_pos hk, if_pos (Nat.lt_of_lt_of_le hk h)]
  · simp only [if_neg hk]

theorem truncateBytes_truncateBytes (m : Memory) (n : Nat) :
    truncateBytes (truncateBytes m n) n = truncateBytes m n := by
  simp only [truncateBytes, List.filter_filter, Bool.and_self]

/-- Trimming a trimmed buffer changes nothing: `BB.FIN` "is idempotent" (40_bitbuffer.md R139). -/
theorem finalBuffer_finalBuffer (b : BitBuffer) : finalBuffer (finalBuffer b) = finalBuffer b :=
  congrArg (fun m => { finalBuffer b with mem := m }) (truncateBytes_truncateBytes b.mem (finalSize b))

/-- Settles O26: the size left is at most the old one because the mark lies below it (10_state.md R28 (a)). -/
theorem bbFinTrimsTheBuffer : Obligations.BbFinTrimsTheBuffer := by
  refine ⟨⟨rfl, rfl⟩, by decide, fun s n hs hn => ?_⟩
  obtain rfl : n = finalSize s.bb := hn
  have hle := hs.buffer.finalSize_le
  exact ⟨_, _, exec_bbFin s, responded_answer s _ rfl _ _,
    hs.lengthWord_toNat_of_le_bbMax (hle.trans hs.buffer.size_le), keeps_setBb _ _ _, rfl, hle,
    bufferBytes_finalBuffer hle, rfl, rfl, rfl,
    _, exec_bbFin _, finalBuffer_finalBuffer s.bb, responded_answer _ _ rfl _ _⟩

/-! ### BB.LOAD -/

theorem exec_bbLoad_refused {s : State} (h : (s.ibuf.drop s.ipos).length > s.caps.bbMax) :
    exec .bbLoad s = complete (raise .capacityExceeded s) := by
  simp only [exec, execBbLoad, doBbLoad, if_pos h]

theorem exec_bbLoad {s : State} (h : (s.ibuf.drop s.ipos).length ≤ s.caps.bbMax) :
    exec .bbLoad s = .next ((s.setBb (loadedBuffer (s.ibuf.drop s.ipos))).answer
      ⟨.ok, lengthWord (s.ibuf.drop s.ipos).length⟩) := by
  simp only [exec, execBbLoad, doBbLoad, if_neg (Nat.not_lt.mpr h), complete_respond]

/-- Settles O27: the buffer left is the loaded one of the unread input, whose length is `ILEN - IPOS`. -/
theorem bbLoadTakesTheUnreadInput : Obligations.BbLoadTakesTheUnreadInput := by
  refine ⟨⟨rfl, rfl⟩, by decide, fun s n hs hn => ?_⟩
  obtain rfl : n = (s.ibuf.drop s.ipos).length := by rw [hn, List.length_drop]
  constructor
  · intro hcap
    rw [exec_bbLoad_refused hcap]
    exact complete_raise_unchanged _ s
  · intro hcap
    exact ⟨_, _, exec_bbLoad hcap, responded_answer s _ rfl _ _, hs.lengthWord_toNat_of_le_bbMax hcap,
      keeps_setBb _ _ _, rfl, bufferBytes_loaded _, rfl, rfl, rfl⟩

/-! ### BB.OUT -/

theorem exec_bbOut_refused {s : State} (h : s.obuf.length + s.bb.size > s.caps.obufMax) :
    exec .bbOut s = complete (raise .capacityExceeded s) := by
  simp only [exec, execBbOut, doBbOut, if_pos h]

theorem exec_bbOut {s : State} (h : s.obuf.length + s.bb.size ≤ s.caps.obufMax) :
    exec .bbOut s = .next ((s.setObuf (s.obuf ++ bufferBytes s.bb)).answer ⟨.ok, lengthWord s.bb.size⟩) := by
  simp only [exec, execBbOut, doBbOut, if_neg (Nat.not_lt.mpr h), complete_respond]

/-- Settles O28: the output left is the old one followed by the bytes of the buffer. -/
theorem bbOutAppendsTheBytes : Obligations.BbOutAppendsTheBytes := by
  refine ⟨⟨rfl, rfl⟩, by decide, fun s hs => ⟨?_, ?_⟩⟩
  · intro hcap
    rw [exec_bbOut_refused hcap]
    exact complete_raise_unchanged _ s
  · intro hcap
    refine ⟨_, _, exec_bbOut hcap, responded_answer s _ rfl _ _,
      hs.lengthWord_toNat_of_le_bbMax hs.buffer.size_le, keeps_setObuf _ _ _, ?_, ?_, ?_⟩
    · simp [bufferBytes_length]
    · intro k hk
      exact List.getElem?_append_left hk
    · intro k _
      simp only [answer_obuf, setObuf_obuf, List.getElem?_append_right (Nat.le_add_right _ _),
        Nat.add_sub_cancel_left]

end Sys2Proof.Machine
end

section
/-! SUPPORT. The code register commands (41_vlc.md): each as one equation per outcome, and the statements about
them. -/

namespace Sys2Proof.Machine

/-! ### A code register after a write, and its length -/

/-- The register written holds the new code (10_state.md R24). -/
@[simp] theorem readCode_setCode_same (s : State) (d : CodeReg) (c : Code) : readCode (s.setCode d c) d = c := by
  rw [readCode_setCode, if_pos rfl]

/-- "writing one register never changes another" (10_state.md R25). -/
theorem readCode_setCode_of_ne (s : State) {d q : CodeReg} (h : q ≠ d) (c : Code) :
    readCode (s.setCode d c) q = readCode s q := by
  rw [readCode_setCode, if_neg h]

/-- A code register holds at most `CODE_MAX` bits (10_state.md R25). -/
theorem State.Inv.readCode_len_le {s : State} (h : s.Inv) (r : CodeReg) : (readCode s r).len ≤ 32 :=
  ((codeWf_iff _).mp (h.codes r)).1

theorem State.Inv.readCode_len_lt {s : State} (h : s.Inv) {r : CodeReg} (hr : (readCode s r).len ≠ 32) :
    (readCode s r).len < 32 :=
  Nat.lt_of_le_of_ne (h.readCode_len_le r) hr

/-! ### VC.WR -/

theorem exec_vcWr_refused {s : State} {r : CodeReg} (h : ¬ BitsFit s (readCode s r).len) :
    exec (.vcWr r) s = complete (raise .capacityExceeded s) := by
  obtain ⟨_, hwr⟩ | ⟨hfit, _⟩ := doWriteCode_cases (readCode s r) s
  · exact congrArg complete hwr
  · exact absurd hfit h

theorem exec_vcWr {s : State} {r : CodeReg} (h : BitsFit s (readCode s r).len) :
    exec (.vcWr r) s = .next ((s.setBb (bitWriteAll s.caps.bbMax s.bb (codeBits (readCode s r)))).answer
      ⟨.ok, lengthWord (readCode s r).len⟩) := by
  obtain ⟨hno, _⟩ | ⟨_, hwr⟩ := doWriteCode_cases (readCode s r) s
  · exact absurd h hno
  · exact congrArg complete hwr

/-- Settles O34: the two tests are those of `BitsFit`, and past them the buffer is the one that writing the bits of the
code one after the other makes. -/
theorem vcWrWritesTheCode : Obligations.VcWrWritesTheCode := by
  intro s r hs
  refine ⟨⟨rfl, rfl⟩, ?_, ?_⟩
  · intro hno
    rw [exec_vcWr_refused hno]
    exact complete_raise_unchanged _ s
  · intro hfit
    have hlen := hs.readCode_len_le r
    obtain ⟨hpos, hcap⟩ := hfit.premises
    exact ⟨_, _, exec_vcWr hfit, responded_answer s _ rfl _ _, lengthWord_toNat (by omega), keeps_setBb _ _ _,
      bitsWritten_bitWriteAll _ hs.buffer hpos hcap⟩

/-! ### VC.NEW -/

theorem exec_vcNew (s : State) (d : CodeReg) :
    exec (.vcNew d) s = .next ((s.setCode d Code.empty).answer ⟨.ok, 0⟩) := rfl

/-- Settles O30: the register takes the empty code, in whatever state. -/
theorem vcNewEmptiesTheRegister : Obligations.VcNewEmptiesTheRegister := by
  intro s d
  refine ⟨⟨rfl, rfl⟩, _, exec_vcNew s d, responded_answer s _ rfl _ _, keeps_setCode _ _ _ _, ?_, ?_, ?_⟩
  · rw [readCode_answer, readCode_setCode_same]
    rfl
  · rw [readCode_answer, readCode_setCode_same]
    rfl
  · exact fun q hq => readCode_setCode_of_ne s hq _

/-! ### VC.EXT and VC.APP -/

theorem exec_vcExt_refused {s : State} {r : CodeReg} (h : (readCode s r).len = 32) (d : CodeReg) (v : Bool) :
    exec (.vcExt d r v) s = complete (raise .encodingOverflow s) := by
  simp only [exec, execVcExt, if_pos h]

theorem exec_vcExt {s : State} {r : CodeReg} (h : (readCode s r).len ≠ 32) (d : CodeReg) (v : Bool) :
    exec (.vcExt d r v) s = .next ((s.setCode d (appendBit (readCode s r) v)).answer
      ⟨.ok, lengthWord ((readCode s r).len + 1)⟩) := by
  simp only [exec, execVcExt, if_neg h, complete_respond]

/-- A code extended into its own register is a code with a bit appended (41_vlc.md R164). -/
theorem exec_vcExt_self (s : State) (d : CodeReg) (v : Bool) : exec (.vcExt d d v) s = exec (.vcApp d v) s := rfl

/-- Settles O33: the source has room below bit 32, so `Append` puts the operand at its length and keeps the bits below;
only the destination is written. -/
theorem vcExtExtendsTheSource : Obligations.VcExtExtendsTheSource := by
  intro s d r v hs
  refine ⟨⟨rfl, rfl⟩, ?_, ?_, exec_vcExt_self s d v⟩
  · intro hfull
    rw [exec_vcExt_refused hfull]
    exact complete_raise_unchanged _ s
  · intro hroom
    have hlt := hs.readCode_len_lt hroom
    refine ⟨_, _, exec_vcExt hroom d v, responded_answer s _ rfl _ _, lengthWord_toNat (by omega),
      keeps_setCode _ _ _ _, ?_, ?_, ?_⟩
    · rw [readCode_answer, readCode_setCode_same, appendBit_len]
    · intro k
      rw [readCode_answer, readCode_setCode_same, getLsbD_appendBit (hs.codes r) hlt]
    · exact fun q hq => readCode_setCode_of_ne s hq _

/-- Settles O31: `VC.APP` is `VC.EXT` with the register as its own source. -/
theorem vcAppAppendsOneBit : Obligations.VcAppAppendsOneBit := by
  intro s d v hs
  obtain ⟨_, hfull, hroom, hself⟩ := vcExtExtendsTheSource s d d v hs
  rw [hself] at hfull hroom
  exact ⟨⟨rfl, rfl⟩, hfull, hroom⟩

/-! ### VC.BIT -/

theorem exec_vcBit_refused {s : State} {r : CodeReg} {k : Word} (h : k.toNat ≥ (readCode s r).len) :
    exec (.vcBit r k) s = complete (raise .indexOutOfRange s) := by
  simp only [exec, execVcBit, if_pos h]

theorem exec_vcBit {s : State} {r : CodeReg} {k : Word} (h : k.toNat < (readCode s r).len) :
    exec (.vcBit r k) s = .next (s.answer ⟨.ok, bitWord ((readCode s r).bits.getLsbD k.toNat)⟩) := by
  simp only [exec, execVcBit, if_neg (Nat.not_le.mpr h), complete_respond]

/-- Settles O32: the index is tested against the length alone, and either way only an answer is given. -/
theorem vcBitReadsOneBit : Obligations.VcBitReadsOneBit := by
  intro s r k
  refine ⟨⟨rfl, rfl⟩, ?_, ?_⟩
  · intro hout
    rw [exec_vcBit_refused hout]
    exact complete_raise_unchanged _ s
  · intro hin
    exact ⟨_, exec_vcBit hin, keeps_answer _ _, responded_answer s s rfl _ _⟩

end Sys2Proof.Machine
end

section
/-! SUPPORT. `TR.COUNT` and the greedy merge (42_tree.md): the command as one equation, the greedy step as one case
for each length of the working list, and the statements about them. -/

namespace Sys2Proof.Machine

/-! ### TR.COUNT -/

theorem exec_trCount (s : State) :
    exec .trCount s = .next ((s.setFreq (countBytes s.ibuf)).answer ⟨.ok, lengthWord s.ibuf.length⟩) := rfl

/-- Every counter, and the response, can hold `ILEN + 1` (00_scope.md R8: `IBUF_MAX` is at most `2^32 - 3`). -/
theorem State.Inv.ilen_add_one_lt {s : State} (h : s.Inv) : s.ibuf.length + 1 < 2 ^ 32 := by
  have hlen := h.ilen
  have hcap := h.caps.ibufMax
  omega

/-- Settles O37: the counters left are those of the input's bytes, and no count passes 32 bits. -/
theorem trCountCountsTheInput : Obligations.TrCountCountsTheInput := by
  refine ⟨⟨rfl, rfl⟩, by decide, fun s hs => ?_⟩
  have hlen := hs.ilen_add_one_lt
  exact ⟨_, _, exec_trCount s, responded_answer s _ rfl _ _, lengthWord_toNat (by omega), keeps_setFreq _ _ _,
    fun x => readFreq_countBytes s.ibuf x hlen, counterSum_countBytes s.ibuf hlen⟩

/-! ### The lowest entry -/

theorem entryBefore_asymm {a b : SortEntry} (h : entryBefore a b = true) : ¬ entryBefore b a = true := by
  simp only [entryBefore, Bool.or_eq_true, Bool.and_eq_true, decide_eq_true_eq, beq_iff_eq] at h ⊢
  rintro (hlt | ⟨heq, hseq⟩) <;> rcases h with hlt' | ⟨heq', hseq'⟩
  · omega
  · rw [heq'] at hlt; omega
  · rw [heq] at hlt'; omega
  · omega

/-- However a working list is written, only one entry can stand before all the others. -/
theorem lowest_unique {a b : SortEntry} {l m : List SortEntry} (hperm : (a :: l).Perm (b :: m))
    (ha : ∀ x ∈ l, entryBefore a x = true) (hb : ∀ x ∈ m, entryBefore b x = true) : a = b ∧ l.Perm m := by
  have hab : a = b := by
    rcases List.mem_cons.mp (hperm.mem_iff.mp List.mem_cons_self) with h | ham
    · exact h
    rcases List.mem_cons.mp (hperm.mem_iff.mpr List.mem_cons_self) with h | hbl
    · exact h.symm
    · exact absurd (hb a ham) (entryBefore_asymm (ha b hbl))
  subst hab
  exact ⟨rfl, hperm.cons_inv⟩

/-! ### The greedy step -/

/-- One entry left ends the build: there are no two to merge. -/
theorem greedyBuild_singleton_iff {k : Nat} {e : SortEntry} {t : HuffTree} : GreedyBuild k [e] t ↔ t = e.tree := by
  constructor
  · rintro (_ | ⟨_, _, a, b, rest, _, hperm, _, _, _⟩)
    · rfl
    · exact absurd hperm.length_eq (by simp)
  · rintro rfl
    exact .last k e

/-- With two entries or more, the step merges the first two of the sorted list; only the order in which the others are
written is free. -/
theorem greedyBuild_iff_merge {k : Nat} {a b : SortEntry} {rest l : List SortEntry} {t : HuffTree}
    (hs : SortedEntries (a :: b :: rest)) (hperm : l.Perm (a :: b :: rest)) :
    GreedyBuild k l t ↔ ∃ rest', rest'.Perm rest ∧ GreedyBuild (k + 1) (mergeEntries k a b :: rest') t := by
  obtain ⟨ha, hs'⟩ := List.pairwise_cons.mp hs
  obtain ⟨hb, _⟩ := List.pairwise_cons.mp hs'
  constructor
  · rintro (_ | ⟨_, _, a', b', rest', _, hperm', hab', hb', hbuild⟩)
    · exact absurd hperm.length_eq (by simp)
    have ha' : ∀ x ∈ b' :: rest', entryBefore a' x = true :=
      List.forall_mem_cons.mpr ⟨hab', fun x hx => entryBefore_trans hab' (hb' x hx)⟩
    obtain ⟨rfl, htail⟩ := lowest_unique (hperm'.symm.trans hperm) ha' ha
    obtain ⟨rfl, hrest⟩ := lowest_unique htail hb' hb
    exact ⟨rest', hrest, hbuild⟩
  · rintro ⟨rest', hrest, hbuild⟩
    refine .merge k l a b rest' t (hperm.trans ((hrest.symm.cons b).cons a)) (ha b List.mem_cons_self) ?_ hbuild
    exact fun x hx => hb x (hrest.mem_iff.mp hx)

/-! ### The merge loop does the greedy steps -/

/-- What the merge loop needs of its list: sorted, with sequence numbers below the next one. This much of
`WorkingList` is kept by a merge even where the sum of two counts wraps round. -/
structure Mergeable (k : Nat) (l : List SortEntry) : Prop where
  sorted : SortedEntries l
  fresh  : ∀ e ∈ l, e.seq < 256 + k

theorem Mergeable.merge {k : Nat} {a b : SortEntry} {rest : List SortEntry} (h : Mergeable k (a :: b :: rest)) :
    Mergeable (k + 1) (insertEntry (mergeEntries k a b) rest) := by
  have hseq : (mergeEntries k a b).seq = 256 + k := rfl
  have hfresh : ∀ e ∈ rest, e.seq < 256 + k := fun e he =>
    h.fresh e (List.mem_cons_of_mem _ (List.mem_cons_of_mem _ he))
  constructor
  · refine sorted_insertEntry _ _ h.sorted.of_cons.of_cons fun e he => ?_
    have := hfresh e he
    omega
  · intro e he
    rcases List.mem_cons.mp ((insertEntry_perm _ _).mem_iff.mp he) with rfl | he
    · omega
    · have := hfresh e he
      omega

/-- A working list in any order can build one tree, the one the merge loop gives for the sorted list. -/
theorem greedyBuild_iff_mergeLoop {fuel k : Nat} {m : List SortEntry} (hm : Mergeable k m) (hne : m ≠ [])
    (hlen : m.length ≤ fuel + 1) {l : List SortEntry} (hperm : l.Perm m) (t : HuffTree) :
    GreedyBuild k l t ↔ t = mergeLoop fuel k m := by
  fun_induction mergeLoop fuel k m generalizing l with
  | case1 => exact absurd rfl hne
  | case2 fuel k e =>
    obtain rfl := List.perm_singleton.mp hperm
    exact greedyBuild_singleton_iff
  | case3 => simp at hlen
  | case4 fuel k a b rest ih =>
    have hins := insertEntry_perm (mergeEntries k a b) rest
    have hlen' : (insertEntry (mergeEntries k a b) rest).length ≤ fuel + 1 := by
      simpa [hins.length_eq] using hlen
    have hne' : insertEntry (mergeEntries k a b) rest ≠ [] := fun h0 => by simp [h0] at hins
    have hnext : ∀ rest', rest'.Perm rest → (GreedyBuild (k + 1) (mergeEntries k a b :: rest') t ↔
        t = mergeLoop fuel (k + 1) (insertEntry (mergeEntries k a b) rest)) := fun rest' hrest =>
      ih hm.merge hne' hlen' ((hrest.cons _).trans hins.symm)
    rw [greedyBuild_iff_merge hm.sorted hperm]
    constructor
    · rintro ⟨rest', hrest, hbuild⟩
      exact (hnext rest' hrest).mp hbuild
    · exact fun ht => ⟨rest, .refl _, (hnext rest (.refl _)).mpr ht⟩

theorem leafEntries_ne_nil {f : Vector Word 256} (h : nonzeroCounts f ≠ []) : leafEntries f ≠ [] := by
  intro h0
  rw [← leafEntries_leaves, h0] at h
  exact h rfl

/-- Settles O39: the leaf entries have sequence numbers below 256, so their sorted list is one the merge loop can take. -/
theorem treeifyIsTheGreedyMerge : Obligations.TreeifyIsTheGreedyMerge := by
  refine fun f => ⟨treeify_absent, fun hne l t hl => ?_⟩
  have hstart := workingList_start f
  have hsort := sortEntries_perm (leafEntries f)
  have hne' : sortEntries (leafEntries f) ≠ [] := fun h0 =>
    leafEntries_ne_nil hne (List.nil_perm.mp (h0 ▸ hsort))
  exact greedyBuild_iff_mergeLoop ⟨hstart.sorted, hstart.fresh⟩ hne' (Nat.le_succ _) (hl.trans hsort.symm) t

end Sys2Proof.Machine
end

section
/-! SUPPORT. `TR.SER` (43_serdes.md R211) as one equation per outcome, and the statement about it. -/

namespace Sys2Proof.Machine

/-- A length within `OBUF_MAX` fits the 32 bits of the response data (00_scope.md R8). -/
theorem State.Inv.lengthWord_toNat_of_le_obufMax {s : State} (h : s.Inv) {n : Nat} (hn : n ≤ s.caps.obufMax) :
    (lengthWord n).toNat = n := by
  have hcap := h.caps.obufMax
  exact lengthWord_toNat (by omega)

theorem exec_trSer_refused {s : State} (h : s.obuf.length + (serialize s.tree).length > s.caps.obufMax) :
    exec .trSer s = complete (raise .capacityExceeded s) := by
  obtain ⟨_, hser⟩ | ⟨hle, _⟩ := doTrSer_cases s
  · exact congrArg complete hser
  · exact absurd h (Nat.not_lt.mpr hle)

theorem exec_trSer {s : State} (h : s.obuf.length + (serialize s.tree).length ≤ s.caps.obufMax) :
    exec .trSer s = .next ((s.setObuf (s.obuf ++ serialize s.tree)).answer
      ⟨.ok, lengthWord (serialize s.tree).length⟩) := by
  obtain ⟨hgt, _⟩ | ⟨_, hser⟩ := doTrSer_cases s
  · exact absurd h (Nat.not_le.mpr hgt)
  · exact congrArg complete hser

/-- Settles O43: the bytes counted are those of the serialized tree, `2n + 1` for a tree of `n` nodes
(30_encoding.md R92). -/
theorem trSerAppendsTheTree : Obligations.TrSerAppendsTheTree := by
  refine ⟨⟨rfl, rfl⟩, by decide, fun s hs => ?_⟩
  rw [← serialize_length]
  constructor
  · intro hcap
    rw [exec_trSer_refused hcap]
    exact complete_raise_unchanged _ s
  · intro hcap
    have hlen := (Nat.le_add_left _ s.obuf.length).trans hcap
    exact ⟨_, _, exec_trSer hcap, responded_answer s _ rfl _ _, hs.lengthWord_toNat_of_le_obufMax hlen,
      keeps_setObuf _ _ _, rfl⟩

end Sys2Proof.Machine
end

section
/-! SUPPORT. What every completed command keeps and answers, read off `exec_shape`, and the two commands of the walk
(44_codec.md R242, R243): `DEC.START` as one equation per kind of root, `DEC.STEP` as one per outcome. -/

namespace Sys2Proof.Machine

/-! ### A completed command -/

/-- A command leaves every unit alone but those it writes by its rule. -/
theorem keepsAllBut_of_exec {i : Instr} {s t : State} (h : exec i s = .next t) : KeepsAllBut (writes i) s t := by
  obtain ⟨f, hf⟩ := exec_shape i s
  rw [hf.next h]
  exact (keepsAllBut_answer _).mpr hf.keeps

/-- A command is answered once, with the status and the data its pseudocode ends with (30_encoding.md R104). -/
theorem responded_of_exec {i : Instr} {s : State} {f : Finished} (h : exec i s = complete f) {e : Status} {d : Word}
    (he : f.status = e) (hd : f.data = d) : Responded s (f.state.answer ⟨f.status, f.data⟩) e d := by
  subst he hd
  obtain ⟨g, hg⟩ := exec_shape i s
  have hresponses := congrArg State.responses (hg.next (h.trans (complete_eq f)))
  have hsame : f.state.responses = g.state.responses := (List.append_inj' hresponses rfl).1
  exact responded_answer s _ (hsame.trans hg.resp) _ _

/-! ### DEC.START -/

theorem exec_decStart (s : State) : exec .decStart s = complete (doDecStart s) := rfl

theorem doDecStart_absent {s : State} (h : s.tree = .absent) :
    doDecStart s = raise .unexpectedNullChild ((s.setObuf []).setWalk .fail []) := by
  simp only [doDecStart, h]

theorem doDecStart_sentinel {s : State} {n : Word} (h : s.tree = .node Config.eosByte n .absent .absent) :
    doDecStart s = respond (dstateWord .done) ((s.setObuf []).setWalk .done []) := by
  simp [doDecStart, h]

theorem doDecStart_leaf {s : State} {x : Byte} {n : Word} (h : s.tree = .node x n .absent .absent)
    (hx : x ≠ Config.eosByte) :
    doDecStart s = raise .unexpectedEndOfStream ((s.setObuf []).setWalk .fail []) := by
  simp [doDecStart, h, hx]

theorem doDecStart_inner {s : State} (ha : isAbsent s.tree = false) (hl : isLeaf s.tree = false) :
    doDecStart s = respond (dstateWord .run) ((s.setObuf []).setWalk .run []) := by
  unfold doDecStart
  cases h : s.tree with
  | absent => simp [h] at ha
  | node x n l r =>
    rw [h, ← Bool.not_eq_true, isLeaf_node] at hl
    exact if_neg hl

/-- `DEC.START` leaves no output and the walk position at the root, whatever the root is (44_codec.md R242). -/
theorem doDecStart_obuf_wpath (s : State) : (doDecStart s).state.obuf = [] ∧ (doDecStart s).state.wpath = [] := by
  obtain ⟨e, _, h⟩ | h | ⟨_, _, h⟩ := doDecStart_cases s <;> exact h ▸ ⟨rfl, rfl⟩

/-- Settles O48: one equation of `DEC.START` for each kind of root. -/
theorem decStartStandsAtTheRoot : Obligations.DecStartStandsAtTheRoot := by
  refine ⟨⟨rfl, rfl⟩, by decide, fun s => ?_⟩
  obtain ⟨hobuf, hwpath⟩ := doDecStart_obuf_wpath s
  refine ⟨_, exec_decStart s, keepsAllBut_of_exec (exec_decStart s), hobuf, hwpath, ?_, ?_, ?_, ?_⟩
  · intro habsent
    rw [doDecStart_absent (isAbsent_iff.mp habsent)]
    exact ⟨responded_answer s _ rfl _ _, rfl, rfl, rfl⟩
  · rintro x n htree rfl
    rw [doDecStart_sentinel htree]
    exact ⟨responded_answer s _ rfl _ _, rfl⟩
  · intro x n htree hx
    rw [doDecStart_leaf htree hx]
    exact ⟨responded_answer s _ rfl _ _, rfl, rfl, rfl⟩
  · intro ha hl
    rw [doDecStart_inner ha hl]
    exact ⟨responded_answer s _ rfl _ _, rfl⟩

/-! ### DEC.STEP -/

theorem exec_decStep (s : State) : exec .decStep s = complete (doDecStep s) := rfl

theorem doDecStep_lastPosition {s : State} (hr : s.dstate = .run) (hc : s.bb.cursor.toNat = Config.lastPosition) :
    doDecStep s = decFail .capacityExceeded s := by
  simp only [doDecStep, hr, hc, ne_eq, not_true_eq_false, if_false, if_true]

theorem doDecStep_noBit {s : State} (hr : s.dstate = .run) (hc : s.bb.cursor.toNat ≠ Config.lastPosition)
    (hb : bitRead s.bb s.bb.cursor.toNat = none) :
    doDecStep s = decFail .unexpectedEndOfStream (s.setBb (advanceCursor s.bb)) := by
  simp only [doDecStep, hr, hc, hb, ne_eq, not_true_eq_false, if_false]

@[simp] theorem decFail_bb (e : Status) (s : State) : (decFail e s).state.bb = s.bb := rfl

/-- Moving the walk on does not touch the buffer (44_codec.md R243). -/
@[simp] theorem walkTo_bb (v : Bool) (s : State) : (walkTo v s).state.bb = s.bb := by
  obtain ⟨e, _, h⟩ | h | ⟨x, n, _, _, h⟩ | ⟨_, _, h⟩ := walkTo_cases v s <;> exact h ▸ rfl

/-- Away from the last position a running walk consumes one bit, also when there is none (44_codec.md R243). -/
theorem doDecStep_bb {s : State} (hr : s.dstate = .run) (hc : s.bb.cursor.toNat ≠ Config.lastPosition) :
    (doDecStep s).state.bb = advanceCursor s.bb := by
  cases hb : bitRead s.bb s.bb.cursor.toNat with
  | none => rw [doDecStep_noBit hr hc hb, decFail_bb, setBb_bb]
  | some v => rw [doDecStep_bit hr hc hb, walkTo_bb, setBb_bb]

/-- The response to a `DEC.STEP` that fails, and the walk it leaves (`fail(E)` of 44_codec.md R243). -/
theorem responded_decFail {s u : State} (h : u.responses = s.responses) (e : Status) :
    Responded s ((decFail e u).state.answer ⟨(decFail e u).status, (decFail e u).data⟩) e 0 ∧
    WalkFailed ((decFail e u).state.answer ⟨(decFail e u).status, (decFail e u).data⟩) :=
  ⟨responded_answer s _ h _ _, rfl, rfl, rfl⟩

/-- Settles O49: the cursor by `doDecStep_bb`; then one equation of `walkTo` for each kind of child. -/
theorem decStepWalksOneEdge : Obligations.DecStepWalksOneEdge := by
  refine ⟨⟨rfl, rfl⟩, by decide, fun s => ⟨?_, ?_, ?_⟩⟩
  · intro hr
    rw [exec_decStep_of_ne_run hr]
    exact complete_raise_illegalCommand s
  · intro hr hc
    obtain ⟨hresponded, hfailed⟩ := responded_decFail (s := s) (u := s) rfl .capacityExceeded
    rw [exec_decStep, doDecStep_lastPosition hr hc]
    exact ⟨_, complete_eq _, hresponded, by simp [decFail], hfailed⟩
  · intro hr hc
    have hbb := doDecStep_bb hr hc
    refine ⟨_, exec_decStep s, keepsAllBut_of_exec (exec_decStep s), hbb,
      (congrArg (·.cursor.toNat) hbb).trans (cursor_add_one hc), ?_, ?_⟩
    · intro hb
      rw [doDecStep_noBit hr hc hb]
      exact responded_decFail rfl _
    · rintro v _ hb rfl
      rw [doDecStep_bit hr hc hb]
      refine ⟨?_, ?_, ?_, ?_, ?_⟩
      · intro habsent
        rw [walkTo_absent (s := s.setBb (advanceCursor s.bb)) (isAbsent_iff.mp habsent)]
        exact responded_decFail rfl _
      · rintro x n hchild rfl
        rw [walkTo_sentinel (s := s.setBb (advanceCursor s.bb)) hchild]
        exact ⟨responded_answer s _ rfl _ _, rfl, rfl, rfl⟩
      · intro x n hchild hx hfull
        rw [walkTo_full (s := s.setBb (advanceCursor s.bb)) hx hchild hfull]
        exact responded_decFail rfl _
      · intro x n hchild hx hroom
        rw [walkTo_symbol (s := s.setBb (advanceCursor s.bb)) hx hchild hroom]
        exact ⟨responded_answer s _ rfl _ _, rfl, rfl, rfl⟩
      · intro ha hl
        rw [walkTo_inner (s := s.setBb (advanceCursor s.bb)) ha hl]
        exact ⟨responded_answer s _ rfl _ _, rfl, rfl, rfl⟩

end Sys2Proof.Machine
end

section
/-! SUPPORT. `ENCODE` (44_codec.md R231): what it leaves whether it succeeds or not (R232), and the texts whose tree is
a lone leaf (R236). -/

namespace Sys2Proof.Machine

/-! ### What ENCODE leaves in any case -/

theorem exec_codecEncode (s : State) : exec .codecEncode s = complete (doEncode s) := rfl

/-- After its first two steps `ENCODE` writes the buffer and the output only (44_codec.md R231). -/
theorem doEncode_state (s : State) : ∃ b o, (doEncode s).state = ((encodeSetup s).setBb b).setObuf o := by
  obtain ⟨b, _, ⟨e, _, h⟩ | ⟨o, _, _, h⟩⟩ := doEncode_cases s
  · exact ⟨b, [], congrArg Finished.state h⟩
  · exact ⟨b, o, congrArg Finished.state h⟩

/-- The counters of the text with its sentinel: the sentinel is counted once as a byte of that text and once more by
the count itself (44_codec.md R232; 42_tree.md R180). -/
theorem State.Inv.readFreq_text {s : State} (h : s.Inv) (x : Byte) :
    (readFreq (countBytes (s.ibuf ++ [Config.eosByte])) x).toNat =
      s.ibuf.count x + if x = Config.eosByte then 2 else 0 := by
  have hlen := h.text_lt
  rw [readFreq_countBytes _ _ (by simpa using hlen), List.count_append, List.count_singleton]
  by_cases hx : x = Config.eosByte
  · simp [hx]
  · simp [hx, Ne.symm hx]

/-- Settles O55: every end of `ENCODE` is the state of its first two steps but for the buffer and the output. -/
theorem encodeCountsTheSentinelTwice : Obligations.EncodeCountsTheSentinelTwice := by
  intro s hs
  obtain ⟨b, o, hstate⟩ := doEncode_state s
  refine ⟨_, exec_codecEncode s, ?_⟩
  rw [hstate]
  exact ⟨hs.readFreq_text, counterSum_text hs, rfl, rfl, rfl, rfl, rfl, rfl⟩

/-! ### A text made only of sentinels -/

theorem nonzeroCounts_nodup (f : Vector Word 256) : (nonzeroCounts f).Nodup := by
  refine List.Nodup.filter _ (List.Nodup.map_on ?_ List.nodup_range)
  intro i hi j hj heq
  have hsymbol := congrArg (fun p => p.1.toNat) heq
  simp only [BitVec.toNat_ofNat] at hsymbol
  rwa [Nat.mod_eq_of_lt (List.mem_range.mp hi), Nat.mod_eq_of_lt (List.mem_range.mp hj)] at hsymbol

theorem nonzeroCounts_perm_singleton {f : Vector Word 256} {x : Byte} (hx : readFreq f x ≠ 0)
    (honly : ∀ y, readFreq f y ≠ 0 → y = x) : (nonzeroCounts f).Perm [(x, readFreq f x)] := by
  refine (List.perm_ext_iff_of_nodup (nonzeroCounts_nodup f) (List.nodup_singleton _)).mpr ?_
  rintro ⟨y, n⟩
  rw [mem_nonzeroCounts, List.mem_singleton, Prod.mk.injEq]
  constructor
  · rintro ⟨rfl, hn⟩
    obtain rfl := honly y hn
    exact ⟨rfl, rfl⟩
  · rintro ⟨rfl, rfl⟩
    exact ⟨rfl, hx⟩

/-- A built tree with one leaf is that leaf: an internal node of the builder has leaves on both sides
(42_tree.md R186, R187). -/
theorem eq_leaf_of_leafCounts {x : Byte} {n : Word} : ∀ {t : HuffTree}, builtShape t → leafCounts t = [(x, n)] →
    t = .node x n .absent .absent
  | .absent, hs, _ => absurd hs id
  | .node y m l r, hs, hleaves => by
    unfold leafCounts at hleaves
    obtain ⟨hl, hr⟩ | ⟨hl, hr, _⟩ := hs
    · rw [if_pos ⟨hl, hr⟩] at hleaves
      obtain ⟨rfl, rfl⟩ : y = x ∧ m = n := by simpa using hleaves
      rw [isAbsent_iff.mp hl, isAbsent_iff.mp hr]
    · rw [if_neg (by simp [isAbsent_of_builtShape hl])] at hleaves
      have hlen : (leafCounts l).length + (leafCounts r).length = 1 := by
        simpa using congrArg List.length hleaves
      have hcountl := nodeCount_of_builtShape hl
      have hcountr := nodeCount_of_builtShape hr
      omega

/-- The only nonzero counter of a text of sentinels is the sentinel's, so its tree is the lone leaf
(42_tree.md R187). -/
theorem treeify_sentinels {text : List Byte} (hlen : text.length + 1 < 2 ^ 32)
    (htext : ∀ x ∈ text, x = Config.eosByte) :
    ∃ n, treeify (countBytes text) = .node Config.eosByte n .absent .absent := by
  have hcounted := counted_iff hlen
  have hperm := nonzeroCounts_perm_singleton ((hcounted Config.eosByte).mpr (.inr rfl))
    fun y hy => ((hcounted y).mp hy).elim (htext y) id
  have hne : nonzeroCounts (countBytes text) ≠ [] := fun h0 => by simp [h0] at hperm
  have hsum : counterSum (countBytes text) < 2 ^ 32 := by rwa [counterSum_countBytes text hlen]
  obtain ⟨hshape, _, hleaves⟩ := treeify_spec hsum hne
  exact ⟨_, eq_leaf_of_leafCounts hshape (List.perm_singleton.mp (hleaves.trans hperm))⟩

/-- A lone leaf gives every symbol the empty code (42_tree.md R187; 44_codec.md R236). -/
theorem textBits_leaf (x : Byte) (n : Word) (text : List Byte) : textBits (.node x n .absent .absent) text = [] := by
  refine List.flatMap_eq_nil_iff.mpr fun y _ => ?_
  by_cases hy : x = y <;> simp [codePath, leafPaths, hy]

/-- `ENCODE` of a text whose tree is the sentinel's leaf writes the three bytes of that leaf and no bit
(44_codec.md R236). -/
theorem doEncode_loneLeaf {s : State} {n : Word} (htext : ∀ x ∈ s.ibuf ++ [Config.eosByte], x = Config.eosByte)
    (htree : (encodeSetup s).tree = .node Config.eosByte n .absent .absent) (hroom : 3 ≤ s.caps.obufMax) :
    doEncode s = respond 3 (((encodeSetup s).setBb (finalBuffer BitBuffer.fresh)).setObuf [0x04, 0x00, 0x00]) := by
  have hsymbols : ∀ x ∈ s.ibuf ++ [Config.eosByte], x ∈ (leafPaths (encodeSetup s).tree).map Prod.snd := by
    intro x hx
    simp [htree, leafPaths, htext x hx]
  have hlevels : levelCount (encodeSetup s).tree ≤ 33 := by simp [htree, levelCount]
  have hbits : textBits (encodeSetup s).tree (s.ibuf ++ [Config.eosByte]) = [] := by rw [htree, textBits_leaf]
  have hsteps := encodeSymbols_shallow _ _ (bufferInv_fresh _) hlevels hsymbols (.inl (by rw [hbits]; rfl))
  rw [hbits] at hsteps
  have hstream : serialize (encodeSetup s).tree = [0x04, 0x00, 0x00] := by rw [htree]; rfl
  have hwritten := doEncode_written hsteps (by rw [hstream]; exact hroom)
  rw [hstream] at hwritten
  exact hwritten

/-- Settles O56: the tree is the sentinel's leaf, and no bit of the buffer is written. -/
theorem sentinelTextsEncodeToTheLoneLeaf : Obligations.SentinelTextsEncodeToTheLoneLeaf := by
  intro s hs htext hroom
  have hlen : (s.ibuf ++ [Config.eosByte]).length + 1 < 2 ^ 32 := by simpa using hs.text_lt
  have hsentinels : ∀ x ∈ s.ibuf ++ [Config.eosByte], x = Config.eosByte := fun x hx =>
    (List.mem_append.mp hx).elim (htext x) List.mem_singleton.mp
  obtain ⟨n, htree⟩ := treeify_sentinels hlen hsentinels
  rw [exec_codecEncode, doEncode_loneLeaf hsentinels htree hroom]
  exact ⟨_, complete_respond _ _, responded_answer s _ rfl _ _, rfl, congrArg isLeaf htree, rfl, rfl, rfl⟩

end Sys2Proof.Machine
end

section
/-! SUPPORT. `DECODE` (44_codec.md R240): how it can end, the same as a run of commands up to the first error
(30_encoding.md R109), and the degenerate streams (R246). -/

namespace Sys2Proof.Machine

theorem exec_codecDecode (s : State) : exec .codecDecode s = complete (doDecode s) := rfl

/-! ### How DECODE ends -/

/-- The end of a `DECODE`: an error of the walk with no output, or the walk done and the length of the output answered
(44_codec.md R240). -/
def DecodeEnd (f : Finished) : Prop :=
  (DecodeError f.status ∧ f.data = 0 ∧ f.state.obuf = []) ∨
  (f.status = .ok ∧ f.data = lengthWord f.state.obuf.length ∧ f.state.dstate = .done)

/-- The loop of `DECODE`, begun at the first bit with a round for each bit of the buffer and one more. -/
theorem decodeLoop_end {s : State} (hcursor : s.bb.cursor = 0) (hd : s.dstate = .run ∨ s.dstate = .done) :
    DecodeEnd (decodeLoop (8 * s.bb.size + 1) s) := by
  obtain ⟨c, o, d, p, _, hstate, ⟨herr, hdata, rfl, _⟩ | ⟨hok, hdata⟩⟩ := decodeLoop_cases (8 * s.bb.size + 1) s
  · exact .inl ⟨herr, hdata, by rw [hstate]; rfl⟩
  · refine .inr ⟨hok, by rw [hdata, hstate]; rfl, ?_⟩
    exact decodeLoop_ends _ s (by simp [hcursor]) (Nat.le_add_right _ _) hd hok

theorem doDecode_end (s : State) : DecodeEnd (doDecode s) := by
  obtain ⟨e, he, h⟩ | ⟨t, rest, _, _, _, _, h | ⟨_, u, rfl, ⟨e, he, h⟩ | ⟨d, hd, h⟩⟩⟩ := doDecode_cases s
  · exact h ▸ .inl ⟨he.imp id .inr, rfl, rfl⟩
  · exact h ▸ .inl ⟨.inr (.inr rfl), rfl, rfl⟩
  · refine h ▸ .inl ⟨?_, rfl, rfl⟩
    exact he.elim (fun h => .inr (.inl h)) .inl
  · exact h ▸ decodeLoop_end rfl (hd.elim .inr fun hrun => .inl hrun.1)

/-! ### A pipeline as a run of commands -/

/-- The commands, run up to the first error from the state with any responses given before, leave the block and the
status of `f` (20_memory.md R67; 44_codec.md R240). -/
def RunsTo (cmds : List Instr) (s : State) (f : Finished) : Prop :=
  ∀ rs, ∃ rs', execUntilError cmds (s.reAnswer .ok rs) = some (f.state.reAnswer f.status rs')

/-- A run up to the first error goes on after its first part when that part has ended without one. -/
theorem execUntilError_append (js : List Instr) : ∀ (is : List Instr) (s : State), s.status = .ok →
    execUntilError (is ++ js) s =
      (execUntilError is s).bind fun t => if t.status = .ok then execUntilError js t else some t
  | [], s, hs => (if_pos hs).symm
  | i :: is, s, _ => by
    obtain ⟨f, hf⟩ := exec_shape i s
    have hi := hf.ex.trans (complete_eq f)
    rw [List.cons_append]
    by_cases hok : f.status = .ok
    · rw [execUntilError_ok _ hi hok, execUntilError_ok _ hi hok]
      exact execUntilError_append js is _ hok
    · rw [execUntilError_error _ hi hok, execUntilError_error _ hi hok]
      exact (if_neg hok).symm

theorem RunsTo.command {i : Instr} {s : State} {f : Finished}
    (h : ∀ rs, exec i (s.reAnswer .ok rs) = complete (f.reAnswer .ok rs)) : RunsTo [i] s f := by
  intro rs
  refine ⟨rs ++ [⟨f.status, f.data⟩], ?_⟩
  have hnext := (h rs).trans (complete_reAnswer .ok rs f)
  by_cases hf : f.status = .ok
  · exact execUntilError_ok [] hnext hf
  · exact execUntilError_error [] hnext hf

theorem RunsTo.append {is js : List Instr} {s : State} {f : Finished} {g : State → Finished} (hf : RunsTo is s f)
    (hg : f.status = .ok → RunsTo js f.state (g f.state)) : RunsTo (is ++ js) s (andThen f g) := by
  intro rs
  obtain ⟨rs', hrun⟩ := hf rs
  rw [execUntilError_append js is _ rfl, hrun, Option.bind_some]
  obtain ⟨herr, heq⟩ | ⟨hok, heq⟩ := andThen_cases f g
  · exact ⟨rs', by rw [heq]; exact if_neg herr⟩
  · obtain ⟨rs'', hrest⟩ := hg hok rs'
    refine ⟨rs'', ?_⟩
    rw [heq]
    refine (if_pos hok).trans ?_
    rw [hok]
    exact hrest

/-! ### The commands of DECODE -/

/-- `DECODE` up to its loop (44_codec.md R240). -/
def decodeSetup (s : State) : Finished := andThen (andThen (doTrDes ((s.setObuf []).setIpos 0)) doBbLoad) doDecStart

theorem doDecode_eq (s : State) :
    doDecode s = andThen (decodeSetup s) fun t => decodeLoop (8 * t.bb.size + 1) t := rfl

theorem decodeSetup_runsTo (s : State) :
    RunsTo [.ibSeek 0, .trDes, .bbLoad, .decStart] (s.setObuf []) (decodeSetup s) := by
  have hseek : RunsTo [.ibSeek 0] (s.setObuf []) (respond 0 ((s.setObuf []).setIpos 0)) := .command fun rs => rfl
  have hdes := hseek.append (js := [.trDes]) (g := doTrDes) fun _ =>
    .command fun rs => congrArg complete (doTrDes_reAnswer .ok rs _)
  have hload := hdes.append (js := [.bbLoad]) (g := doBbLoad) fun _ =>
    .command fun rs => congrArg complete (doBbLoad_reAnswer .ok rs _)
  exact hload.append (js := [.decStart]) (g := doDecStart) fun _ =>
    .command fun rs => congrArg complete (doDecStart_reAnswer .ok rs _)

theorem decodeLoop_size (fuel : Nat) (s : State) : (decodeLoop fuel s).state.bb.size = s.bb.size := by
  obtain ⟨c, o, d, p, _, hstate, _⟩ := decodeLoop_cases fuel s
  rw [hstate]
  rfl

/-- `DECODE` is the run of its expansion, with at most `8 * BB.size + 1` steps of the walk (44_codec.md R240). -/
theorem doDecode_runsTo (s : State) : ∃ k, k ≤ 8 * (doDecode s).state.bb.size + 1 ∧
    RunsTo ([.ibSeek 0, .trDes, .bbLoad, .decStart] ++ List.replicate k .decStep) (s.setObuf []) (doDecode s) := by
  have hsetup := decodeSetup_runsTo s
  rw [doDecode_eq]
  by_cases hok : (decodeSetup s).status = .ok
  · obtain ⟨k, hk, hloop⟩ := decodeLoop_commands (8 * (decodeSetup s).state.bb.size + 1) (decodeSetup s).state
    refine ⟨k, ?_, hsetup.append fun _ => hloop⟩
    rwa [andThen_ok hok, decodeLoop_size]
  · exact ⟨0, Nat.zero_le _, hsetup.append fun h => absurd h hok⟩

/-- Settles O57: after `OB.CLR` the rest of the expansion is `doDecode_runsTo`, from whatever responses were given
before; the status, the data and the output are `doDecode_end`. -/
theorem decodeIsItsExpansion : Obligations.DecodeIsItsExpansion := by
  refine ⟨⟨rfl, rfl⟩, by decide, fun s hs => ?_⟩
  obtain ⟨k, hk, hruns⟩ := doDecode_runsTo s
  obtain ⟨rs, hrun⟩ := hruns (s.responses ++ [⟨.ok, 0⟩])
  have hresponded {e : Status} {d : Word} := responded_of_exec (exec_codecDecode s) (e := e) (d := d)
  have holen := (inv_doDecode hs).lengthWord_toNat_of_le_obufMax (inv_doDecode hs).olen
  refine ⟨k, (doDecode s).state.answer ⟨(doDecode s).status, (doDecode s).data⟩, _, hk, exec_codecDecode s,
    (execUntilError_ok _ rfl rfl).trans hrun, sameBlock_reAnswer _ _ (doDecode s).state, rfl,
    keepsAllBut_of_exec (exec_codecDecode s), ?_⟩
  obtain ⟨herr, hdata, hobuf⟩ | ⟨hok, hdata, hdone⟩ := doDecode_end s
  · refine ⟨?_, fun h => absurd h herr.ne_ok, fun _ => ⟨hresponded rfl hdata, hobuf⟩⟩
    exact List.mem_cons_of_mem _ (by simpa [DecodeError] using herr)
  · exact ⟨List.mem_cons.mpr (.inl hok), fun _ => ⟨hdone, _, hresponded hok hdata, holen⟩, fun h => absurd hok h⟩

/-! ### The degenerate streams -/

/-- An absent tree and a lone leaf can be stored whatever the capacities within their
ranges (00_scope.md R8; 10_state.md R31). -/
theorem State.Inv.fitsStore_small {s : State} (h : s.Inv) {t : HuffTree} (hnodes : nodeCount t ≤ 1) :
    fitsStore s.caps t = true := by
  have hlevels := levelCount_le_nodeCount t
  have hnodeMax := h.caps.nodeMax
  simp only [fitsStore, Bool.and_eq_true, decide_eq_true_eq]
  omega

/-- `DECODE` of an empty stream fails in `TR.DES` (44_codec.md R246). -/
theorem doDecode_empty {s : State} (h : s.ibuf = []) :
    doDecode s = raise .unexpectedEndOfStream ((s.setObuf []).setIpos 0) := by
  have hdes : doTrDes ((s.setObuf []).setIpos 0) = raise .unexpectedEndOfStream ((s.setObuf []).setIpos 0) := by
    rw [doTrDes_none (by simp [h, deserialize, deserializeFrom])]
    simp [h, meetsCapacity]
  unfold doDecode
  rw [hdes]
  rfl

/-- Settles O59: `TR.DES` reads the tree of at most one node, `BB.LOAD` the bytes behind it, and `DEC.START` ends the
walk at the root. -/
theorem degenerateStreamsDecode : Obligations.DegenerateStreamsDecode := by
  intro s hs
  refine ⟨_, exec_codecDecode s, ?_, ?_, ?_, ?_⟩
  · intro rest hstream hfits
    rw [doDecode_load (tree := .node Config.eosByte 0 .absent .absent) hstream rfl
      (hs.fitsStore_small (by decide)) hfits, doDecStart_sentinel rfl, andThen_respond,
      decodeLoop_stopped _ (by simp)]
    exact ⟨responded_answer s _ rfl _ _, rfl, rfl, rfl⟩
  · intro x rest hstream hx hnull hfits
    rw [doDecode_load (tree := .node x 0 .absent .absent) hstream (by simp [noNullSymbol, hnull])
      (hs.fitsStore_small (by simp [nodeCount])) hfits, doDecStart_leaf rfl hx]
    exact ⟨responded_answer s _ rfl _ _, rfl, rfl, rfl⟩
  · intro rest hstream hfits
    rw [doDecode_load (tree := .absent) hstream rfl (hs.fitsStore_small (by decide)) hfits, doDecStart_absent rfl]
    exact ⟨responded_answer s _ rfl _ _, rfl, rfl, rfl⟩
  · intro hempty
    rw [doDecode_empty hempty]
    exact ⟨responded_answer s _ rfl _ _, rfl, rfl, rfl⟩

end Sys2Proof.Machine
end

section
/-! SUPPORT. The system and host-interface commands (45_system.md): each as one equation per outcome, the register map
as the table `CSRR` reads, and the statements about them. -/

namespace Sys2Proof.Machine

/-! ### RESET -/

theorem exec_reset (s : State) : exec .reset s =
    .next (({ State.reset with caps := s.caps, commands := s.commands, responses := s.responses } : State).answer
      ⟨.ok, 0⟩) := rfl

/-- Settles O8: every unit is taken from `State.reset`, and the responses already given stay before the new one. -/
theorem resetCommandGivesTheResetState : Obligations.ResetCommandGivesTheResetState :=
  ⟨⟨rfl, rfl⟩, by decide, fun s => ⟨_, exec_reset s, responded_answer s _ rfl _ _,
    rfl, rfl, rfl, rfl, rfl, rfl, rfl, rfl, rfl⟩⟩

/-! ### CSRR and the register map -/

theorem exec_csrr_of_some {s : State} {num : Byte} {v : Word} (h : readCsr s num = some v) :
    exec (.csrr num) s = .next (s.answer ⟨.ok, v⟩) := by
  simp only [exec, execCsrr, h, complete_respond]

/-- A length within `OBUF_MAX` fits 32 bits (00_scope.md R8). -/
theorem State.Inv.olen_lt {s : State} (h : s.Inv) : s.obuf.length < 2 ^ 32 := by
  have hlen := h.olen
  have hcap := h.caps.obufMax
  omega

/-- The buffer's size fits its 30 bits (00_scope.md R8: `BB_MAX` is at most `2^29`). -/
theorem State.Inv.bbSize_lt {s : State} (h : s.Inv) : s.bb.size < 2 ^ 30 := by
  have hsize := h.buffer.size_le
  have hcap := h.caps.bbMax
  omega

/-- The high-water mark is below a size of at most `2^29`, or 0 (10_state.md R27, R28). -/
theorem State.Inv.bbHwm_lt {s : State} (h : s.Inv) : s.bb.hwm < 2 ^ 29 := by
  have hsize := h.buffer.size_le
  have hcap := h.caps.bbMax
  cases hv : s.bb.hwmv with
  | false => have hzero := h.buffer.hwm_zero hv; omega
  | true => have hmark := h.buffer.hwm_lt hv; omega

/-- A running walk stands on a node of the tree, so its depth is below the number of nodes (10_state.md R36). -/
theorem State.Inv.wpath_length_lt {s : State} (h : s.Inv) (hrun : s.dstate = .run) : s.wpath.length < 2 ^ 32 :=
  calc s.wpath.length
    _ < levelCount s.tree := length_lt_levelCount _ _ (h.walking hrun).1
    _ ≤ nodeCount s.tree := levelCount_le_nodeCount _
    _ < 2 ^ 32 := h.nodes

/-- Every register's value fits its width (10_state.md R38). -/
theorem State.Inv.csrTable_fits {s : State} (h : s.Inv) : ∀ row ∈ csrTable s, row.2.2 < 2 ^ row.2.1 := by
  have hilen : s.ibuf.length < 2 ^ 32 := Nat.lt_of_succ_lt h.ilen_add_one_lt
  have hlen (r : CodeReg) : (readCode s r).len < 2 ^ 6 := (h.readCode_len_le r).trans_lt (by decide)
  have hdepth : (if s.dstate = .run then s.wpath.length else 0) < 2 ^ 32 := by
    split
    · next hrun => exact h.wpath_length_lt hrun
    · decide
  simp only [csrTable, List.forall_mem_append, List.forall_mem_cons, List.not_mem_nil, false_imp_iff, implies_true,
    and_true]
  exact ⟨⟨⟨(statusCode s.status).isLt, h.bbSize_lt, s.bb.cursor.isLt, h.bbHwm_lt, Bool.toNat_lt _, hilen,
      h.ipos.trans_lt hilen, h.olen_lt, Bool.toNat_lt _, h.nodes, (dstateCode s.dstate).isLt, hdepth⟩,
    hlen 0, (readCode s 0).bits.isLt, hlen 1, (readCode s 1).bits.isLt, hlen 2, (readCode s 2).bits.isLt,
      hlen 3, (readCode s 3).bits.isLt⟩,
    by decide⟩

/-- `CSRR` reads a row of the register map as its value, zero-extended (45_system.md R262). -/
theorem State.Inv.readCsr_of_mem_csrTable {s : State} (h : s.Inv) :
    ∀ row ∈ csrTable s, readCsr s row.1 = some (BitVec.ofNat 32 row.2.2) := by
  have hext {w : Nat} (v : BitVec w) : v.setWidth 32 = BitVec.ofNat 32 v.toNat := (BitVec.ofNat_toNat 32 v).symm
  have hword (v : Word) : v = BitVec.ofNat 32 v.toNat := by simp
  have hbit (v : Bool) : bitWord v = BitVec.ofNat 32 v.toNat := by cases v <;> rfl
  have hhwm : (if s.bb.hwmv then lengthWord s.bb.hwm else 0) = BitVec.ofNat 32 s.bb.hwm := by
    cases hv : s.bb.hwmv with
    | false => rw [h.buffer.hwm_zero hv]; rfl
    | true => rfl
  have hdepth : (if s.dstate = .run then lengthWord s.wpath.length else 0) =
      BitVec.ofNat 32 (if s.dstate = .run then s.wpath.length else 0) := by
    split <;> rfl
  simp only [csrTable, List.forall_mem_append, List.forall_mem_cons, List.not_mem_nil, false_imp_iff, implies_true,
    and_true]
  exact ⟨⟨⟨congrArg some (hext _), rfl, congrArg some (hword _), congrArg some hhwm, congrArg some (hbit _), rfl, rfl,
      rfl, congrArg some (hbit _), rfl, congrArg some (hext _), congrArg some hdepth⟩,
    rfl, congrArg some (hword _), rfl, congrArg some (hword _), rfl, congrArg some (hword _),
      rfl, congrArg some (hword _)⟩,
    rfl, rfl, rfl, rfl⟩

/-- The rows of the register map are those of its numbers (10_state.md R38). -/
theorem csrTable_numbers (s : State) : (csrTable s).map Prod.fst = csrNumbers := rfl

/-- Settles O13: a row of the map is read at its value; a number of no row is refused. -/
theorem csrrReadsTheRegisterMap : Obligations.CsrrReadsTheRegisterMap := by
  intro s num hs
  refine ⟨⟨rfl, rfl⟩, ?_, ?_⟩
  · intro width value hrow
    exact ⟨hs.csrTable_fits _ hrow, _, exec_csrr_of_some (hs.readCsr_of_mem_csrTable _ hrow),
      responded_answer s _ rfl _ _, keeps_answer _ _⟩
  · intro hno
    have hnum : num ∉ csrNumbers := by
      rw [← csrTable_numbers s]
      simpa using hno
    rw [exec_csrr_of_none (readCsr_eq_none hnum s)]
    exact complete_raise_illegalCommand s

/-! ### IB.CLR, IB.PUT and IB.SEEK -/

theorem exec_ibClr (s : State) : exec .ibClr s = .next (((s.setIbuf []).setIpos 0).answer ⟨.ok, 0⟩) := rfl

theorem exec_ibPut_refused {s : State} (h : s.ibuf.length = s.caps.ibufMax) (x : Byte) :
    exec (.ibPut x) s = complete (raise .capacityExceeded s) := if_pos h

theorem exec_ibPut {s : State} (h : s.ibuf.length ≠ s.caps.ibufMax) (x : Byte) :
    exec (.ibPut x) s =
      .next ((s.setIbuf (s.ibuf ++ [x])).answer ⟨.ok, lengthWord (s.ibuf.length + 1)⟩) := if_neg h

/-- Settles O15: below the capacity the byte goes behind the others, whose number with it fits 32 bits. -/
theorem inputBytesAreAppended : Obligations.InputBytesAreAppended := by
  refine ⟨⟨rfl, rfl⟩, fun _ => ⟨rfl, rfl⟩, ?_, ?_⟩
  · intro s
    exact ⟨_, exec_ibClr s, responded_answer s _ rfl _ _, keepsAllBut_of_exec (exec_ibClr s), rfl, rfl⟩
  · intro s x hs
    constructor
    · intro hfull
      rw [exec_ibPut_refused hfull]
      exact complete_raise_unchanged _ s
    · intro hroom
      exact ⟨_, _, exec_ibPut hroom x, responded_answer s _ rfl _ _, lengthWord_toNat hs.ilen_add_one_lt,
        keepsAllBut_of_exec (exec_ibPut hroom x), rfl⟩

theorem exec_ibSeek_refused {s : State} {pos : Word} (h : pos.toNat > s.ibuf.length) :
    exec (.ibSeek pos) s = complete (raise .indexOutOfRange s) := if_pos h

theorem exec_ibSeek {s : State} {pos : Word} (h : pos.toNat ≤ s.ibuf.length) :
    exec (.ibSeek pos) s = .next ((s.setIpos pos.toNat).answer ⟨.ok, pos⟩) := if_neg (Nat.not_lt.mpr h)

/-- Settles O16: the length itself is a position, and only what is above it is refused. -/
theorem ibSeekMovesTheInputCursor : Obligations.IbSeekMovesTheInputCursor := by
  intro s pos
  refine ⟨⟨rfl, rfl⟩, ?_, ?_⟩
  · intro hout
    rw [exec_ibSeek_refused hout]
    exact complete_raise_unchanged _ s
  · intro hin
    exact ⟨_, exec_ibSeek hin, responded_answer s _ rfl _ _, keeps_setIpos _ _ _, rfl⟩

/-! ### OB.CLR and OB.GET -/

theorem exec_obClr (s : State) : exec .obClr s = .next ((s.setObuf []).answer ⟨.ok, 0⟩) := rfl

theorem exec_obGet_refused {s : State} {k : Word} (h : k.toNat ≥ s.obuf.length) :
    exec (.obGet k) s = complete (raise .indexOutOfRange s) := by
  simp only [exec, execObGet, List.getElem?_eq_none h]

theorem exec_obGet {s : State} {k : Word} (h : k.toNat < s.obuf.length) :
    exec (.obGet k) s = .next (s.answer ⟨.ok, (s.obuf[k.toNat]'h).setWidth 32⟩) := by
  simp only [exec, execObGet, List.getElem?_eq_getElem h, complete_respond]

/-- Settles O17: an index below the length names a byte, which its 32-bit word holds whole. -/
theorem outputBytesAreRead : Obligations.OutputBytesAreRead := by
  refine ⟨⟨rfl, rfl⟩, fun _ => ⟨rfl, rfl⟩, ?_, ?_⟩
  · intro s
    exact ⟨_, exec_obClr s, responded_answer s _ rfl _ _, keeps_setObuf _ _ _, rfl⟩
  · intro s k
    constructor
    · intro hout
      rw [exec_obGet_refused hout]
      exact complete_raise_unchanged _ s
    · intro hin
      exact ⟨_, _, exec_obGet hin, responded_answer s _ rfl _ _, BitVec.toNat_setWidth_of_le (by decide),
        keeps_answer _ _⟩

/-! ### FQ.SET and FQ.GET -/

theorem exec_fqSet (s : State) (x : Byte) (v : Word) :
    exec (.fqSet x v) s = .next ((s.setFreq (writeFreq s.freq x v)).answer ⟨.ok, 0⟩) := rfl

theorem exec_fqGet (s : State) (x : Byte) : exec (.fqGet x) s = .next (s.answer ⟨.ok, readFreq s.freq x⟩) := rfl

/-- Settles O18: the table after `FQ.SET` reads as `readFreq_writeFreq` says, and `FQ.GET` reads it. -/
theorem countersAreSetAndRead : Obligations.CountersAreSetAndRead := by
  refine ⟨fun _ _ => ⟨rfl, rfl⟩, fun _ => ⟨rfl, rfl⟩, fun s x => ⟨?_, ?_⟩⟩
  · intro v
    exact ⟨_, exec_fqSet s x v, responded_answer s _ rfl _ _, keeps_setFreq _ _ _,
      fun y => readFreq_writeFreq s.freq x y v⟩
  · exact ⟨_, exec_fqGet s x, responded_answer s _ rfl _ _, keeps_answer _ _⟩

end Sys2Proof.Machine
end


section
/-! SUPPORT. The reset values (70_reset_and_hazards.md R330): what differs between power-on reset and the `RESET` command
is only in the model's own fields, and the statement about both. -/

namespace Sys2Proof.Machine

/-- The block at reset, with any capacities and any history at the host's port. -/
def resetWith (c : Config.Capacities) (waiting : List CommandWord) (given : List Response) : State :=
  { State.reset with caps := c, commands := waiting, responses := given }

theorem reset_eq_resetWith : State.reset = resetWith Config.Capacities.widest [] [] := rfl

theorem exec_reset_eq_resetWith (s : State) :
    exec .reset s = .next (resetWith s.caps s.commands (s.responses ++ [⟨.ok, 0⟩])) := exec_reset s

theorem bufferBytes_fresh : bufferBytes BitBuffer.fresh = [] := rfl

theorem readCode_resetWith (c : Config.Capacities) (waiting : List CommandWord) (given : List Response) (r : CodeReg) :
    readCode (resetWith c waiting given) r = Code.empty := by
  simp [readCode, resetWith, State.reset]

/-- Settles O7: both states are a `resetWith`, whose codes and counters are each one replicated value. -/
theorem resetLeavesTheSpecsValues : Obligations.ResetLeavesTheSpecsValues := by
  intro s t h u hu
  obtain ⟨c, waiting, given, rfl⟩ : ∃ c waiting given, u = resetWith c waiting given := by
    obtain rfl | rfl := hu
    · exact ⟨_, _, _, reset_eq_resetWith⟩
    · rw [exec_reset_eq_resetWith] at h
      cases h
      exact ⟨_, _, _, rfl⟩
  have hcode (r : CodeReg) := readCode_resetWith c waiting given r
  exact ⟨rfl, bufferBytes_fresh, rfl, rfl, rfl, fun r => ⟨congrArg Code.bits (hcode r), congrArg Code.len (hcode r)⟩,
    readFreq_zero, rfl, rfl, rfl, rfl, rfl, rfl, rfl⟩

end Sys2Proof.Machine
end

section
/-! SUPPORT. The command word as a whole (30_encoding.md R100 to R108): encoding and decoding are inverse to each other,
and the decoder makes commands of exactly the words that the opcode table selects. -/

namespace Sys2Proof.Machine

/-! ### From a command to its word and back -/

@[simp] theorem splitWord_encode (i : Instr) : splitWord (encode i) = fieldsOf i := splitWord_joinWord _

theorem ofBool_beq_one (v : Bool) : (BitVec.ofBool v == 1#1) = v := by cases v <;> rfl

theorem ofBool_of_beq_one : ∀ v : BitVec 1, BitVec.ofBool (v == 1#1) = v := by decide

/-- A command is read back from its own fields. -/
theorem commandOf_fieldsOf (i : Instr) : commandOf (fieldsOf i) = some i := by
  cases i <;> simp [commandOf, fieldsOf, blankFields, opcodeOf, ofBool_beq_one]

theorem reservedZero_fieldsOf (i : Instr) : reservedZero (fieldsOf i) = true := by cases i <;> rfl

theorem unusedZero_fieldsOf (i : Instr) : unusedZero (formatOf i) (fieldsOf i) = true := by cases i <;> rfl

theorem decode_encode (i : Instr) : decode (encode i) = .command i := by
  rw [decode_eq_command_iff, splitWord_encode]
  exact ⟨commandOf_fieldsOf i, reservedZero_fieldsOf i, unusedZero_fieldsOf i⟩

/-- Settles O1: the three tests of the decoder, on the fields the encoder joins. -/
theorem encodeThenDecodeIsIdentity : Obligations.EncodeThenDecodeIsIdentity := decode_encode

/-! ### From a word to its command and back -/

/-- The fields that a format uses, with the opcode; zero elsewhere (30_encoding.md R102). -/
def usedFields (k : Format) (f : Fields) : Fields where
  imm := if k.usesImm then f.imm else 0
  z3  := 0
  sym := if k.usesSym then f.sym else 0
  z2  := 0
  rs  := if k.usesRs then f.rs else 0
  z1  := 0
  rd  := if k.usesRd then f.rd else 0
  val := if k.usesVal then f.val else 0
  op  := f.op

/-- The command an opcode stands for takes its operands from the fields its format uses, and no bit of these fields is
lost (30_encoding.md R103). -/
theorem fieldsOf_commandOf {f : Fields} {i : Instr} (h : commandOf f = some i) :
    fieldsOf i = usedFields (formatOf i) f := by
  have hop := opcodeOf_commandOf h
  unfold commandOf at h
  split at h <;> cases h
  all_goals
    simp only [fieldsOf, usedFields, ← hop, ofBool_of_beq_one]
    rfl

/-- The two tests of the decoder say that nothing stands outside the fields the format uses. -/
theorem usedFields_eq_self {k : Format} {f : Fields} (hr : reservedZero f = true) (hu : unusedZero k f = true) :
    usedFields k f = f := by
  obtain ⟨imm, z3, sym, z2, rs, z1, rd, val, op⟩ := f
  simp only [reservedZero, Bool.and_eq_true, beq_iff_eq] at hr
  simp only [unusedZero, Bool.and_eq_true, Bool.or_eq_true, beq_iff_eq] at hu
  obtain ⟨⟨rfl, rfl⟩, rfl⟩ := hr
  have keep {n : Nat} {used : Bool} {x : BitVec n} (h : used = true ∨ x = 0) : (if used = true then x else 0) = x :=
    ite_eq_left_iff.mpr fun hn => (h.resolve_left hn).symm
  obtain ⟨⟨⟨⟨himm, hsym⟩, hrs⟩, hrd⟩, hval⟩ := hu
  simp only [usedFields, keep himm, keep hsym, keep hrs, keep hrd, keep hval]
  rfl

/-- Settles O2: a legal word has no bit outside the fields its command is read from. -/
theorem decodeThenEncodeIsIdentity : Obligations.DecodeThenEncodeIsIdentity := by
  intro w i h
  obtain ⟨hc, hr, hu⟩ := decode_eq_command_iff.mp h
  calc encode i
    _ = joinWord (usedFields (formatOf i) (splitWord w)) := congrArg joinWord (fieldsOf_commandOf hc)
    _ = joinWord (splitWord w) := by rw [usedFields_eq_self hr hu]
    _ = w := joinWord_splitWord w

/-! ### The opcode table -/

/-- The row of a command: its mnemonic, the mask of its format and its opcode (30_encoding.md R102). -/
def rowOf (i : Instr) : OpcodeRow where
  mnemonic  := mnemonicOf i
  fixedMask := joinWord (Laws.maskFields (formatOf i))
  fixedBits := joinWord (blankFields (opcodeOf i))

theorem hasItsRow : ∀ i : Instr, Laws.HasItsRow.Statement i
  | .reset => Laws.HasItsRow.reset
  | .csrr num => Laws.HasItsRow.csrr num
  | .ibClr => Laws.HasItsRow.ibClr
  | .ibPut sym => Laws.HasItsRow.ibPut sym
  | .ibSeek pos => Laws.HasItsRow.ibSeek pos
  | .obClr => Laws.HasItsRow.obClr
  | .obGet idx => Laws.HasItsRow.obGet idx
  | .fqSet sym value => Laws.HasItsRow.fqSet sym value
  | .fqGet sym => Laws.HasItsRow.fqGet sym
  | .bbNew => Laws.HasItsRow.bbNew
  | .bbWr val pos => Laws.HasItsRow.bbWr val pos
  | .bbWrn val => Laws.HasItsRow.bbWrn val
  | .bbRd pos => Laws.HasItsRow.bbRd pos
  | .bbRdn => Laws.HasItsRow.bbRdn
  | .bbMore => Laws.HasItsRow.bbMore
  | .bbFin => Laws.HasItsRow.bbFin
  | .bbLoad => Laws.HasItsRow.bbLoad
  | .bbOut => Laws.HasItsRow.bbOut
  | .vcNew rd => Laws.HasItsRow.vcNew rd
  | .vcApp rd val => Laws.HasItsRow.vcApp rd val
  | .vcBit rs idx => Laws.HasItsRow.vcBit rs idx
  | .vcExt rd rs val => Laws.HasItsRow.vcExt rd rs val
  | .vcWr rs => Laws.HasItsRow.vcWr rs
  | .trCount => Laws.HasItsRow.trCount
  | .trBuild => Laws.HasItsRow.trBuild
  | .trFind rd sym => Laws.HasItsRow.trFind rd sym
  | .trEnc sym => Laws.HasItsRow.trEnc sym
  | .trSer => Laws.HasItsRow.trSer
  | .trDes => Laws.HasItsRow.trDes
  | .codecEncode => Laws.HasItsRow.codecEncode
  | .codecDecode => Laws.HasItsRow.codecDecode
  | .decStart => Laws.HasItsRow.decStart
  | .decStep => Laws.HasItsRow.decStep

theorem rowOf_mem (i : Instr) : rowOf i ∈ opcodeTable := by
  obtain ⟨⟨m, mask, bits⟩, hmem, rfl, rfl, rfl⟩ := hasItsRow i
  exact hmem

/-- One command for each row of the table, in its order. -/
def oneOfEach : List Instr :=
  [.reset, .csrr 0, .ibClr, .ibPut 0, .ibSeek 0, .obClr, .obGet 0, .fqSet 0 0, .fqGet 0, .bbNew, .bbWr false 0,
   .bbWrn false, .bbRd 0, .bbRdn, .bbMore, .bbFin, .bbLoad, .bbOut, .vcNew 0, .vcApp 0 false, .vcBit 0 0, .vcExt
   0 0 false, .vcWr 0, .trCount, .trBuild, .trFind 0 0, .trEnc 0, .trSer, .trDes, .codecEncode, .codecDecode,
   .decStart, .decStep]

theorem opcodeTable_eq : opcodeTable = oneOfEach.map rowOf := by decide

theorem exists_rowOf {r : OpcodeRow} (h : r ∈ opcodeTable) : ∃ i, rowOf i = r := by
  rw [opcodeTable_eq] at h
  obtain ⟨i, _, hi⟩ := List.mem_map.mp h
  exact ⟨i, hi⟩

theorem opcodeTable_fixedBits_nodup : (opcodeTable.map OpcodeRow.fixedBits).Nodup := by decide

/-- No two rows have the same opcode (30_encoding.md R103). -/
theorem rowOf_eq_of_opcodeOf_eq {i j : Instr} (h : opcodeOf i = opcodeOf j) : rowOf i = rowOf j :=
  List.inj_on_of_nodup_map opcodeTable_fixedBits_nodup (rowOf_mem i) (rowOf_mem j)
    (congrArg (fun op => joinWord (blankFields op)) h)

theorem and_mask_eq_zero_iff {n : Nat} (used : Bool) (x : BitVec n) {m : BitVec n} (hm : m = BitVec.allOnes n) :
    x &&& (if used = true then 0 else m) = 0 ↔ used = true ∨ x = 0 := by
  cases used <;> simp [hm]

theorem and_mask {n : Nat} (x : BitVec n) {m : BitVec n} (hm : m = BitVec.allOnes n) : x &&& m = x := by simp [hm]

/-- Mask and match of a row test what the decoder tests: the reserved bits, the operands the format does not use, and
the opcode (30_encoding.md R102, R106). -/
theorem selects_rowOf_iff (i : Instr) (w : CommandWord) : (rowOf i).selects w = true ↔
    reservedZero (splitWord w) = true ∧ unusedZero (formatOf i) (splitWord w) = true ∧
      opcodeOf i = (splitWord w).op := by
  have hselects : (rowOf i).selects w = true ↔
      joinWord (splitWord w) &&& joinWord (Laws.maskFields (formatOf i)) = joinWord (blankFields (opcodeOf i)) := by
    rw [joinWord_splitWord]
    exact beq_iff_eq
  rw [hselects, joinWord_and, Function.Injective.eq_iff fun _ _ => joinWord_injective]
  simp only [Laws.maskFields, blankFields, Fields.mk.injEq]
  simp (disch := decide) only [and_mask_eq_zero_iff, and_mask]
  simp only [reservedZero, unusedZero, Bool.and_eq_true, Bool.or_eq_true, beq_iff_eq]
  grind

/-- Settles O3: the row of the command a word decodes to selects it, and a row that selects a word has its opcode. -/
theorem decoderAgreesWithOpcodeTable : Obligations.DecoderAgreesWithOpcodeTable := by
  refine ⟨fun w m => ⟨?_, ?_⟩, ?_⟩
  · rintro ⟨i, hd, rfl⟩
    obtain ⟨hc, hr, hu⟩ := decode_eq_command_iff.mp hd
    exact ⟨rowOf i, rowOf_mem i, rfl, (selects_rowOf_iff i w).mpr ⟨hr, hu, opcodeOf_commandOf hc⟩⟩
  · rintro ⟨r, hmem, rfl, hsel⟩
    obtain ⟨i, rfl⟩ := exists_rowOf hmem
    obtain ⟨hr, hu, hop⟩ := (selects_rowOf_iff i w).mp hsel
    obtain ⟨j, hj, hfmt⟩ := commandOf_of_opcodeOf hop
    have hrow := rowOf_eq_of_opcodeOf_eq ((opcodeOf_commandOf hj).trans hop.symm)
    exact ⟨j, decode_eq_command_iff.mpr ⟨hj, hr, hfmt ▸ hu⟩, congrArg OpcodeRow.mnemonic hrow⟩
  · intro w r q hr hq hselr hselq
    obtain ⟨i, rfl⟩ := exists_rowOf hr
    obtain ⟨j, rfl⟩ := exists_rowOf hq
    obtain ⟨_, _, hopi⟩ := (selects_rowOf_iff i w).mp hselr
    obtain ⟨_, _, hopj⟩ := (selects_rowOf_iff j w).mp hselq
    exact rowOf_eq_of_opcodeOf_eq (hopi.trans hopj.symm)

/-! ### Words given -/

/-- Settles O5: nine closed words, each decoded by computation. -/
theorem specExampleWordsDecode : Obligations.SpecExampleWordsDecode := by
  refine ⟨?_, ?_, ?_, ?_, ?_, ?_, ?_, ?_, ?_⟩ <;> decide

/-- Settles O6: the word `withFetchWord` puts first is the command's own, and decodes to it. -/
theorem stepRunsTheNextCommand : Obligations.StepRunsTheNextCommand := by
  refine ⟨fun s w rest i => step_of_command, fun s i => ?_, fun s h => ?_⟩
  · have hword : BitVec.ofNat 64 ((encode i).toNat % 2 ^ 64) = encode i := by
      rw [Nat.mod_eq_of_lt (encode i).isLt, BitVec.ofNat_toNat, BitVec.setWidth_eq]
    exact step_of_command (congrArg (· :: s.commands) hword) (decode_encode i)
  · simp [step, takeCommand, h]

end Sys2Proof.Machine
end

section
/-! SUPPORT. The invariant of the block (10_state.md R25, R28, R31 to R33, R36): it holds at reset, the pseudocode of
every command keeps it, and so does every step. -/

namespace Sys2Proof.Machine

/-! ### Reset -/

theorem widest_allowed : Config.Capacities.widest.Allowed := by
  constructor <;> decide

theorem inv_resetWith {c : Config.Capacities} (hc : c.Allowed) (waiting : List CommandWord) (given : List Response) :
    (resetWith c waiting given).Inv where
  caps := hc
  buffer := bufferInv_fresh _
  codes := fun r => by rw [readCode_resetWith]; exact codeWf_empty
  ilen := Nat.zero_le _
  ipos := Nat.zero_le _
  olen := Nat.zero_le _
  tree := by simp [fitsStore, resetWith, State.reset, nodeCount, levelCount]
  nodes := Nat.two_pow_pos 32
  walking := fun hrun => nomatch hrun
  resting := fun _ => rfl

/-- Settles O9: the reset state is a `resetWith` of the widest capacities. -/
theorem resetMeetsTheInvariant : Obligations.ResetMeetsTheInvariant :=
  inv_resetWith widest_allowed [] []

/-! ### The pseudocode of the commands -/

variable {s : State}

/-- The input replaced together with its cursor. -/
theorem State.Inv.setInput (h : s.Inv) {b : List Byte} {p : Nat} (hb : b.length ≤ s.caps.ibufMax) (hp : p ≤ b.length) :
    ((s.setIbuf b).setIpos p).Inv :=
  ⟨h.caps, h.buffer, h.codes, hb, hp, h.olen, h.tree, h.nodes, h.walking, h.resting⟩

theorem inv_doBbWr (h : s.Inv) (v : Bool) (pos : Word) : (doBbWr v pos s).state.Inv := by
  unfold doBbWr
  split
  · exact h
  · exact h.setBb (h.buffer.bitWrite (by omega) v)

theorem inv_doBbWrn (h : s.Inv) (v : Bool) : (doBbWrn v s).state.Inv := by
  unfold doBbWrn
  split
  · exact h
  split
  · exact h
  · exact h.setBb (h.buffer.bitWriteNext (by omega) v)

theorem inv_doBbRd (h : s.Inv) (pos : Word) : (doBbRd pos s).state.Inv := by
  unfold doBbRd
  split <;> exact h

theorem inv_doBbRdn (h : s.Inv) : (doBbRdn s).state.Inv := by
  unfold doBbRdn
  split
  · exact h
  split <;> exact h.setBb h.buffer.advanceCursor

theorem inv_doBbOut (h : s.Inv) : (doBbOut s).state.Inv := by
  obtain ⟨_, hout⟩ | ⟨hroom, hout⟩ := doBbOut_cases s
  · exact hout ▸ h
  · exact hout ▸ h.setObuf (by rwa [List.length_append, bufferBytes_length])

theorem inv_doTrSer (h : s.Inv) : (doTrSer s).state.Inv := by
  obtain ⟨_, hser⟩ | ⟨hroom, hser⟩ := doTrSer_cases s
  · exact hser ▸ h
  · exact hser ▸ h.setObuf (by rwa [List.length_append])

theorem inv_doWriteCode (h : s.Inv) (c : Code) : (doWriteCode c s).state.Inv := by
  obtain ⟨_, hwr⟩ | ⟨hfit, hwr⟩ := doWriteCode_cases c s
  · exact hwr ▸ h
  · exact hwr ▸ h.setBb (hfit.bufferInv h.buffer)

theorem inv_doTrEnc (h : s.Inv) (x : Byte) : (doTrEnc x s).state.Inv := by
  unfold doTrEnc
  split
  · exact h
  · exact h
  · exact inv_doWriteCode h _

/-! ### Every command -/

/-- The command completes, in a state that meets the invariant. -/
def EndsInv (o : Host.Outcome State Fault Refusal) : Prop := ∃ f, o = complete f ∧ f.state.Inv

theorem endsInv_complete {f : Finished} (h : f.state.Inv) : EndsInv (complete f) := ⟨f, rfl, h⟩

theorem EndsInv.inv {o : Host.Outcome State Fault Refusal} {t : State} (h : EndsInv o) (ht : o = .next t) : t.Inv := by
  obtain ⟨f, hf, hinv⟩ := h
  rw [complete_next (hf.symm.trans ht)]
  exact hinv.answer _

theorem endsInv_ite {c : Prop} [Decidable c] {f g : Finished} (hf : f.state.Inv) (hg : ¬ c → g.state.Inv) :
    EndsInv (if c then complete f else complete g) := by
  split
  · exact endsInv_complete hf
  · next hc => exact endsInv_complete (hg hc)

/-- A code with room for one bit more, extended into a register (41_vlc.md R164). -/
theorem endsInv_vcExt (h : s.Inv) (d r : CodeReg) (v : Bool) : EndsInv (execVcExt d r v s) :=
  endsInv_ite h fun hroom => h.setCode d (codeWf_appendBit (h.codes r) (h.readCode_len_lt hroom) v)

theorem endsInv_trBuild (h : s.Inv) : EndsInv (execTrBuild s) := by
  refine endsInv_ite h fun hsum => ?_
  have hsum' : counterSum s.freq < 2 ^ 32 := by omega
  have hnodes := (treeify_size hsum').1
  exact h.install (fitsStore_treeify h.caps hsum') (by omega)

theorem endsInv_trFind (h : s.Inv) (d : CodeReg) (x : Byte) : EndsInv (execTrFind d x s) := by
  unfold execTrFind
  split
  · exact endsInv_complete h
  · exact endsInv_complete h
  · next c hfound => exact endsInv_complete (h.setCode d (findSymbol_found hfound).1)

theorem endsInv_exec (h : s.Inv) (i : Instr) : EndsInv (exec i s) := by
  cases i with
  | reset => exact endsInv_complete (inv_resetWith h.caps s.commands s.responses)
  | csrr num =>
    show EndsInv (execCsrr num s)
    unfold execCsrr
    split <;> exact endsInv_complete h
  | ibClr => exact endsInv_complete (h.setInput (Nat.zero_le _) (Nat.zero_le _))
  | ibPut x =>
    refine endsInv_ite h fun hroom => h.setInput (b := s.ibuf ++ [x]) (p := s.ipos) ?_ ?_ <;>
      rw [List.length_append, List.length_singleton]
    · have := h.ilen
      omega
    · exact h.ipos.trans (Nat.le_succ _)
  | ibSeek pos => exact endsInv_ite h fun hin => h.setIpos (by omega)
  | obClr => exact endsInv_complete (h.setObuf (Nat.zero_le _))
  | obGet k =>
    show EndsInv (execObGet k s)
    unfold execObGet
    split <;> exact endsInv_complete h
  | fqSet x v => exact endsInv_complete (h.setFreq _)
  | fqGet x => exact endsInv_complete h
  | bbNew => exact endsInv_complete (h.setBb (bufferInv_fresh _))
  | bbWr v pos => exact endsInv_complete (inv_doBbWr h v pos)
  | bbWrn v => exact endsInv_complete (inv_doBbWrn h v)
  | bbRd pos => exact endsInv_complete (inv_doBbRd h pos)
  | bbRdn => exact endsInv_complete (inv_doBbRdn h)
  | bbMore => exact endsInv_complete h
  | bbFin => exact endsInv_complete (h.setBb (bufferInv_final h.buffer))
  | bbLoad => exact endsInv_complete (inv_doBbLoad h)
  | bbOut => exact endsInv_complete (inv_doBbOut h)
  | vcNew d => exact endsInv_complete (h.setCode d codeWf_empty)
  | vcApp d v => exact endsInv_vcExt h d d v
  | vcBit r k => exact endsInv_ite h fun _ => h
  | vcExt d r v => exact endsInv_vcExt h d r v
  | vcWr r => exact endsInv_complete (inv_doWriteCode h _)
  | trCount => exact endsInv_complete (h.setFreq _)
  | trBuild => exact endsInv_trBuild h
  | trFind d x => exact endsInv_trFind h d x
  | trEnc x => exact endsInv_complete (inv_doTrEnc h x)
  | trSer => exact endsInv_complete (inv_doTrSer h)
  | trDes => exact endsInv_complete (inv_doTrDes h)
  | codecEncode => exact endsInv_complete (inv_doEncode h)
  | codecDecode => exact endsInv_complete (inv_doDecode h)
  | decStart => exact endsInv_complete (inv_doDecStart h)
  | decStep => exact endsInv_complete (inv_doDecStep h)

/-- Settles O10: taking a word from the queue and answering an illegal one touch nothing the invariant speaks of. -/
theorem everyStepKeepsTheInvariant : Obligations.EveryStepKeepsTheInvariant := by
  intro s t h ht
  cases hq : s.commands with
  | nil =>
    have hidle : step s = .next s := by simp [step, takeCommand, hq]
    cases hidle.symm.trans ht
    exact h
  | cons w rest =>
    cases hd : decode w with
    | command i =>
      rw [step_of_command hq hd] at ht
      exact (endsInv_exec (h.setCommands rest) i).inv ht
    | illegal why =>
      rw [step_of_illegal hq hd] at ht
      cases ht
      exact (h.setCommands rest).answer _

end Sys2Proof.Machine
end

section
/-! SUPPORT. The whole-machine rules: the one response (30_encoding.md R104), who reads `STATUS` (10_state.md R37), who
writes each unit (10_state.md R25 to R36), and what a failure leaves (60_exceptions.md R296, R300). -/

namespace Sys2Proof.Machine

/-! ### The response and STATUS -/

/-- Settles O11: the response and the error data are those of the end of the command's pseudocode, and no command writes
the capacities or the queue. -/
theorem everyCommandGetsOneResponse : Obligations.EveryCommandGetsOneResponse := by
  intro i s
  obtain ⟨f, hf⟩ := exec_shape i s
  exact ⟨_, _, _, hf.ex.trans (complete_eq f), responded_answer s _ hf.resp _ _, hf.keeps.caps, hf.keeps.commands,
    hf.data⟩

/-- No register but 0x00 shows `STATUS` (10_state.md R38). -/
theorem readCsr_reAnswer {num : Byte} (h : num ≠ 0) (e : Status) (rs : List Response) (s : State) :
    readCsr (s.reAnswer e rs) num = readCsr s num := by
  have hnum : num.toNat ≠ 0 := fun h0 => h (BitVec.eq_of_toNat_eq h0)
  unfold readCsr
  split
  case h_1 h0 => exact absurd h0 hnum
  all_goals rfl

theorem exec_csrr_reAnswer {num : Byte} (h : num ≠ 0) (e : Status) (s : State) :
    exec (.csrr num) (s.reAnswer e s.responses) = exec (.csrr num) s := by
  show execCsrr _ _ = execCsrr _ _
  unfold execCsrr
  rw [readCsr_reAnswer h]
  cases readCsr s num <;> rfl

/-- A command completes from the responses given before it. -/
theorem responses_of_exec {i : Instr} {s : State} {f : Finished} (h : exec i s = complete f) :
    f.state.responses = s.responses :=
  List.append_cancel_right (responded_of_exec h rfl rfl).2

/-- A command whose pseudocode does not depend on `STATUS` does not either: its end writes `STATUS` whole. -/
theorem exec_reAnswer_of_pseudocode {i : Instr} {g : State → Finished} (hi : ∀ s, exec i s = complete (g s))
    (hg : ∀ e rs s, g (s.reAnswer e rs) = (g s).reAnswer e rs) (e : Status) (s : State) :
    exec i (s.reAnswer e s.responses) = exec i s := by
  rw [hi, hi]
  exact complete_status (hg e s.responses s) (responses_of_exec (hi s))

theorem doBbWr_reAnswer (v : Bool) (pos : Word) (e : Status) (rs : List Response) (s : State) :
    doBbWr v pos (s.reAnswer e rs) = (doBbWr v pos s).reAnswer e rs := by
  unfold doBbWr
  rw [apply_ite (Finished.reAnswer e rs)]
  rfl

theorem doBbWrn_reAnswer (v : Bool) (e : Status) (rs : List Response) (s : State) :
    doBbWrn v (s.reAnswer e rs) = (doBbWrn v s).reAnswer e rs := by
  unfold doBbWrn
  simp only [apply_ite (Finished.reAnswer e rs)]
  rfl

theorem doBbRd_reAnswer (pos : Word) (e : Status) (rs : List Response) (s : State) :
    doBbRd pos (s.reAnswer e rs) = (doBbRd pos s).reAnswer e rs := by
  unfold doBbRd
  rw [show (s.reAnswer e rs).bb = s.bb from rfl]
  cases bitRead s.bb pos.toNat <;> rfl

theorem doBbRdn_reAnswer (e : Status) (rs : List Response) (s : State) :
    doBbRdn (s.reAnswer e rs) = (doBbRdn s).reAnswer e rs := by
  unfold doBbRdn
  rw [show (s.reAnswer e rs).bb = s.bb from rfl, apply_ite (Finished.reAnswer e rs)]
  cases bitRead s.bb s.bb.cursor.toNat <;> rfl

theorem exec_reAnswer {i : Instr} (h : i ≠ .csrr 0) : ∀ (e : Status) (s : State),
    exec i (s.reAnswer e s.responses) = exec i s := by
  cases i with
  | csrr num => exact exec_csrr_reAnswer fun h0 => h (congrArg Instr.csrr h0)
  | bbWr v pos => exact exec_reAnswer_of_pseudocode (fun _ => rfl) (doBbWr_reAnswer v pos)
  | bbWrn v => exact exec_reAnswer_of_pseudocode (fun _ => rfl) (doBbWrn_reAnswer v)
  | bbRd pos => exact exec_reAnswer_of_pseudocode (fun _ => rfl) (doBbRd_reAnswer pos)
  | bbRdn => exact exec_reAnswer_of_pseudocode (fun _ => rfl) doBbRdn_reAnswer
  | bbLoad => exact exec_reAnswer_of_pseudocode (fun _ => rfl) doBbLoad_reAnswer
  | bbOut => exact exec_reAnswer_of_pseudocode (fun _ => rfl) doBbOut_reAnswer
  | vcWr r => exact exec_reAnswer_of_pseudocode (fun _ => rfl) fun e rs s => doWriteCode_reAnswer e rs (readCode s r) s
  | trEnc x => exact exec_reAnswer_of_pseudocode (fun _ => rfl) fun e rs => doTrEnc_reAnswer e rs x
  | trSer => exact exec_reAnswer_of_pseudocode (fun _ => rfl) doTrSer_reAnswer
  | trDes => exact exec_reAnswer_of_pseudocode (fun _ => rfl) doTrDes_reAnswer
  | codecEncode => exact exec_reAnswer_of_pseudocode (fun _ => rfl) doEncode_reAnswer
  | codecDecode => exact exec_reAnswer_of_pseudocode (fun _ => rfl) doDecode_reAnswer
  | decStart => exact exec_reAnswer_of_pseudocode (fun _ => rfl) doDecStart_reAnswer
  | decStep => exact exec_reAnswer_of_pseudocode (fun _ => rfl) doDecStep_reAnswer
  | _ => exact fun _ _ => rfl

/-- Settles O12: replacing `STATUS` alone is a `reAnswer` with the responses that were given. -/
theorem statusIsReadOnlyByCsrr : Obligations.StatusIsReadOnlyByCsrr := fun _ s e h => exec_reAnswer h e s

/-! ### Who writes what -/

/-- The commands the spec lists as writers of a unit. -/
def writersOf : BlockUnit → List String
  | .bb => writersOfBb
  | .codes => writersOfCodes
  | .freq => writersOfFreq
  | .tree => writersOfTree
  | .walk => writersOfWalk
  | .ibuf => writersOfIbuf
  | .ipos => writersOfIpos
  | .obuf => writersOfObuf

/-- What a command writes by its rule, the unit's list names it as a writer of. -/
theorem mnemonicOf_mem_writersOf (i : Instr) : ∀ u ∈ writes i, mnemonicOf i ∈ writersOf u := by
  cases i <;> simp [writes, mnemonicOf, writersOf, writersOfBb, writersOfCodes, writersOfFreq, writersOfTree,
    writersOfWalk, writersOfIbuf, writersOfIpos, writersOfObuf]

/-- Settles O51: a unit whose list does not name the command is none the command writes. -/
theorem onlyTheListedCommandsWrite : Obligations.OnlyTheListedCommandsWrite := by
  intro i s t h
  have hk := keepsAllBut_of_exec h
  have hw (u : BlockUnit) (hu : mnemonicOf i ∉ writersOf u) : u ∉ writes i := fun hmem =>
    hu (mnemonicOf_mem_writersOf i u hmem)
  exact ⟨fun hu => hk.codes (hw .codes hu), fun hu => hk.freq (hw .freq hu), fun hu => hk.tree (hw .tree hu),
    fun hu => hk.walk (hw .walk hu), fun hu => hk.ibuf (hw .ibuf hu), fun hu => hk.ipos (hw .ipos hu),
    fun hu => hk.obuf (hw .obuf hu), fun hu => hk.bb (hw .bb hu)⟩

/-! ### Failures -/

/-- Settles O52: the end of the pseudocode of such a failure is the state it began in. -/
theorem failedCommandsChangeNothing : Obligations.FailedCommandsChangeNothing := by
  intro i s t h hfail
  obtain ⟨f, hf⟩ := exec_shape i s
  obtain rfl := hf.next h
  have hsame (hs : f.state = s) : KeepsAllBut [] s (f.state.answer ⟨f.status, f.data⟩) := by
    rw [hs]
    exact keeps_answer s _
  exact ⟨fun hm => hsame (hf.fail hfail hm), fun hill => hsame (hf.illegal hill)⟩

/-- Settles O53: these failures empty the output before they raise. -/
theorem failedCodecsLeaveNoOutput : Obligations.FailedCodecsLeaveNoOutput := by
  intro i s t hm h hfail hlegal
  obtain ⟨f, hf⟩ := exec_shape i s
  obtain rfl := hf.next h
  exact hf.noout hm hfail hlegal

end Sys2Proof.Machine
end

section
/-! SUPPORT. The state diagram of the walk (44_codec.md R244), edge by edge: where each command that can change `DSTATE`
leaves it. -/

namespace Sys2Proof.Machine

variable {s t : State}

/-! ### The commands that stop the walk -/

theorem dstate_of_reset (h : exec .reset s = .next t) : t.dstate = .idle := by
  cases h
  rfl

theorem dstate_of_codecEncode (h : exec .codecEncode s = .next t) : t.dstate = .idle := by
  obtain ⟨b, o, hstate⟩ := doEncode_state s
  rw [complete_next h, hstate]
  rfl

theorem exec_trBuild_refused (h : counterSum s.freq ≥ 2 ^ 32) :
    exec .trBuild s = complete (raise .capacityExceeded s) := if_pos h

theorem exec_trBuild (h : counterSum s.freq < 2 ^ 32) : exec .trBuild s =
    .next ((installTree s (treeify s.freq)).answer ⟨.ok, lengthWord (nodeCount (treeify s.freq))⟩) :=
  if_neg (Nat.not_le.mpr h)

theorem dstate_of_trBuild (h : exec .trBuild s = .next t) (hok : t.status = .ok) : t.dstate = .idle := by
  by_cases hsum : counterSum s.freq < 2 ^ 32
  · cases (exec_trBuild hsum).symm.trans h
    rfl
  · cases (exec_trBuild_refused (Nat.not_lt.mp hsum)).symm.trans h
    cases hok

theorem exec_trDes (s : State) : exec .trDes s = complete (doTrDes s) := rfl

theorem dstate_of_trDes (h : exec .trDes s = .next t) (hok : t.status = .ok) : t.dstate = .idle := by
  obtain rfl := complete_next ((exec_trDes s).symm.trans h)
  obtain ⟨e, he, hdes⟩ | ⟨tree, rest, _, _, _, _, hdes⟩ := doTrDes_cases s <;> rw [hdes] at hok ⊢
  · obtain rfl | rfl := he <;> cases hok
  · rfl

/-! ### DEC.START and DEC.STEP -/

theorem dstate_of_decStart (h : exec .decStart s = .next t) : t.dstate =
    if isAbsent s.tree then .fail else if isLeaf s.tree then (if t.status = .ok then .done else .fail) else .run := by
  obtain rfl := complete_next ((exec_decStart s).symm.trans h)
  cases ha : isAbsent s.tree with
  | true =>
    rw [doDecStart_absent (isAbsent_iff.mp ha)]
    rfl
  | false =>
    cases hl : isLeaf s.tree with
    | false =>
      rw [doDecStart_inner ha hl]
      rfl
    | true =>
      obtain ⟨x, n, htree⟩ := isLeaf_iff.mp hl
      by_cases hx : x = Config.eosByte
      · rw [doDecStart_sentinel (hx ▸ htree)]
        rfl
      · rw [doDecStart_leaf htree hx]
        rfl

theorem dstate_of_decStep_of_ne_run (h : exec .decStep s = .next t) (hr : s.dstate ≠ .run) :
    t.dstate = s.dstate ∧ t.status = .illegalCommand := by
  cases (exec_decStep_of_ne_run hr).symm.trans h
  exact ⟨rfl, rfl⟩

theorem dstate_of_decStep (h : exec .decStep s = .next t) (hr : s.dstate = .run) :
    (t.status ≠ .ok ↔ t.dstate = .fail) ∧ t.dstate ≠ .idle := by
  obtain rfl := complete_next ((exec_decStep s).symm.trans h)
  obtain ⟨e, c, he, hstep⟩ | ⟨_, _, hstep | ⟨o, p, _, _, _, hstep⟩⟩ := doDecStep_run hr <;> rw [hstep]
  · exact ⟨iff_of_true he.ne_ok rfl, nofun⟩
  · exact ⟨iff_of_false (fun h => h rfl) nofun, nofun⟩
  · exact ⟨iff_of_false (fun h => h rfl) nofun, nofun⟩

/-! ### DECODE -/

theorem dstate_of_codecDecode (h : exec .codecDecode s = .next t) (hok : t.status = .ok) : t.dstate = .done := by
  obtain rfl := complete_next ((exec_codecDecode s).symm.trans h)
  obtain ⟨herr, _⟩ | ⟨_, _, hdone⟩ := doDecode_end s
  · exact absurd hok herr.ne_ok
  · exact hdone

/-- Where a failing `DECODE` leaves the walk: as it was when no tree was read, idle when the payload did not fit, and
failed otherwise. -/
theorem dstate_of_codecDecode_failed (h : exec .codecDecode s = .next t) (hfail : t.status ≠ .ok) :
    t.dstate = .fail ∨ t.dstate = .idle ∨ (t.dstate = s.dstate ∧ t.tree = s.tree) := by
  obtain rfl := complete_next ((exec_codecDecode s).symm.trans h)
  obtain ⟨e, _, hdec⟩ | ⟨tree, rest, _, _, _, _, hdec | ⟨_, u, rfl, ⟨e, _, hdec⟩ | ⟨d, _, hdec⟩⟩⟩ :=
    doDecode_cases s <;> rw [hdec] at hfail ⊢
  · exact .inr (.inr ⟨rfl, rfl⟩)
  · exact .inr (.inl rfl)
  · exact .inl rfl
  · obtain ⟨c, o, d', p, _, hstate, ⟨_, _, _, rfl, _⟩ | ⟨hok, _⟩⟩ := decodeLoop_cases (8 * rest.length + 1) _
    · exact .inl (congrArg State.dstate hstate)
    · exact absurd hok hfail

/-- Settles O50: one edge of the diagram after the other. -/
theorem walkFollowsItsStateDiagram : Obligations.WalkFollowsItsStateDiagram := by
  intro i s t _ h
  refine ⟨?_, ?_, ?_, ?_, ?_, ?_, ?_⟩
  · rintro (rfl | rfl | ⟨rfl | rfl, hok⟩)
    · exact dstate_of_reset h
    · exact dstate_of_codecEncode h
    · exact dstate_of_trBuild h hok
    · exact dstate_of_trDes h hok
  · rintro rfl
    exact dstate_of_decStart h
  · rintro rfl
    exact dstate_of_decStep_of_ne_run h
  · rintro rfl
    exact dstate_of_decStep h
  · rintro rfl
    exact dstate_of_codecDecode h
  · rintro rfl
    exact dstate_of_codecDecode_failed h
  · intro hm
    exact (keepsAllBut_of_exec h).walk fun hw => hm (mnemonicOf_mem_writersOf i .walk hw)

end Sys2Proof.Machine
end

section
/-! SUPPORT. Bits written and read back (20_memory.md R67), the three tests of the cursor's byte (40_bitbuffer.md R138),
the commands at the cursor as their expansions (30_encoding.md R109), and the independence of codes (41_vlc.md R166). -/

namespace Sys2Proof.Machine

/-! ### BB.MORE and the other bounds tests -/

theorem exec_bbMore (s : State) : exec .bbMore s =
    .next (s.answer ⟨.ok, bitWord (decide (s.bb.cursor.toNat / 8 < s.bb.size))⟩) := rfl

theorem responded_one_iff (s : State) (v : Bool) : Responded s (s.answer ⟨.ok, bitWord v⟩) .ok 1 ↔ v = true := by
  cases v <;> simp [Responded, bitWord]

theorem bitRead_ne_none_iff (b : BitBuffer) (p : Nat) : bitRead b p ≠ none ↔ p / 8 < b.size := by
  simp [bitRead]

theorem readResponse_ne_indexOutOfRange_iff (b : BitBuffer) (p : Nat) :
    (readResponse b p).status ≠ .indexOutOfRange ↔ p / 8 < b.size := by
  by_cases h : p / 8 < b.size
  · simp [readResponse_status_of_lt h, h]
  · simp [readResponse_of_size_le (Nat.not_lt.mp h), h]

/-- Settles O25: each of the three tests is whether the cursor's byte is within the size. -/
theorem bbMoreTestsTheCursor : Obligations.BbMoreTestsTheCursor := by
  refine ⟨⟨rfl, rfl⟩, by decide, fun s => ⟨_, exec_bbMore s, keeps_answer _ _, ?_, ?_, fun hlast => ?_⟩⟩
  · simpa [bitWord] using responded_answer s s rfl .ok (bitWord (decide (s.bb.cursor.toNat / 8 < s.bb.size)))
  · rw [responded_one_iff, bitRead_ne_none_iff, decide_eq_true_iff]
  · rw [responded_one_iff, decide_eq_true_iff, ← readResponse_ne_indexOutOfRange_iff, exec_bbRdn hlast]
    exact ⟨fun h => ⟨_, rfl, h⟩, fun ⟨_, hu, h⟩ => by cases hu; exact h⟩

/-! ### A bit written and read back -/

theorem readResponse_of_bitRead {b : BitBuffer} {p : Nat} {v : Bool} (h : bitRead b p = some v) :
    readResponse b p = ⟨.ok, bitWord v⟩ := by
  simp only [readResponse, h]

theorem readResponse_congr {b c : BitBuffer} {p : Nat} (h : bitRead b p = bitRead c p) :
    readResponse b p = readResponse c p := by
  simp only [readResponse, h]

/-- Settles O29: the answer of a read is a function of what `BitRead` gives, and the three clauses are those of
`BitWritten`. -/
theorem writtenBitsAreReadBack : Obligations.WrittenBitsAreReadBack := by
  intro s v p q hs hcap
  have hwritten := bitWritten_bitWrite hs.buffer hcap v
  refine ⟨_, _, _, exec_bbWr hcap v, exec_bbRd _ q, exec_bbRd s q, ?_, ?_, ?_⟩
  · rintro rfl
    rw [answer_bb, setBb_bb, readResponse_of_bitRead hwritten.written]
    exact responded_answer _ _ rfl _ _
  · intro hq hold
    have hsame := hwritten.otherBits q.toNat (fun h => hq (BitVec.eq_of_toNat_eq h)) hold
    simp [readResponse_congr hsame]
  · intro hq hnew hin
    rw [answer_bb, setBb_bb,
      readResponse_of_bitRead (hwritten.newBits q.toNat (fun h => hq (BitVec.eq_of_toNat_eq h)) hnew hin)]
    exact responded_answer _ _ rfl _ _

/-! ### The commands at the cursor -/

theorem bitWriteNext_eq (bbMax : Nat) (b : BitBuffer) (v : Bool) : bitWriteNext bbMax b v =
    { bitWrite bbMax b b.cursor.toNat v with cursor := (bitWrite bbMax b b.cursor.toNat v).cursor + 1 } := by
  rw [bitWrite_cursor]
  rfl

/-- `BB.WRN` of bits in order, where they fit, leaves the buffer that writing them at the cursor leaves
(41_vlc.md R165). -/
theorem execUntilError_bbWrn : ∀ (bits : List Bool) (s : State),
    s.bb.cursor.toNat + bits.length ≤ Config.lastPosition →
    (bits ≠ [] → (s.bb.cursor.toNat + bits.length - 1) / 8 < s.caps.bbMax) →
    ∃ u, execUntilError (bits.map .bbWrn) s = some u ∧ SameBlock (s.setBb (bitWriteAll s.caps.bbMax s.bb bits)) u
  | [], s, _, _ => ⟨s, rfl, sameBlock_reAnswer s.status s.responses s⟩
  | v :: rest, s, hpos, hcap => by
    rw [List.length_cons] at hpos hcap
    have hlast := hcap (List.cons_ne_nil _ _)
    have hne : s.bb.cursor.toNat ≠ Config.lastPosition := by omega
    have hcur := bitWriteNext_cursor (bbMax := s.caps.bbMax) hne v
    have hexec := exec_bbWrn hne (Nat.lt_of_le_of_lt (Nat.div_le_div_right (by omega)) hlast) v
    obtain ⟨u, hu, hsame⟩ := execUntilError_bbWrn rest
      ((s.setBb (bitWriteNext s.caps.bbMax s.bb v)).answer ⟨.ok, 0⟩)
      (by simp only [answer_bb, setBb_bb, hcur]; omega)
      (fun _ => by
        simp only [answer_bb, setBb_bb, hcur, answer_caps, setBb_caps]
        rwa [Nat.add_assoc, Nat.add_comm 1])
    exact ⟨u, (execUntilError_ok _ hexec rfl).trans hu, hsame⟩

/-- Settles O35: each command at the cursor is one equation, and so is its expansion. -/
theorem compositionsAreTheirExpansions : Obligations.CompositionsAreTheirExpansions := by
  intro s hs hlast
  refine ⟨fun v hcap => ?_, ?_, fun r hfit => ?_⟩
  · refine ⟨_, exec_bbWr hcap v, ?_⟩
    rw [exec_bbWrn hlast hcap, bitWriteNext_eq]
    rfl
  · exact ⟨_, exec_bbRd s s.bb.cursor, exec_bbRdn hlast⟩
  · obtain ⟨hpos, hcap⟩ := hfit.premises
    obtain ⟨u, hu, hsame⟩ := execUntilError_bbWrn (codeBits (readCode s r)) s hpos hcap
    rw [codeBits, List.map_map] at hu
    exact ⟨_, u, exec_vcWr hfit, hu, hsame⟩

/-! ### Two codes extended from one -/

/-- Settles O36: the second extension reads the source as it was, for the first wrote another register. -/
theorem extensionsAreIndependent : Obligations.ExtensionsAreIndependent := by
  intro s r p q hs hpr hqr hpq hlt
  have hroom : (readCode s r).len ≠ 32 := Nat.ne_of_lt hlt
  have hbits := getLsbD_appendBit (hs.codes r) hlt
  have hfirst := exec_vcExt hroom p false
  have hsource : readCode ((s.setCode p (appendBit (readCode s r) false)).answer
      ⟨.ok, lengthWord ((readCode s r).len + 1)⟩) r = readCode s r := readCode_setCode_of_ne s hpr.symm _
  have hsecond := exec_vcExt (hsource ▸ hroom) q true
  rw [hsource] at hsecond
  refine ⟨_, (execAll_next _ hfirst).trans (execAll_next [] hsecond), ?_⟩
  simp only [readCode_answer, readCode_setCode, hqr.symm, hpr.symm, hpq, if_true, if_false, appendBit_len, hbits,
    true_and]
  refine ⟨?_, ?_⟩
  · intro k hk
    rw [if_neg hk, if_neg hk]
  · exact fun k hk => if_neg (Nat.ne_of_lt hk)

end Sys2Proof.Machine
end

section
/-! SUPPORT. Building a tree, the working list of the sorter, and the symbol search (42_tree.md R182 to R196): each
command as one equation per outcome, and the statements about them. -/

namespace Sys2Proof.Machine

/-! ### TR.BUILD -/

/-- Settles O38: the stored tree is `treeify` of the counters, and its shape is that of a built tree (R186). -/
theorem trBuildBuildsTheTree : Obligations.TrBuildBuildsTheTree := by
  refine ⟨⟨rfl, rfl⟩, by decide, fun s => ⟨?_, ?_⟩⟩
  · intro hsum
    rw [exec_trBuild_refused hsum]
    exact complete_raise_unchanged _ s
  · intro hsum
    have hnodes := (treeify_size hsum).1
    refine ⟨_, _, exec_trBuild hsum, responded_answer s _ rfl _ _, lengthWord_toNat (by omega),
      keeps_installTree _ _ _, rfl, rfl, rfl, treeify_absent, fun hne => ?_⟩
    obtain ⟨hshape, hroot, hleaves⟩ := treeify_spec hsum hne
    exact ⟨hshape, hleaves, hroot, hleaves.length_eq ▸ nodeCount_of_builtShape hshape⟩

/-! ### The working list -/

/-- The order of the working list is total on distinct sequence numbers, so one list alone is sorted and has given
entries (42_tree.md R182). -/
theorem sortEntries_eq_of_perm {m l : List SortEntry} (hperm : m.Perm l) (hseq : (l.map SortEntry.seq).Nodup)
    (hl : SortedEntries l) : sortEntries m = l := by
  have hm := sorted_sortEntries m ((hperm.map SortEntry.seq).nodup_iff.mpr hseq)
  exact ((sortEntries_perm m).trans hperm).eq_of_pairwise
    (fun a b _ _ hab hba => absurd hba (entryBefore_asymm hab)) hm hl

/-- Settles O40: the insertion is sorted and has these entries, and so is every sort of them. -/
theorem insertionIsReSorting : Obligations.InsertionIsReSorting := by
  intro e l hseq hl
  have hperm := insertEntry_perm e l
  have hsorted : SortedEntries (insertEntry e l) := by
    refine sorted_insertEntry e l hl fun x hx heq => ?_
    rw [List.map_cons, List.nodup_cons] at hseq
    exact hseq.1 (heq ▸ List.mem_map_of_mem hx)
  have hsort (m : List SortEntry) (hm : m.Perm (e :: l)) : sortEntries m = insertEntry e l :=
    sortEntries_eq_of_perm (hm.trans hperm.symm) ((hperm.map SortEntry.seq).nodup_iff.mpr hseq) hsorted
  exact ⟨hsort _ (List.perm_append_singleton e l), hperm, hsorted, hsort⟩

/-! ### The symbol search -/

theorem firstStop_zero (t : HuffTree) (x : Byte) : firstStop 0 x t = searchStop t x := by
  simp only [firstStop, searchStop, Nat.zero_add]

variable {t : HuffTree} {x y : Byte} {path : List Bool}

theorem findSymbol_of_no_stop (h : searchStop t x = none) : findSymbol t x = .notFound := by
  have hspec := findSymbol_spec t x
  rwa [firstStop_zero, h] at hspec

theorem findSymbol_of_deep_stop (h : searchStop t x = some (path, y)) (hdeep : path.length > 32) :
    findSymbol t x = .overflow := by
  have hspec := findSymbol_spec t x
  rw [firstStop_zero, h] at hspec
  have hlen : 32 < Code.empty.len + path.length := by simpa [Code.empty] using hdeep
  exact (if_pos hlen).mp hspec

/-- A code holds the path of a leaf: bit `i` of the code is edge `i` of the path, and the code is canonical
(42_tree.md R190 (a); 10_state.md R25). -/
structure HoldsPath (c : Code) (path : List Bool) : Prop where
  len : c.len = path.length
  bits : codeBits c = path
  wf : codeWf c = true

theorem findSymbol_of_stop (h : searchStop t x = some (path, y)) (hshallow : path.length ≤ 32) :
    ∃ c, findSymbol t x = .found c ∧ HoldsPath c path := by
  have hspec := findSymbol_spec t x
  rw [firstStop_zero, h] at hspec
  have hlen : ¬ 32 < Code.empty.len + path.length := by simpa [Code.empty] using hshallow
  obtain ⟨c, hfound, hwf, hbits⟩ := (if_neg hlen).mp hspec
  rw [codeBits_empty, List.nil_append] at hbits
  exact ⟨c, hfound, by rw [← codeBits_length, hbits], hbits, hwf⟩

theorem HoldsPath.getLsbD {c : Code} (h : HoldsPath c path) (k : Nat) : c.bits.getLsbD k = path.getD k false := by
  by_cases hk : k < c.len
  · rw [← codeBits_getD c k hk, h.bits]
  · rw [((codeWf_iff c).mp h.wf).2 k (Nat.not_lt.mp hk), List.getD_eq_default _ _ (h.len ▸ Nat.not_lt.mp hk)]

/-! ### TR.FIND -/

variable {s : State}

theorem exec_trFind_notFound (h : findSymbol s.tree x = .notFound) (d : CodeReg) :
    exec (.trFind d x) s = complete (raise .symbolNotFound s) := by
  simp only [exec, execTrFind, h]

theorem exec_trFind_overflow (h : findSymbol s.tree x = .overflow) (d : CodeReg) :
    exec (.trFind d x) s = complete (raise .encodingOverflow s) := by
  simp only [exec, execTrFind, h]

theorem exec_trFind {c : Code} (h : findSymbol s.tree x = .found c) (d : CodeReg) :
    exec (.trFind d x) s = .next ((s.setCode d c).answer ⟨.ok, lengthWord c.len⟩) := by
  simp only [exec, execTrFind, h, complete_respond]

/-- Settles O41: the search ends as `searchStop` says, and the code found holds the path. -/
theorem trFindGivesThePath : Obligations.TrFindGivesThePath := by
  intro s d x
  refine ⟨⟨rfl, rfl⟩, ?_, ?_, ?_⟩
  · intro hstop
    rw [exec_trFind_notFound (findSymbol_of_no_stop hstop)]
    exact complete_raise_unchanged _ s
  · intro path y hstop hdeep
    rw [exec_trFind_overflow (findSymbol_of_deep_stop hstop hdeep)]
    exact complete_raise_unchanged _ s
  · intro path y hstop hshallow
    obtain ⟨c, hfound, hc⟩ := findSymbol_of_stop hstop hshallow
    refine ⟨_, _, exec_trFind hfound d, responded_answer s _ rfl _ _, ?_, keeps_setCode _ _ _ _, ?_, ?_, ?_⟩
    · rw [hc.len]
      exact lengthWord_toNat (by omega)
    · rw [readCode_answer, readCode_setCode_same, hc.len]
    · rw [readCode_answer, readCode_setCode_same]
      exact hc.getLsbD
    · exact fun q hq => readCode_setCode_of_ne s hq c

/-! ### TR.ENC -/

theorem exec_trEnc_notFound (h : findSymbol s.tree x = .notFound) :
    exec (.trEnc x) s = complete (raise .symbolNotFound s) := by
  simp only [exec, execTrEnc, doTrEnc, h]

theorem exec_trEnc_overflow (h : findSymbol s.tree x = .overflow) :
    exec (.trEnc x) s = complete (raise .encodingOverflow s) := by
  simp only [exec, execTrEnc, doTrEnc, h]

/-- `TR.ENC` writes the code found as `VC.WR` does (42_tree.md R195). -/
theorem exec_trEnc {c : Code} (h : findSymbol s.tree x = .found c) :
    exec (.trEnc x) s = complete (doWriteCode c s) := by
  simp only [exec, execTrEnc, doTrEnc, h]

/-- Settles O42: the search ends as for `TR.FIND`, and the code found is written whole or not at all. -/
theorem trEncWritesThePath : Obligations.TrEncWritesThePath := by
  intro s x hs
  refine ⟨⟨rfl, rfl⟩, ?_, ?_, ?_, ?_⟩
  · intro hstop
    rw [exec_trEnc_notFound (findSymbol_of_no_stop hstop)]
    exact complete_raise_unchanged _ s
  · intro path y hstop hdeep
    rw [exec_trEnc_overflow (findSymbol_of_deep_stop hstop hdeep)]
    exact complete_raise_unchanged _ s
  · intro path y hstop hshallow hno
    obtain ⟨c, hfound, hc⟩ := findSymbol_of_stop hstop hshallow
    obtain ⟨_, hwr⟩ | ⟨hfit, _⟩ := doWriteCode_cases c s
    · rw [exec_trEnc hfound, hwr]
      exact complete_raise_unchanged _ s
    · exact absurd (hc.len ▸ hfit) hno
  · intro path y hstop hshallow hroom
    obtain ⟨c, hfound, hc⟩ := findSymbol_of_stop hstop hshallow
    obtain ⟨hno, _⟩ | ⟨hfit, hwr⟩ := doWriteCode_cases c s
    · exact absurd (hc.len ▸ hroom) hno
    · obtain ⟨hpos, hcap⟩ := hfit.premises
      have hwritten := bitsWritten_bitWriteAll (codeBits c) hs.buffer hpos hcap
      rw [hc.bits] at hwritten hwr
      rw [exec_trEnc hfound, hwr]
      refine ⟨_, _, complete_respond _ _, responded_answer s _ rfl _ _, ?_, keeps_setBb _ _ _, hwritten⟩
      rw [hc.len]
      exact lengthWord_toNat (by omega)

end Sys2Proof.Machine
end

section
/-! SUPPORT. The deserializer (43_serdes.md R212 to R215): what it reads, and `TR.DES` on a stored tree, on a tree
beyond a capacity and on a truncated one. -/

namespace Sys2Proof.Machine

/-! ### What the deserializer reads -/

/-- Settles O44: every call of the deserializer has a byte for it. -/
theorem serializedTreesReadBack : Obligations.SerializedTreesReadBack := fun t rest hn =>
  deserializeFrom_serialize t _ rest hn (by simp)

/-- Settles O45: what is read is a serialization, and a serialization is read back with the counts it has, all 0. -/
theorem deserializerReadsTheWireGrammar : Obligations.DeserializerReadsTheWireGrammar := by
  intro b t rest
  constructor
  · exact deserializeFrom_sound
  · rintro ⟨rfl, hn, hz⟩
    rw [serializedTreesReadBack t rest hn, hz]

/-- Of bytes at whose front no serialized tree stands the deserializer makes nothing. -/
theorem deserialize_eq_none {b : List Byte}
    (h : ¬ ∃ (tree : HuffTree) (rest : List Byte), b = serialize tree ++ rest ∧ noNullSymbol tree = true) :
    deserialize b = none := by
  cases hd : deserialize b with
  | none => rfl
  | some p =>
    obtain ⟨hb, hn, _⟩ := deserializeFrom_sound hd
    exact absurd ⟨p.1, p.2, hb, hn⟩ h

/-! ### TR.DES -/

variable {s : State}

theorem fitsStore_iff {c : Config.Capacities} {t : HuffTree} :
    fitsStore c t = true ↔ nodeCount t ≤ c.nodeMax ∧ levelCount t ≤ c.depthMax + 1 := by
  simp only [fitsStore, Bool.and_eq_true, decide_eq_true_eq]

theorem exec_trDes_serialize {t : HuffTree} {rest : List Byte} (hb : s.ibuf.drop s.ipos = serialize t ++ rest)
    (hn : noNullSymbol t = true) (hf : fitsStore s.caps t = true) : exec .trDes s =
      .next (((installTree s (zeroCounts t)).setIpos (s.ipos + (serialize t).length)).answer
        ⟨.ok, lengthWord (serialize t).length⟩) :=
  congrArg complete (doTrDes_serialize hb hn hf)

theorem exec_trDes_beyond {t : HuffTree} {rest : List Byte} (hb : s.ibuf.drop s.ipos = serialize t ++ rest)
    (hn : noNullSymbol t = true) (hf : ¬ fitsStore s.caps t = true) :
    exec .trDes s = complete (raise .capacityExceeded s) := by
  have hz : fitsStore s.caps (zeroCounts t) = false := by simpa [fitsStore] using hf
  have hread : deserialize (s.ibuf.drop s.ipos) = some (zeroCounts t, rest) := hb ▸ serializedTreesReadBack t rest hn
  rw [exec_trDes, doTrDes_some hread, hz]
  rfl

/-- On input that runs out inside the tree the capacities decide the status (log entry 5). -/
theorem exec_trDes_truncated (h : deserialize (s.ibuf.drop s.ipos) = none) : exec .trDes s =
    complete (raise (if meetsCapacity s.caps [0] 0 (s.ibuf.drop s.ipos) then .capacityExceeded
      else .unexpectedEndOfStream) s) := by
  rw [exec_trDes, doTrDes_none h]
  split <;> rfl

/-- The bytes of a tree in the input fit 32 bits (00_scope.md R8: `IBUF_MAX` is at most `2^32 - 3`). -/
theorem State.Inv.lengthWord_serialize (h : s.Inv) {t : HuffTree} {rest : List Byte}
    (hb : s.ibuf.drop s.ipos = serialize t ++ rest) :
    (lengthWord (serialize t).length).toNat = (serialize t).length := by
  have hin := ipos_after_tree h.ipos hb
  have hlen := h.ilen_add_one_lt
  exact lengthWord_toNat (by omega)

/-- Settles O46: one equation for a tree that can be stored, one for a tree beyond a capacity, one for no tree. -/
theorem trDesReadsTheTree : Obligations.TrDesReadsTheTree := by
  refine ⟨⟨rfl, rfl⟩, by decide, fun s hs => ⟨?_, ?_, ?_⟩⟩
  · intro tree rest hb hn hnodes hlevels
    have hexec := exec_trDes_serialize hb hn (fitsStore_iff.mpr ⟨hnodes, hlevels⟩)
    exact ⟨_, _, hexec, responded_answer s _ rfl _ _, hs.lengthWord_serialize hb, keepsAllBut_of_exec hexec,
      rfl, rfl, rfl, rfl⟩
  · intro tree rest hb hn hbeyond
    rw [exec_trDes_beyond hb hn fun hf => by have := fitsStore_iff.mp hf; omega]
    exact complete_raise_unchanged _ s
  · intro hno
    rw [exec_trDes_truncated (deserialize_eq_none hno)]
    refine ⟨_, complete_raise _ _, keeps_answer _ _, ?_⟩
    split
    · exact .inr (responded_answer s s rfl _ _)
    · exact .inl (responded_answer s s rfl _ _)

/-! ### Truncated trees -/

/-- Input that runs out inside a tree, closed by a `NULL_BYTE` for each open subtree, is a serialization. -/
theorem exists_closed_tree : ∀ {fuel : Nat} {b : List Byte}, b.length ≤ fuel → deserializeFrom fuel b = none →
    ∃ k t, b ++ List.replicate k Config.nullByte = serialize t ∧ noNullSymbol t = true
  | _, [], _, _ => ⟨1, .absent, rfl, rfl⟩
  | 0, _ :: _, hlen, _ => by simp at hlen
  | fuel + 1, x :: b, hlen, h => by
    have hb : b.length ≤ fuel := Nat.le_of_succ_le_succ hlen
    unfold deserializeFrom at h
    split at h
    · cases h
    · next hx =>
      split at h
      · next hl =>
        obtain ⟨k, l, hk, hn⟩ := exists_closed_tree hb hl
        refine ⟨k + 1, .node x 0 l .absent, ?_, by simp [noNullSymbol, hn, hx]⟩
        rw [List.replicate_succ', List.cons_append, ← List.append_assoc, hk]
        rfl
      · next l rest1 hl =>
        obtain ⟨rfl, hnl, _⟩ := deserializeFrom_sound hl
        split at h
        · next hr =>
          rw [List.length_append] at hb
          obtain ⟨k, r, hk, hn⟩ := exists_closed_tree (by omega) hr
          refine ⟨k, .node x 0 l r, ?_, by simp [noNullSymbol, hnl, hn, hx]⟩
          rw [List.cons_append, List.append_assoc, hk]
          rfl
        · cases h

/-- An absent subtree is no node, so closing open subtrees meets no capacity. -/
theorem meetsCapacity_append_null (c : Config.Capacities) (k : Nat) : ∀ (todo : List Nat) (n : Nat) (b : List Byte),
    meetsCapacity c todo n (b ++ List.replicate k Config.nullByte) = meetsCapacity c todo n b
  | todo, n, [] => by
    induction k generalizing todo with
    | zero => rfl
    | succ k ih =>
      cases todo with
      | nil => simp [List.replicate_succ, meetsCapacity]
      | cons d todo => simpa [List.replicate_succ, meetsCapacity] using ih todo
  | [], _, _ :: _ => by simp [meetsCapacity]
  | d :: todo, n, x :: b => by
    simp only [List.cons_append, meetsCapacity, meetsCapacity_append_null c k]

/-- Reading a whole tree meets a capacity exactly when the tree cannot be stored. -/
theorem meetsCapacity_tree (c : Config.Capacities) {t : HuffTree} (hn : noNullSymbol t = true) :
    meetsCapacity c [0] 0 (serialize t) = true ↔ ¬ fitsStore c t = true := by
  have hread := meetsCapacity_serialize c t 0 [] 0 [] hn (Nat.zero_le _)
  have habsent : t = .absent → levelCount t ≤ c.depthMax + 1 := by
    rintro rfl
    exact Nat.zero_le _
  simp only [List.append_nil, Nat.zero_add, or_iff_right_of_imp habsent, ← fitsStore_iff] at hread
  rw [hread]
  split
  · next hf => simp [meetsCapacity, hf]
  · next hf => simp [hf]

/-- Settles O47: the capacities are met on the bytes read as on the tree they are closed to. -/
theorem truncatedTreesReportTheFirstLimit : Obligations.TruncatedTreesReportTheFirstLimit := by
  intro s hno
  have hnone := deserialize_eq_none hno
  obtain ⟨k, tree, hk, hn⟩ := exists_closed_tree (Nat.le_refl _) hnone
  have hmeets : meetsCapacity s.caps [0] 0 (s.ibuf.drop s.ipos) = true ↔ ¬ fitsStore s.caps tree = true := by
    rw [← meetsCapacity_append_null s.caps k, hk, meetsCapacity_tree s.caps hn]
  refine ⟨k, tree, _, hk, hn, exec_trDes_truncated hnone, keeps_answer _ _, ?_⟩
  by_cases hf : fitsStore s.caps tree = true
  · rw [if_pos hf, if_neg fun h => hmeets.mp h hf]
    exact responded_answer s s rfl _ _
  · rw [if_neg hf, if_pos (hmeets.mpr hf)]
    exact responded_answer s s rfl _ _

end Sys2Proof.Machine
end

section
/-! SUPPORT. The pipelines as inverse to each other: the stream `ENCODE` leaves (44_codec.md R231; 30_encoding.md R90,
R93), what `DECODE` makes of a stream of leaf paths (R239), and the round trip (R247). -/

namespace Sys2Proof.Machine

variable {s : State}

/-! ### ENCODE -/

theorem State.Inv.text_length_lt (h : s.Inv) : (s.ibuf ++ [Config.eosByte]).length + 1 < 2 ^ 32 := by
  simpa using h.text_lt

/-- The tree `ENCODE` builds has a leaf for every byte of the text and for the sentinel. -/
theorem State.Inv.mem_leaves_of_mem_text (h : s.Inv) :
    ∀ x ∈ s.ibuf ++ [Config.eosByte], x ∈ (leafPaths (encodeSetup s).tree).map Prod.snd :=
  fun _ hx => (leaf_of_text h.text_length_lt).mpr (.inl hx)

/-- The bits of the text fit the fresh buffer when their bytes fit its capacity. -/
theorem bitsFit_encodeSetup {n : Nat} (hpos : n ≤ 2 ^ 32 - 1) (hcap : (n + 7) / 8 ≤ s.caps.bbMax) :
    BitsFit (encodeSetup s) n := by
  have hcursor : (encodeSetup s).bb.cursor.toNat = 0 := rfl
  have hcaps : (encodeSetup s).caps = s.caps := rfl
  unfold BitsFit
  rw [hcursor, hcaps]
  omega

/-- `ENCODE` of a text whose codes and stream fit: the serialized tree, then the bytes that pack the codes
(44_codec.md R231). -/
theorem doEncode_wire {tree : HuffTree} {bits : List Bool} (hs : s.Inv) (htree : tree = (encodeSetup s).tree)
    (hlevels : levelCount tree ≤ 33) (hbits : bits = textBits tree (s.ibuf ++ [Config.eosByte]))
    (hpos : bits.length ≤ 2 ^ 32 - 1) (hcap : (bits.length + 7) / 8 ≤ s.caps.bbMax)
    (hout : (serialize tree).length + (bits.length + 7) / 8 ≤ s.caps.obufMax) :
    ∃ b payload, bufferBytes b = payload ∧ b.cursor.toNat = bits.length ∧ Packs bits payload ∧
      doEncode s = respond (lengthWord (serialize tree ++ payload).length)
        (((encodeSetup s).setBb b).setObuf (serialize tree ++ payload)) := by
  subst htree
  have hfit := bitsFit_encodeSetup hpos hcap
  rw [hbits] at hfit
  have hsteps := encodeSymbols_shallow _ (encodeSetup s) (bufferInv_fresh _) hlevels hs.mem_leaves_of_mem_text hfit
  rw [← hbits] at hsteps
  obtain ⟨hpacks, hcursor⟩ := packs_written (bbMax := s.caps.bbMax) bits hpos fun hne => by
    have := List.length_pos_iff.mpr hne
    omega
  have hsize := hpacks.1
  rw [bufferBytes_length] at hsize
  refine ⟨_, _, rfl, hcursor, hpacks, ?_⟩
  rw [List.length_append, bufferBytes_length]
  refine doEncode_written hsteps ?_
  exact (Nat.add_le_add_left (Nat.le_of_eq hsize) _).trans hout

/-- Settles O54: the output is that of `doEncode_wire`; a leaf of a tree of 33 levels is at most 32 edges down. -/
theorem encodeWritesTheWireFormat : Obligations.EncodeWritesTheWireFormat := by
  refine ⟨⟨rfl, rfl⟩, by decide, fun s tree bits hs htree hlevels hbits hpos hcap hout => ?_⟩
  obtain ⟨b, payload, hbytes, hcursor, hpacks, henc⟩ := doEncode_wire hs htree hlevels hbits hpos hcap hout
  have hexec : exec .codecEncode s = _ := congrArg complete henc
  have hlen : (serialize tree ++ payload).length ≤ s.caps.obufMax := by
    rw [List.length_append, hpacks.1]
    exact hout
  refine ⟨_, payload, _, hexec, responded_answer s _ rfl _ _, hs.lengthWord_toNat_of_le_obufMax hlen, rfl, hpacks, ?_,
    rfl, htree.symm, rfl, rfl, hbytes, hcursor, keepsAllBut_of_exec hexec⟩
  intro x hx
  obtain ⟨path, hpath, hleaf⟩ := codePath_of_mem (hs.mem_leaves_of_mem_text x hx)
  have hdepth := leafPaths_length_lt hleaf
  subst htree
  exact ⟨path, hpath, Nat.le_of_lt_succ (hdepth.trans_le hlevels)⟩

/-! ### DECODE -/

/-- The input is a stream that `DECODE` can read to its end: a tree that can be stored, and a payload that begins with
the paths of leaves and then the path of a sentinel leaf (30_encoding.md R90, R93; 44_codec.md R239). -/
structure WalkStream (s : State) (tree : HuffTree) (payload : List Byte) (walk : List (List Bool × Byte))
    (last : List Bool) : Prop where
  input    : s.ibuf = serialize tree ++ payload
  noNull   : noNullSymbol tree = true
  stored   : fitsStore s.caps tree = true
  loaded   : payload.length ≤ s.caps.bbMax
  room     : walk.length ≤ s.caps.obufMax
  leaves   : ∀ p ∈ walk, p ∈ leafPaths tree ∧ p.1 ≠ [] ∧ p.2 ≠ Config.eosByte
  sentinel : (last, Config.eosByte) ∈ leafPaths tree
  whole    : (walk.flatMap Prod.fst ++ last).length ≤ 8 * payload.length
  position : (walk.flatMap Prod.fst ++ last).length ≤ 2 ^ 32 - 1
  bits     : ∀ k, k < (walk.flatMap Prod.fst ++ last).length →
    payloadBit payload k = (walk.flatMap Prod.fst ++ last).getD k false

/-- Where `DECODE` stands when it starts the walk (44_codec.md R240). -/
def loadedStream (s : State) (tree : HuffTree) (payload : List Byte) : State :=
  ((installTree (s.setObuf []) (zeroCounts tree)).setIpos (serialize tree).length).setBb (loadedBuffer payload)

theorem skipBits_zero (s : State) : skipBits s 0 = s := by
  have hcursor : s.bb.cursor + BitVec.ofNat 32 0 = s.bb.cursor := BitVec.add_zero _
  rw [skipBits, hcursor]
  rfl

/-- A loaded buffer reads as the bits of the bytes loaded (40_bitbuffer.md R140; 20_memory.md R61). -/
theorem bitRead_loadedBuffer (bytes : List Byte) {k : Nat} (hk : k < 8 * bytes.length) :
    bitRead (loadedBuffer bytes) k = some (payloadBit bytes k) := by
  rw [bitRead_eq_payloadBit, bufferBytes_loaded]
  exact if_pos (Nat.div_lt_of_lt_mul hk)

variable {tree : HuffTree} {payload : List Byte} {walk : List (List Bool × Byte)} {last : List Bool}

/-- A stored tree that is the sentinel's leaf: no leaf has a path, so the walk is over before the first bit
(44_codec.md R242). -/
theorem WalkStream.doDecode_leaf (h : WalkStream s tree payload walk last) (hleaf : isLeaf tree = true) :
    walk = [] ∧ last = [] ∧ doDecode s = respond 0 ((loadedStream s tree payload).setWalk .done []) := by
  obtain ⟨x, n, rfl⟩ := isLeaf_iff.mp hleaf
  have hpaths : leafPaths (.node x n .absent .absent) = [([], x)] := by simp [leafPaths]
  have hwalk : walk = [] := List.eq_nil_iff_forall_not_mem.mpr fun p hp => by
    obtain ⟨hmem, hne, _⟩ := h.leaves p hp
    rw [hpaths, List.mem_singleton] at hmem
    exact hne (congrArg Prod.fst hmem)
  have hsentinel := h.sentinel
  rw [hpaths, List.mem_singleton, Prod.mk.injEq] at hsentinel
  obtain ⟨rfl, rfl⟩ := hsentinel
  refine ⟨hwalk, rfl, ?_⟩
  rw [doDecode_load h.input h.noNull h.stored h.loaded, doDecStart_sentinel rfl, andThen_respond,
    decodeLoop_stopped _ (by simp)]
  rfl

/-- A stored tree with children: the loop walks the paths bit by bit. -/
theorem WalkStream.decodeLoop_eq (h : WalkStream s tree payload walk last) (hl : isLeaf tree = false) :
    decodeLoop (8 * payload.length + 1) ((loadedStream s tree payload).setWalk .run []) =
      respond (lengthWord walk.length) (((skipBits (loadedStream s tree payload)
        (walk.flatMap Prod.fst ++ last).length).setObuf (walk.map Prod.snd)).setWalk .done []) := by
  have hleafPaths : leafPaths (loadedStream s tree payload).tree = leafPaths tree := leafPaths_zeroCounts tree
  have hfuel : 8 * payload.length + 1 = (8 * payload.length + 1 - (walk.flatMap Prod.fst ++ last).length) +
      (walk.flatMap Prod.fst ++ last).length := by
    have := h.whole
    omega
  rw [hfuel]
  have hcursor : ((loadedStream s tree payload).setWalk .run []).bb.cursor.toNat = 0 := rfl
  have hobuf : ((loadedStream s tree payload).setWalk .run []).obuf = [] := rfl
  have hloop := decodeLoop_walk last (leafPath_ne_nil hl h.sentinel)
    (8 * payload.length + 1 - (walk.flatMap Prod.fst ++ last).length) walk
    ((loadedStream s tree payload).setWalk .run []) rfl rfl (hleafPaths ▸ h.leaves) (hleafPaths ▸ h.sentinel)
  simp only [hcursor, hobuf, List.length_nil, Nat.zero_add, List.nil_append] at hloop
  refine hloop h.room h.position fun k hk => ?_
  rw [← h.bits k hk]
  exact bitRead_loadedBuffer payload (hk.trans_le h.whole)

/-- `DECODE` of such a stream ends behind the sentinel's path with the symbols of the leaves as output
(44_codec.md R239 to R241, R246). -/
theorem WalkStream.doDecode_eq (h : WalkStream s tree payload walk last) (ha : isAbsent tree = false) :
    doDecode s = respond (lengthWord walk.length) (((skipBits (loadedStream s tree payload)
      (walk.flatMap Prod.fst ++ last).length).setObuf (walk.map Prod.snd)).setWalk .done []) := by
  cases hl : isLeaf tree with
  | true =>
    obtain ⟨rfl, rfl, hdec⟩ := h.doDecode_leaf hl
    exact hdec.trans (congrArg (fun u : State => respond 0 (u.setWalk .done [])) (skipBits_zero _).symm)
  | false =>
    rw [doDecode_load h.input h.noNull h.stored h.loaded, doDecStart_inner (by simpa using ha)
      (by simpa [isLeaf_zeroCounts] using hl), andThen_respond]
    exact h.decodeLoop_eq hl

/-- Settles O58: `DECODE` by `WalkStream.doDecode_eq`; the cursor has moved over the paths, and the loaded bytes
stay. -/
theorem decodeInvertsTheWireFormat : Obligations.DecodeInvertsTheWireFormat := by
  rintro s tree payload walk last _ hs input noNull stored loaded room ha leaves sentinel rfl whole position bits
  have hdec := WalkStream.doDecode_eq ⟨input, noNull, stored, loaded, room, leaves, sentinel, whole, position, bits⟩ ha
  have hexec : exec .codecDecode s = _ := congrArg complete hdec
  refine ⟨_, _, hexec, responded_answer s _ rfl _ _, hs.lengthWord_toNat_of_le_obufMax room, rfl, rfl, rfl, rfl,
    rfl, ?_, bufferBytes_loaded payload, keepsAllBut_of_exec hexec⟩
  show (0#32 + BitVec.ofNat 32 (walk.flatMap Prod.fst ++ last).length).toNat = _
  rw [BitVec.zero_add]
  exact lengthWord_toNat (by omega)

/-! ### The round trip -/

theorem State.Inv.reAnswer (h : s.Inv) (e : Status) (rs : List Response) : (s.reAnswer e rs).Inv :=
  ⟨h.caps, h.buffer, h.codes, h.ilen, h.ipos, h.olen, h.tree, h.nodes, h.walking, h.resting⟩

/-- `IB.PUT` of bytes in order, where they fit, leaves them behind the input there was (45_system.md R264). -/
theorem execAll_ibPut (cmds : List Instr) : ∀ (bytes : List Byte) (s : State),
    s.ibuf.length + bytes.length ≤ s.caps.ibufMax → ∃ e rs,
    execAll (bytes.map .ibPut ++ cmds) s = execAll cmds ((s.setIbuf (s.ibuf ++ bytes)).reAnswer e rs)
  | [], s, _ => ⟨s.status, s.responses, by rw [List.append_nil]; rfl⟩
  | x :: bytes, s, hroom => by
    rw [List.length_cons] at hroom
    have hput := exec_ibPut (s := s) (by omega) x
    obtain ⟨e, rs, hrest⟩ := execAll_ibPut cmds bytes
      ((s.setIbuf (s.ibuf ++ [x])).answer ⟨.ok, lengthWord (s.ibuf.length + 1)⟩)
      (by
        simp only [answer_ibuf, setIbuf_ibuf, List.length_append, List.length_singleton, answer_caps, setIbuf_caps]
        omega)
    refine ⟨e, rs, (execAll_next _ hput).trans (hrest.trans ?_)⟩
    rw [answer_ibuf, setIbuf_ibuf, List.append_assoc]
    rfl

/-- A text without the NULL byte has a tree without it (43_serdes.md R214). -/
theorem State.Inv.noNullSymbol_text (h : s.Inv) (hnull : Config.nullByte ∉ s.ibuf) :
    noNullSymbol (encodeSetup s).tree = true := by
  refine noNullSymbol_of_builtShape (builtShape_of_text h.text_length_lt) fun hmem => ?_
  have hne : Config.nullByte ≠ Config.eosByte := by decide
  have htext := (leaf_of_text h.text_length_lt).mp hmem
  simp only [List.mem_append, List.mem_singleton, hnull, hne, or_self] at htext

theorem encode_tree_caps {t : State} (h : exec .codecEncode s = .next t) :
    t.tree = (encodeSetup s).tree ∧ t.caps = s.caps := by
  obtain ⟨b, o, hstate⟩ := doEncode_state s
  rw [complete_next h, hstate]
  exact ⟨rfl, rfl⟩

/-- What `ENCODE` of a text leaves when it answers `OK`: each byte of the text is the symbol of a leaf whose path stands
in the payload, and the sentinel's path stands behind them (44_codec.md R231). -/
structure EncodedText (t : State) (text : List Byte) (walk : List (List Bool × Byte)) (last : List Bool)
    (payload : List Byte) : Prop where
  symbols  : walk.map Prod.snd = text
  leaves   : ∀ p ∈ walk, p ∈ leafPaths t.tree
  sentinel : (last, Config.eosByte) ∈ leafPaths t.tree
  position : (walk.flatMap Prod.fst ++ last).length ≤ 2 ^ 32 - 1
  loaded   : payload.length ≤ t.caps.bbMax
  packs    : Packs (walk.flatMap Prod.fst ++ last) payload
  output   : t.obuf = serialize t.tree ++ payload

theorem exists_encodedText {t : State} (h : exec .codecEncode s = .next t) (hok : t.status = .ok) :
    ∃ walk last payload, EncodedText t s.ibuf walk last payload := by
  obtain rfl := complete_next ((exec_codecEncode s).symm.trans h)
  obtain ⟨walk, hsymbols, hleaves, hpos, payload, hload, hpacks, henc⟩ := doEncode_ok hok
  obtain ⟨walk, tail, rfl, hwalk, htail⟩ := List.map_eq_append_iff.mp hsymbols
  obtain ⟨⟨last, _⟩, rfl, rfl⟩ := List.map_eq_singleton_iff.mp htail
  rw [List.flatMap_append, List.flatMap_singleton] at hpos hpacks
  rw [henc]
  exact ⟨walk, last, payload, hwalk, fun p hp => hleaves p (List.mem_append_left _ hp),
    hleaves _ (List.mem_append_right _ (List.mem_singleton_self _)), hpos, hload, hpacks, rfl⟩

/-- A tree with a leaf of another symbol beside the sentinel's is no lone leaf. -/
theorem isLeaf_eq_false_of_two_leaves {p q : List Bool} {x y : Byte} (hp : (p, x) ∈ leafPaths tree)
    (hq : (q, y) ∈ leafPaths tree) (hne : x ≠ y) : isLeaf tree = false := by
  by_contra hl
  obtain ⟨z, hz⟩ := leafPaths_of_isLeaf (Bool.eq_true_of_not_eq_false hl)
  rw [hz, List.mem_singleton, Prod.mk.injEq] at hp hq
  exact hne (hp.2.trans hq.2.symm)

/-- The output of `ENCODE`, copied to the input of a block with room for it, is a stream `DECODE` can read to its
end. -/
theorem EncodedText.walkStream {t u : State} {text : List Byte} (h : EncodedText t text walk last payload)
    (heos : Config.eosByte ∉ text) (hnull : noNullSymbol t.tree = true) (hstored : fitsStore t.caps t.tree = true)
    (hinput : u.ibuf = t.obuf) (hcaps : u.caps = t.caps) (hroom : text.length ≤ u.caps.obufMax) :
    WalkStream u t.tree payload walk last where
  input := hinput.trans h.output
  noNull := hnull
  stored := hcaps ▸ hstored
  loaded := hcaps ▸ h.loaded
  room := by rwa [← List.length_map, h.symbols]
  leaves := fun p hp => by
    have hne : p.2 ≠ Config.eosByte := fun h0 => heos (h0 ▸ h.symbols ▸ List.mem_map_of_mem hp)
    have hleaf := h.leaves p hp
    exact ⟨hleaf, leafPath_ne_nil (isLeaf_eq_false_of_two_leaves hleaf h.sentinel hne) hleaf, hne⟩
  sentinel := h.sentinel
  whole := by
    have := h.packs.1
    omega
  position := h.position
  bits := fun k hk => h.packs.2 k (by have := h.packs.1; omega)

/-- Settles O60: the stream of `ENCODE`, put into the input by `execAll_ibPut`, decodes by `WalkStream.doDecode_eq`. -/
theorem decodeOfEncodeIsTheText : Obligations.DecodeOfEncodeIsTheText := by
  intro s t hs heos hnull henc hok hin hout
  have ht : t.Inv := (endsInv_exec hs .codecEncode).inv henc
  obtain ⟨htree, hcaps⟩ := encode_tree_caps henc
  obtain ⟨walk, last, payload, htext⟩ := exists_encodedText henc hok
  obtain ⟨e, rs, hputs⟩ := execAll_ibPut [.codecDecode] t.obuf (((t.setIbuf []).setIpos 0).answer ⟨.ok, 0⟩)
    (by simpa [hcaps] using hin)
  have hstream := htext.walkStream (u := ((t.setIbuf t.obuf).setIpos 0).reAnswer e rs) heos
    (htree ▸ hs.noNullSymbol_text hnull) ht.tree rfl rfl (hcaps ▸ hout)
  have hpresent : isAbsent t.tree = false := htree ▸ isAbsent_of_builtShape (builtShape_of_text hs.text_length_lt)
  have hdec := congrArg complete (hstream.doDecode_eq hpresent)
  have hlen : walk.length = s.ibuf.length := by rw [← htext.symbols, List.length_map]
  refine ⟨_, _, (execAll_next _ (exec_ibClr t)).trans (hputs.trans (execAll_next [] hdec)), rfl, htext.symbols,
    List.getLast?_concat, ?_⟩
  rw [hlen]
  exact hs.lengthWord_toNat_of_le_obufMax hout

end Sys2Proof.Machine
end
